-- ==== Sys2Proof/Word.lean ====
section
/-! DEFINITION. The word types of BPCORE (spec/00_scope.md R16: a byte is 8 bits, every value is unsigned). -/

namespace Sys2Proof

/-- A byte (R16). -/
abbrev Byte := BitVec 8

/-- The 16-bit `x` field of a command word, and an event word (spec/30_encoding.md R89, R94). -/
abbrev Half := BitVec 16

/-- The 32-bit response data and the column bitmask (R96, spec/00_scope.md R13). -/
abbrev Word := BitVec 32

/-- A 48-bit foreground command word (R89). -/
abbrev CommandWord := BitVec 48

/-- A 16-bit interrupt event word (R94). -/
abbrev EventWord := BitVec 16

end Sys2Proof
end

