-- ==== Sys2Proof/Syntax.lean ====
section
/-! DEFINITION. The operation set BPC-OPS 1 as syntax: sixteen foreground commands and three interrupt event services
(spec/30_encoding.md R91, R94), one constructor for each row of spec/opcode_table.json. -/

namespace Sys2Proof

/-- The two byte channels; operand `ch` with `0` = IN, `1` = OUT (spec/30_encoding.md R92). -/
inductive Chan where
  | inbound
  | outbound
deriving DecidableEq, Repr

/-- The six statistics counters of a channel, in the order of their select codes 0 to 5 (spec/10_state.md R24).
Codes 6 and 7 spell no counter (spec/30_encoding.md R93) and are not values of this type. -/
inductive StatSel where
  | ints
  | bytes
  | parity
  | framing
  | overrun
  | overflow
deriving DecidableEq, Repr

/-- The four event sinks, in the order of their select codes 0 to 3 (spec/10_state.md R31). -/
inductive HndSel where
  | noteOn
  | noteOff
  | keyDown
  | keyUp
deriving DecidableEq, Repr

/-- An operation of BPCORE: a foreground command or one interrupt event service (spec/92_eei_decisions.md D1). -/
inductive Instr where
  /-- `ch.init ch`, spec/40_byte_channel.md R117. -/
  | chInit (ch : Chan)
  /-- `rx.pop`, R118. -/
  | rxPop
  /-- `ch.has ch`, R119. -/
  | chHas (ch : Chan)
  /-- `tx.push byte`, R121. -/
  | txPush (byte : Byte)
  /-- `stat.rd ch, sel`, spec/44_system.md R214. -/
  | statRd (ch : Chan) (sel : StatSel)
  /-- `dec.init`, spec/41_protocol_framer.md R149. -/
  | decInit
  /-- `dec.poll`, R148. -/
  | decPoll
  /-- `enc.send cmd, note, vel`, R150. -/
  | encSend (cmd note vel : Byte)
  /-- `hnd.set sel, en`, spec/44_system.md R212. -/
  | hndSet (sel : HndSel) (en : Bool)
  /-- `scan.init`, spec/42_debounce_scanner.md R161. -/
  | scanInit
  /-- `scan.tick`, R162; the column sample is an environment input, not an operand (spec/30_encoding.md R95). -/
  | scanTick
  /-- `fs.init`, spec/43_frame_store.md R191. -/
  | fsInit
  /-- `fs.set idx, c0, c1, c2`, R192. -/
  | fsSet (idx : Half) (c0 c1 c2 : Byte)
  /-- `fs.clr`, R193. -/
  | fsClr
  /-- `fs.get idx`, R194. -/
  | fsGet (idx : Half)
  /-- `delay ms, p`, spec/44_system.md R216. -/
  | delay (ms : Half) (p : Bool)
  /-- The flush service, spec/43_frame_store.md R195. -/
  | irqFlush
  /-- The receive service, spec/40_byte_channel.md R120: whether a byte is available, the byte, and the parity, framing
  and hardware overrun flags. -/
  | irqRx (avail : Bool) (data : Byte) (pe fe oe : Bool)
  /-- The transmit service, R122. -/
  | irqTx
deriving DecidableEq, Repr

end Sys2Proof
end

