-- ==== Sys2Proof/WellFormed.lean ====
section
/-! DEFINITION. Which operations an encoded word can spell. The operand types already exclude the reserved select values
(spec/30_encoding.md R93), so one check is left: an event word always stands for a receive service with a byte available
(spec/40_byte_channel.md R120, spec/92_eei_decisions.md D3); the spurious service exists at operation level only. -/

namespace Sys2Proof

/-- `i` is spelled by some command word or event word. -/
def Instr.wellFormed : Instr → Bool
  | .irqRx avail _ _ _ _ => avail
  | _ => true

/-- `i` is a foreground command: FG runs it and it returns a response (spec/00_scope.md R6, spec/60_exceptions.md R238). -/
def Instr.isCommand : Instr → Bool
  | .irqFlush => false
  | .irqRx _ _ _ _ _ => false
  | .irqTx => false
  | _ => true

end Sys2Proof
end

