-- ==== Sys2Proof/Decode.lean ====
section
/-! DEFINITION. Decoding and encoding of command words and event words (spec/30_encoding.md R89 to R94). Words are
serialised most significant byte first (R89, spec/20_memory.md R53), so the decoder reads bytes: six bytes are a command
word, two bytes are an event word, and nothing else spells an operation. -/

namespace Sys2Proof

/-- Why bytes spell no operation (R93, R94). -/
inductive DecodeError where
  /-- The operation code is none of the sixteen (R93 (a)). -/
  | unknownOp (op : Byte)
  /-- A reserved bit of the format is set (R93 (b), R94). -/
  | reservedBits
  /-- STAT_RD with select 6 or 7 (R93 (c)). -/
  | reservedSelect (sel : Nat)
  /-- Event id 3 (R94). -/
  | reservedEvent
  /-- Neither six nor two bytes. -/
  | badLength (n : Nat)
deriving DecidableEq, Repr

/-- The `n` bytes of a word, most significant first (R89). -/
def bytesOfWord : Nat → Nat → List Byte
  | 0, _ => []
  | n + 1, w => BitVec.ofNat 8 (w / 256 ^ n) :: bytesOfWord n w

/-- The word whose bytes, most significant first, are `bs`. -/
def wordOfBytes : List Byte → Nat
  | [] => 0
  | b :: bs => b.toNat * 256 ^ bs.length + wordOfBytes bs

/-- The five fixed fields of a command word (R89). -/
structure Fields where
  /-- `op`, bits 47:40. -/
  op : Byte
  /-- `x`, bits 39:24. -/
  x : Half
  /-- `b0`, bits 23:16. -/
  b0 : Byte
  /-- `b1`, bits 15:8. -/
  b1 : Byte
  /-- `b2`, bits 7:0. -/
  b2 : Byte
deriving DecidableEq, Repr

/-- The high byte of a 16-bit field. -/
def Half.hi (x : Half) : Byte := BitVec.ofNat 8 (x.toNat / 256)

/-- The low byte of a 16-bit field. -/
def Half.lo (x : Half) : Byte := BitVec.ofNat 8 x.toNat

/-- The 16-bit field with high byte `h` and low byte `l`. -/
def Half.ofBytes (h l : Byte) : Half := BitVec.ofNat 16 (h.toNat * 256 + l.toNat)

/-- A command word's six bytes, most significant first (R89). -/
def Fields.bytes (f : Fields) : List Byte := [f.op, Half.hi f.x, Half.lo f.x, f.b0, f.b1, f.b2]

/-! ## Select values (R92) -/

/-- `ch`: 0 = IN, 1 = OUT. -/
def Chan.ofCode (n : Nat) : Option Chan :=
  match n with
  | 0 => some .inbound
  | 1 => some .outbound
  | _ => none

/-- `ch`: 0 = IN, 1 = OUT. -/
def Chan.code : Chan → Nat
  | .inbound => 0
  | .outbound => 1

/-- `sel` of STAT_RD; 6 and 7 are reserved. -/
def StatSel.ofCode (n : Nat) : Option StatSel :=
  match n with
  | 0 => some .ints
  | 1 => some .bytes
  | 2 => some .parity
  | 3 => some .framing
  | 4 => some .overrun
  | 5 => some .overflow
  | _ => none

/-- `sel` of STAT_RD. -/
def StatSel.code : StatSel → Nat
  | .ints => 0
  | .bytes => 1
  | .parity => 2
  | .framing => 3
  | .overrun => 4
  | .overflow => 5

/-- `sel` of HND_SET. -/
def HndSel.ofCode (n : Nat) : Option HndSel :=
  match n with
  | 0 => some .noteOn
  | 1 => some .noteOff
  | 2 => some .keyDown
  | 3 => some .keyUp
  | _ => none

/-- `sel` of HND_SET. -/
def HndSel.code : HndSel → Nat
  | .noteOn => 0
  | .noteOff => 1
  | .keyDown => 2
  | .keyUp => 3

/-- A one-bit operand (`en`, `p`); `none` when a reserved bit above it is set. -/
def bitOfCode (n : Nat) : Option Bool :=
  match n with
  | 0 => some false
  | 1 => some true
  | _ => none

/-- A one-bit operand as a number. -/
def bitCode (b : Bool) : Nat := if b then 1 else 0

/-! ## Formats (R90): each reads its operands and refuses a set reserved bit -/

/-- A result, or the refusal `reservedBits`. -/
def orReserved : Option Instr → Except DecodeError Instr
  | some i => .ok i
  | none => .error .reservedBits

/-- Format N: no operand. -/
def Fields.formatN (f : Fields) (i : Instr) : Except DecodeError Instr :=
  if f.x = 0 ∧ f.b0 = 0 ∧ f.b1 = 0 ∧ f.b2 = 0 then .ok i else .error .reservedBits

/-- Format C: `ch = x[0]`. -/
def Fields.formatC (f : Fields) (mk : Chan → Instr) : Except DecodeError Instr :=
  if f.b0 = 0 ∧ f.b1 = 0 ∧ f.b2 = 0 then orReserved ((Chan.ofCode f.x.toNat).map mk) else .error .reservedBits

/-- Format B: `byte = b0`. -/
def Fields.formatB (f : Fields) (mk : Byte → Instr) : Except DecodeError Instr :=
  if f.x = 0 ∧ f.b1 = 0 ∧ f.b2 = 0 then .ok (mk f.b0) else .error .reservedBits

/-- Format CS: `ch = x[0]`, `sel = b0[2:0]`; a legal shape with select 6 or 7 is refused by its own name. -/
def Fields.formatCS (f : Fields) (mk : Chan → StatSel → Instr) : Except DecodeError Instr :=
  if f.b1 = 0 ∧ f.b2 = 0 ∧ f.b0.toNat < 8 then
    match Chan.ofCode f.x.toNat, StatSel.ofCode f.b0.toNat with
    | none, _ => .error .reservedBits
    | some _, none => .error (.reservedSelect f.b0.toNat)
    | some ch, some sel => .ok (mk ch sel)
  else .error .reservedBits

/-- Format T: three bytes. -/
def Fields.formatT (f : Fields) (mk : Byte → Byte → Byte → Instr) : Except DecodeError Instr :=
  if f.x = 0 then .ok (mk f.b0 f.b1 f.b2) else .error .reservedBits

/-- Format HS: `sel = x[1:0]`, `en = b0[0]`. -/
def Fields.formatHS (f : Fields) (mk : HndSel → Bool → Instr) : Except DecodeError Instr :=
  if f.b1 = 0 ∧ f.b2 = 0 then
    match HndSel.ofCode f.x.toNat, bitOfCode f.b0.toNat with
    | some sel, some en => .ok (mk sel en)
    | _, _ => .error .reservedBits
  else .error .reservedBits

/-- Format XT: `idx = x` and three bytes; nothing reserved. -/
def Fields.formatXT (f : Fields) (mk : Half → Byte → Byte → Byte → Instr) : Except DecodeError Instr :=
  .ok (mk f.x f.b0 f.b1 f.b2)

/-- Format X: `idx = x`. -/
def Fields.formatX (f : Fields) (mk : Half → Instr) : Except DecodeError Instr :=
  if f.b0 = 0 ∧ f.b1 = 0 ∧ f.b2 = 0 then .ok (mk f.x) else .error .reservedBits

/-- Format XP: `ms = x`, `p = b0[0]`. -/
def Fields.formatXP (f : Fields) (mk : Half → Bool → Instr) : Except DecodeError Instr :=
  if f.b1 = 0 ∧ f.b2 = 0 then orReserved ((bitOfCode f.b0.toNat).map (mk f.x)) else .error .reservedBits

/-- The opcode map (R91). -/
def decodeCommand (f : Fields) : Except DecodeError Instr :=
  match f.op.toNat with
  | 0x01 => f.formatC .chInit
  | 0x02 => f.formatN .rxPop
  | 0x03 => f.formatC .chHas
  | 0x04 => f.formatB .txPush
  | 0x05 => f.formatCS .statRd
  | 0x10 => f.formatN .decInit
  | 0x11 => f.formatN .decPoll
  | 0x12 => f.formatT .encSend
  | 0x13 => f.formatHS .hndSet
  | 0x20 => f.formatN .scanInit
  | 0x21 => f.formatN .scanTick
  | 0x30 => f.formatN .fsInit
  | 0x31 => f.formatXT .fsSet
  | 0x32 => f.formatN .fsClr
  | 0x33 => f.formatX .fsGet
  | 0x40 => f.formatXP .delay
  | _ => .error (.unknownOp f.op)

/-- An event word (R94): `hi` is `EW[15:8]` = id (2), reserved (3), oe, fe, pe; `lo` is the data byte. -/
def decodeEvent (hi lo : Byte) : Except DecodeError Instr :=
  match hi.toNat / 64 with
  | 0 => if hi.toNat = 0x00 ∧ lo = 0 then .ok .irqFlush else .error .reservedBits
  | 1 =>
    if hi.toNat < 0x48 then .ok (.irqRx true lo (hi.getLsbD 0) (hi.getLsbD 1) (hi.getLsbD 2))
    else .error .reservedBits
  | 2 => if hi.toNat = 0x80 ∧ lo = 0 then .ok .irqTx else .error .reservedBits
  | _ => .error .reservedEvent

/-- The decoder, total on any bytes. -/
def decode : List Byte → Except DecodeError Instr
  | [op, xh, xl, b0, b1, b2] => decodeCommand ⟨op, Half.ofBytes xh xl, b0, b1, b2⟩
  | [hi, lo] => decodeEvent hi lo
  | bs => .error (.badLength bs.length)

/-- The fields of a command (R90, R91); an event has none. -/
def Instr.fields : Instr → Option Fields
  | .chInit ch => some ⟨0x01, BitVec.ofNat 16 ch.code, 0, 0, 0⟩
  | .rxPop => some ⟨0x02, 0, 0, 0, 0⟩
  | .chHas ch => some ⟨0x03, BitVec.ofNat 16 ch.code, 0, 0, 0⟩
  | .txPush byte => some ⟨0x04, 0, byte, 0, 0⟩
  | .statRd ch sel => some ⟨0x05, BitVec.ofNat 16 ch.code, BitVec.ofNat 8 sel.code, 0, 0⟩
  | .decInit => some ⟨0x10, 0, 0, 0, 0⟩
  | .decPoll => some ⟨0x11, 0, 0, 0, 0⟩
  | .encSend cmd note vel => some ⟨0x12, 0, cmd, note, vel⟩
  | .hndSet sel en => some ⟨0x13, BitVec.ofNat 16 sel.code, BitVec.ofNat 8 (bitCode en), 0, 0⟩
  | .scanInit => some ⟨0x20, 0, 0, 0, 0⟩
  | .scanTick => some ⟨0x21, 0, 0, 0, 0⟩
  | .fsInit => some ⟨0x30, 0, 0, 0, 0⟩
  | .fsSet idx c0 c1 c2 => some ⟨0x31, idx, c0, c1, c2⟩
  | .fsClr => some ⟨0x32, 0, 0, 0, 0⟩
  | .fsGet idx => some ⟨0x33, idx, 0, 0, 0⟩
  | .delay ms p => some ⟨0x40, ms, BitVec.ofNat 8 (bitCode p), 0, 0⟩
  | .irqFlush => none
  | .irqRx _ _ _ _ _ => none
  | .irqTx => none

/-- The bytes of an event word (R94); an ill-formed receive service (no byte available) has none. -/
def Instr.eventBytes : Instr → List Byte
  | .irqFlush => [0x00, 0x00]
  | .irqRx true data pe fe oe => [BitVec.ofNat 8 (0x40 + 4 * bitCode oe + 2 * bitCode fe + bitCode pe), data]
  | .irqTx => [0x80, 0x00]
  | _ => []

/-- The bytes of a well-formed operation, most significant first (R89 to R94). -/
def encode (i : Instr) : List Byte :=
  match i.fields with
  | some f => f.bytes
  | none => i.eventBytes

/-- The word of a well-formed operation as a number, bit 0 the least significant. -/
def encodeWord (i : Instr) : Nat := wordOfBytes (encode i)

/-- The number of bits of an operation's word: 48 for a command, 16 for an event service. -/
def encodeBits (i : Instr) : Nat := 8 * (encode i).length

/-- `match` and `mask` of an operation's row (R91, R94). -/
structure OpcodeRow where
  pattern : Nat
  mask : Nat
deriving DecidableEq, Repr

/-- The opcode map's `match` and `mask` columns (R91, R94), as the spec prints them. -/
def Instr.row : Instr → OpcodeRow
  | .chInit _ => ⟨0x010000000000, 0xFFFFFEFFFFFF⟩
  | .rxPop => ⟨0x020000000000, 0xFFFFFFFFFFFF⟩
  | .chHas _ => ⟨0x030000000000, 0xFFFFFEFFFFFF⟩
  | .txPush _ => ⟨0x040000000000, 0xFFFFFF00FFFF⟩
  | .statRd _ _ => ⟨0x050000000000, 0xFFFFFEF8FFFF⟩
  | .decInit => ⟨0x100000000000, 0xFFFFFFFFFFFF⟩
  | .decPoll => ⟨0x110000000000, 0xFFFFFFFFFFFF⟩
  | .encSend _ _ _ => ⟨0x120000000000, 0xFFFFFF000000⟩
  | .hndSet _ _ => ⟨0x130000000000, 0xFFFFFCFEFFFF⟩
  | .scanInit => ⟨0x200000000000, 0xFFFFFFFFFFFF⟩
  | .scanTick => ⟨0x210000000000, 0xFFFFFFFFFFFF⟩
  | .fsInit => ⟨0x300000000000, 0xFFFFFFFFFFFF⟩
  | .fsSet _ _ _ _ => ⟨0x310000000000, 0xFF0000000000⟩
  | .fsClr => ⟨0x320000000000, 0xFFFFFFFFFFFF⟩
  | .fsGet _ => ⟨0x330000000000, 0xFF0000FFFFFF⟩
  | .delay _ _ => ⟨0x400000000000, 0xFF0000FEFFFF⟩
  | .irqFlush => ⟨0x0000, 0xFFFF⟩
  | .irqRx _ _ _ _ _ => ⟨0x4000, 0xF800⟩
  | .irqTx => ⟨0x8000, 0xFFFF⟩

/-- The operation the decoder reads from the word `w` of `nbits` bits. -/
def decodeTableWord (nbits w : Nat) : Option Instr :=
  if nbits = 48 ∨ nbits = 16 then
    match decode (bytesOfWord (nbits / 8) w) with
    | .ok i => some i
    | .error _ => none
  else none

end Sys2Proof
end

