-- ==== Sys2Proof/Config.lean ====
section
/-! DEFINITION. What an implementation fixes (spec/00_scope.md R10 to R15, spec/92_eei_decisions.md part 2: every value is
OPEN) and the free values of the environment's draws (R7).

The parameters are opaque constants without a body, mapped onto exactly the ranges the spec allows, so a theorem about the
machine holds for every legal choice (log 1, log 2). Operations take a `Params`, so that a test can run them at the sizes
of the spec's own vectors. -/

namespace Sys2Proof

/-- `NOTE_ON_NIBBLE = 0x9` (R12). -/
def noteOnNibble : BitVec 4 := 0x9

/-- The default of the parameter `NOTE_OFF_NIBBLE` (R12; log 2). -/
def noteOffDefault : BitVec 4 := 0x8

/-- The implementation parameters that some rule reads. -/
structure Params where
  /-- `K_IN`, cursor width of the inbound channel (R10). -/
  kIn : Nat
  /-- `K_OUT`, cursor width of the outbound channel (R10). -/
  kOut : Nat
  /-- `NOTE_OFF_NIBBLE`, `0x8` where no other is given (R12). -/
  noteOff : BitVec 4 := noteOffDefault
  /-- `ROWS` (R13). -/
  rows : Nat
  /-- `COLS` (R13). -/
  cols : Nat
  /-- `N_DOWN` (R13). -/
  nDown : Nat
  /-- `N_UP` (R13). -/
  nUp : Nat
  /-- `N_LEDS` (R14). -/
  nLeds : Nat
  /-- `MS_WRAP` (R15, spec/60_exceptions.md R246). -/
  msWrap : Nat
deriving DecidableEq, Repr

/-- The ranges of spec/92_eei_decisions.md part 2. -/
abbrev Params.Valid (p : Params) : Prop :=
  1 ≤ p.kIn ∧ 1 ≤ p.kOut ∧ 0x8 ≤ p.noteOff.toNat ∧ p.noteOff ≠ noteOnNibble ∧ 1 ≤ p.rows ∧ 1 ≤ p.cols ∧ p.cols ≤ 32 ∧
    p.rows * p.cols ≤ 65536 ∧ 1 ≤ p.nDown ∧ p.nDown ≤ 31 ∧ 1 ≤ p.nUp ∧ p.nUp ≤ 31 ∧ 1 ≤ p.nLeds ∧ p.nLeds ≤ 65536 ∧
    65535 < p.msWrap

/-- `SIZE_IN = 2^K_IN` slots (R10). -/
def Params.sizeIn (p : Params) : Nat := 2 ^ p.kIn

/-- `SIZE_OUT = 2^K_OUT` slots (R10). -/
def Params.sizeOut (p : Params) : Nat := 2 ^ p.kOut

/-- The number of inputs, `ROWS × COLS` (R13). -/
def Params.keys (p : Params) : Nat := p.rows * p.cols

/-- Open: `K_IN - 1`. -/
opaque Config.kInFree : Nat
/-- Open: `K_OUT - 1`. -/
opaque Config.kOutFree : Nat
/-- Open: whether the implementation takes the default note-off nibble (`none`) or another of the legal ones, and which. -/
opaque Config.noteOffChosen : Option (Fin 6)
/-- Open: `COLS - 1`. -/
opaque Config.colsFree : Fin 32
/-- Open: `ROWS - 1`, reduced so that `ROWS × COLS ≤ 65536`. -/
opaque Config.rowsFree : Nat
/-- Open: `N_DOWN - 1`. -/
opaque Config.nDownFree : Fin 31
/-- Open: `N_UP - 1`. -/
opaque Config.nUpFree : Fin 31
/-- Open: `N_LEDS - 1`. -/
opaque Config.nLedsFree : Fin 65536
/-- Open: `MS_WRAP - 65536`. -/
opaque Config.msWrapFree : Nat

/-- The note-off nibble that a choice stands for: the default, or one of `0xA..0xF`; so `0x8..0xF` but `0x9` (R12). -/
def noteOffNibble : Option (Fin 6) → BitVec 4
  | none => noteOffDefault
  | some i => BitVec.ofNat 4 (i.val + 10)

/-- The machine's note-off nibble: the default unless the implementation chooses another legal one (R12). -/
def Config.noteOff : BitVec 4 := noteOffNibble Config.noteOffChosen

/-- `COLS` in `1..32` (R13). -/
def Config.cols : Nat := Config.colsFree.val + 1

/-- `ROWS ≥ 1` with `ROWS × COLS ≤ 65536` (R13). -/
def Config.rows : Nat := Config.rowsFree % (65536 / Config.cols) + 1

/-- The parameters of the machine: legal, otherwise unconstrained. -/
def Config.params : Params where
  kIn := Config.kInFree + 1
  kOut := Config.kOutFree + 1
  noteOff := Config.noteOff
  rows := Config.rows
  cols := Config.cols
  nDown := Config.nDownFree.val + 1
  nUp := Config.nUpFree.val + 1
  nLeds := Config.nLedsFree.val + 1
  msWrap := Config.msWrapFree + 65536

/-- Free value: the column bitmask `read_columns()` returns at the n-th draw not supplied as data (R7, R95; log 9). -/
opaque Config.freeCols : Nat → Word

/-- Free value: the number of iterations of a DELAY at the n-th draw not supplied as data (R7, spec/44_system.md R216;
log 10). -/
opaque Config.freeIters : Nat → Nat

end Sys2Proof
end

