-- ==== Sys2Proof/Machine/State.lean ====
section
/-! DEFINITION. The state of BPCORE (spec/10_state.md R20 to R34), the bookkeeping the spec gives a model (output streams,
spec/00_scope.md R8; foreground position, R36) and the environment's inputs held as data (R7), with its reset value
(spec/70_reset_and_hazards.md R260). -/

namespace Sys2Proof.Machine

/-- One of the four arrays (spec/20_memory.md R50) as (index, element) pairs: indices strictly rising and no element equal
to the reset element, which is what an unlisted index reads as. For bytes this is a list of `Host.Cell`. -/
abbrev Memory (α : Type) := List (Nat × α)

/-! ## Byte channels -/

/-- The six statistics counters of a channel, unbounded naturals (R24, spec/00_scope.md R11; log 16). -/
structure Stats where
  ints : Nat
  bytes : Nat
  parity : Nat
  framing : Nat
  overrun : Nat
  overflow : Nat
deriving DecidableEq, Repr

/-- A byte channel (R21 to R24). The cursors are `K`-bit registers; as `K` is a parameter they are naturals that every
operation reduces modulo `SIZE`, and `Channel.InRange` in Safety.lean states their width. -/
structure Channel where
  /-- `ch.buf` (R21). -/
  buf : Memory Byte
  /-- `ch.wr` (R22). -/
  wr : Nat
  /-- `ch.rd` (R23). -/
  rd : Nat
  /-- `ch.stat` (R24). -/
  stat : Stats
deriving DecidableEq, Repr

/-! ## Protocol decoder -/

/-- `dec.state` (R26); code 3 is no value of it. -/
inductive DecState where
  | awaitingCommand
  | awaitingNote
  | awaitingVelocity
deriving DecidableEq, Repr

/-- The decoder record (R26, R27). -/
structure Decoder where
  state : DecState
  cmd : Byte
  note : Byte
deriving DecidableEq, Repr

/-- The four handler bits (R31). -/
structure Handlers where
  noteOn : Bool
  noteOff : Bool
  keyDown : Bool
  keyUp : Bool
deriving DecidableEq, Repr

/-! ## Scanner -/

/-- The logical state of an input (R30); codes 5 to 7 are no values of it. -/
inductive KeyState where
  | unknown
  | awaitingDown
  | down
  | awaitingUp
  | up
deriving DecidableEq, Repr

/-- One input's debounce state: logical state and 5-bit counter, held as a pair (R30). -/
structure Key where
  st : KeyState
  count : BitVec 5
deriving DecidableEq, Repr

/-- `(Unknown, 0)`, packed `0x00`: the reset value of every input (R30). -/
def Key.zero : Key := ⟨.unknown, 0⟩

/-- The scanner record (R29, R30). -/
structure Scanner where
  row : Nat
  key : Memory Key
deriving DecidableEq, Repr

/-! ## Frame store -/

/-- A colour triple (R32, spec/00_scope.md R14). -/
structure Colour where
  c0 : Byte
  c1 : Byte
  c2 : Byte
deriving DecidableEq, Repr

/-- `(0x00, 0x00, 0x00)`: the reset value of every position (R32). -/
def Colour.zero : Colour := ⟨0, 0, 0⟩

/-- The frame store record (R32, R33); `none` is the dirty mark's `NONE`. -/
structure FrameStore where
  led : Memory Colour
  dirty : Option Nat
deriving DecidableEq, Repr

/-! ## Outputs (spec/00_scope.md R8) -/

/-- A record of the foreground's output stream. -/
inductive FgRecord where
  | rowSelect (row : Nat)
  | noteOn (note velocity : Byte)
  | noteOff (note velocity : Byte)
  | keyDown (index : Nat)
  | keyUp (index : Nat)
deriving DecidableEq, Repr

/-- `st` of a response word (spec/30_encoding.md R96); values 2 and 3 are never produced. -/
inductive Status where
  | ok
  | illegal
deriving DecidableEq, Repr

/-- A response (R96). -/
structure Response where
  st : Status
  rdata : Word
deriving DecidableEq, Repr

/-- The three output streams, one for each port, and the sequence of responses, each oldest first. A `TxByte(b)` record of
`txOut` and a `LedByte(b)` record of `ledOut` is its byte `b`. -/
structure Streams where
  fgOut : List FgRecord
  txOut : List Byte
  ledOut : List Byte
  responses : List Response
deriving DecidableEq, Repr

/-! ## The foreground's position and the environment -/

/-- Where FG stands inside the command at `fpc`: the commands that are not one step are ENC_SEND (three pushes) and DELAY
(drawn iterations) (spec/00_scope.md R6; logs 7, 8). -/
inductive Phase where
  /-- Nothing of the command has been done. -/
  | idle
  /-- ENC_SEND has pushed its command byte; the accept bit. -/
  | encNote (a0 : Bool)
  /-- ENC_SEND has pushed its command and note bytes; the accept bits. -/
  | encVel (a0 a1 : Bool)
  /-- DELAY has `left` iterations to go. -/
  | delaying (left : Nat)
deriving DecidableEq, Repr

/-- The foreground program, the index of its next command (R36), and the place inside that command. -/
structure Foreground where
  prog : List CommandWord
  fpc : Nat
  phase : Phase
deriving DecidableEq, Repr

/-- A choice of the environment: which agent moves, or reset (spec/00_scope.md R6, R7; logs 4, 19, 21). -/
inductive Turn where
  /-- FG moves. -/
  | fg
  /-- The event service that an event word spells (spec/30_encoding.md R94). -/
  | event (w : EventWord)
  /-- A receive service that finds no byte available, which no event word spells (spec/40_byte_channel.md R120). -/
  | spuriousRx
  /-- The reset input (spec/70_reset_and_hazards.md R261). -/
  | reset
deriving DecidableEq, Repr

/-- The environment's inputs as data: the schedule, the column samples and iteration counts waiting to be drawn, and how
many draws were taken from the free values of Config when those lists were empty (logs 4, 9, 10). -/
structure Environment where
  turns : List Turn
  cols : List Word
  iters : List Nat
  draws : Nat
deriving DecidableEq, Repr

/-- The machine: the tuple `(IN, OUT, dec, hnd, scan, fs)` of R20, the model's bookkeeping, and the environment's inputs. -/
structure State where
  /-- The inbound channel `IN`. -/
  inCh : Channel
  /-- The outbound channel `OUT`. -/
  outCh : Channel
  dec : Decoder
  hnd : Handlers
  scan : Scanner
  fs : FrameStore
  out : Streams
  fg : Foreground
  env : Environment
deriving DecidableEq, Repr

/-- BPCORE raises no exception and never halts (spec/60_exceptions.md R230, spec/70_reset_and_hazards.md R276), so a fault
has no constructor (log 14). -/
inductive Fault
deriving DecidableEq, Repr

/-- Why a step has no meaning. -/
inductive Refusal where
  /-- An arm of `exec` without a meaning answers this, by its mnemonic; safe, since nothing can be proved of what the
  instruction does. No arm answers it now. -/
  | notModelled (mnemonic : String)
deriving DecidableEq, Repr

/-- The outcome of a step of this machine. -/
abbrev Result := Host.Outcome State Fault Refusal

/-! ## Reset values (spec/70_reset_and_hazards.md R260) -/

/-- Every counter 0 (R24). -/
def Stats.zero : Stats := ⟨0, 0, 0, 0, 0, 0⟩

/-- An empty channel, buffer all zero, counters 0 (R21 to R24). -/
def Channel.reset : Channel := ⟨[], 0, 0, Stats.zero⟩

/-- `(AwaitingCommand, 0x00, 0x00)` (R26, R27). -/
def Decoder.reset : Decoder := ⟨.awaitingCommand, 0, 0⟩

/-- Every handler unset (R31). -/
def Handlers.reset : Handlers := ⟨false, false, false, false⟩

/-- Row 0 selected, every input `(Unknown, 0)` (R29, R30). -/
def Scanner.reset : Scanner := ⟨0, []⟩

/-- Every position black, nothing dirty (R32, R33). -/
def FrameStore.reset : FrameStore := ⟨[], none⟩

/-- The streams start empty (R260). -/
def Streams.empty : Streams := ⟨[], [], [], []⟩

/-- The machine right after reset. No foreground program and no input of the environment is placed: a program is loaded
from outside (logs 3, 11). -/
def State.reset : State where
  inCh := Channel.reset
  outCh := Channel.reset
  dec := Decoder.reset
  hnd := Handlers.reset
  scan := Scanner.reset
  fs := FrameStore.reset
  out := Streams.empty
  fg := ⟨[], 0, .idle⟩
  env := ⟨[], [], [], 0⟩

/-! ## Named updates -/

/-- Replace `IN`. -/
def State.setIn (s : State) (c : Channel) : State := { s with inCh := c }
/-- Replace `OUT`. -/
def State.setOut (s : State) (c : Channel) : State := { s with outCh := c }
/-- Replace the decoder record. -/
def State.setDec (s : State) (d : Decoder) : State := { s with dec := d }
/-- Replace the handler bits. -/
def State.setHnd (s : State) (h : Handlers) : State := { s with hnd := h }
/-- Replace the scanner record. -/
def State.setScan (s : State) (k : Scanner) : State := { s with scan := k }
/-- Replace the frame store record. -/
def State.setFs (s : State) (f : FrameStore) : State := { s with fs := f }
/-- Replace the output streams. -/
def State.setStreams (s : State) (o : Streams) : State := { s with out := o }
/-- Replace the foreground's position. -/
def State.setFg (s : State) (g : Foreground) : State := { s with fg := g }
/-- Replace the environment's inputs. -/
def State.setEnv (s : State) (e : Environment) : State := { s with env := e }

end Sys2Proof.Machine
end

