-- ==== Sys2Proof/Machine/Operands.lean ====
section
/-! DEFINITION. How operands, bytes and stored values are read as bits and numbers: byte classes and wire masks
(spec/30_encoding.md R82, R83), matrix addressing (R88), packed codes (R86, R87), response data (R96), and the
pseudo-instructions (R98). -/

namespace Sys2Proof.Machine

/-! ## Wire bytes (R82, R83) -/

/-- `b[7:4]`, the top nibble (spec/00_scope.md R16). -/
def topNibble (b : Byte) : BitVec 4 := b.extractLsb' 4 4

/-- `is_status(b)`: bit 7 set (R82). -/
def isStatus (b : Byte) : Bool := b.getLsbD 7

/-- `is_data(b)`: bit 7 clear (R82). -/
def isData (b : Byte) : Bool := !isStatus b

/-- `is_note_on(b)` (R82). -/
def isNoteOn (b : Byte) : Bool := topNibble b == noteOnNibble

/-- `is_cmd(b)`: the top nibble is the note-on or the note-off nibble (R82). -/
def isCmd (p : Params) (b : Byte) : Bool := isNoteOn b || topNibble b == p.noteOff

/-- `v & 0x7F` (R83, spec/20_memory.md R65 (g)). -/
def mask7 (b : Byte) : Byte := b &&& 0x7F

/-! ## Matrix addressing (R88) -/

/-- `i = row × COLS + col`. -/
def flatIndex (p : Params) (row col : Nat) : Nat := row * p.cols + col

/-- The sample of column `col` in a column bitmask: bit `col`, `true` = down. -/
def sampleBit (cols : Word) (col : Nat) : Bool := cols.getLsbD col

/-! ## Hardware codes of stored values -/

/-- The 2-bit code of `dec.state` (spec/10_state.md R26). -/
def DecState.code : DecState → BitVec 2
  | .awaitingCommand => 0
  | .awaitingNote => 1
  | .awaitingVelocity => 2

/-- The 3-bit code of a key's logical state (R87). -/
def KeyState.code : KeyState → BitVec 3
  | .unknown => 0
  | .awaitingDown => 1
  | .down => 2
  | .awaitingUp => 3
  | .up => 4

/-- The logical state with a 3-bit code; 5, 6 and 7 are no state (R87). -/
def KeyState.ofCode (c : BitVec 3) : Option KeyState :=
  match c.toNat with
  | 0 => some .unknown
  | 1 => some .awaitingDown
  | 2 => some .down
  | 3 => some .awaitingUp
  | 4 => some .up
  | _ => none

/-- The packed debounce byte: state in `[7:5]`, counter in `[4:0]` (R87). -/
def Key.pack (k : Key) : Byte := k.st.code ++ k.count

/-- The key a packed debounce byte holds; a byte with state code 5 to 7 holds none (R87). -/
def Key.unpack (b : Byte) : Option Key :=
  (KeyState.ofCode (b.extractLsb' 5 3)).map (fun st => ⟨st, b.extractLsb' 0 5⟩)

/-- The dirty mark as a valid bit and an index; `NONE` is valid bit clear with index 0 (spec/10_state.md R33, R86, D27). -/
def dirtyBits : Option Nat → Bool × Nat
  | none => (false, 0)
  | some d => (true, d)

/-! ## Response data (R96) -/

/-- A boolean result in bit 0. -/
def boolWord (b : Bool) : Word := if b then 1 else 0

/-- A byte result in bits 7:0. -/
def byteWord (b : Byte) : Word := b.setWidth 32

/-- ENC_SEND's accept bits `a0 | a1 << 1 | a2 << 2` (spec/41_protocol_framer.md R150). -/
def acceptWord (a0 a1 a2 : Bool) : Word := boolWord a0 ||| boolWord a1 <<< 1 ||| boolWord a2 <<< 2

/-- A colour result `(c0 << 16) | (c1 << 8) | c2` (spec/43_frame_store.md R194). -/
def Colour.toWord (c : Colour) : Word := byteWord c.c0 <<< 16 ||| byteWord c.c1 <<< 8 ||| byteWord c.c2

/-- A counter result: the count modulo `2^32` (spec/44_system.md R214). -/
def countWord (n : Nat) : Word := BitVec.ofNat 32 n

/-- `st` of a response word: 0 = OK, 1 = ILLEGAL. -/
def Status.code : Status → BitVec 2
  | .ok => 0
  | .illegal => 1

/-- The 34-bit response word `RW[33:0]`: `st` in `[33:32]`, `rdata` in `[31:0]`. -/
def Response.word (r : Response) : BitVec 34 := r.st.code ++ r.rdata

/-! ## Colour stream (R85) -/

/-- The three components in stream order `c0`, `c1`, `c2`. -/
def Colour.components (c : Colour) : List Byte := [c.c0, c.c1, c.c2]

/-! ## Pseudo-instructions (R98) -/

/-- `enc.note_on chan, note, vel` with `chan` in `0..15`. -/
def encNoteOn (chan : BitVec 4) (note vel : Byte) : Instr := .encSend (noteOnNibble ++ chan) note vel

/-- `enc.note_off chan, note, vel` with `chan` in `0..15`. -/
def encNoteOff (p : Params) (chan : BitVec 4) (note vel : Byte) : Instr := .encSend (p.noteOff ++ chan) note vel

/-- `hnd.clr name`. -/
def hndClr (sel : HndSel) : Instr := .hndSet sel false

end Sys2Proof.Machine
end

