-- ==== Sys2Proof/Machine/Flags.lean ====
section
/-! DEFINITION. BPCORE has no condition codes (spec/10_state.md R37). The conditions its rules test are here: channel empty,
full and occupancy (R25), the receive error flags (spec/40_byte_channel.md R120), index range and dirty mark
(spec/20_memory.md R65), confirmation thresholds (spec/42_debounce_scanner.md R163), and the interrupt request conditions
(spec/60_exceptions.md R233). -/

namespace Sys2Proof

/-- The number of slots of a channel (spec/00_scope.md R10). -/
def Params.size (p : Params) : Chan → Nat
  | .inbound => p.sizeIn
  | .outbound => p.sizeOut

/-- The number of usable slots, `CAP = SIZE - 1` (spec/00_scope.md R10). -/
def Params.cap (p : Params) (ch : Chan) : Nat := p.size ch - 1

/-- The index range test of FS_SET and FS_GET (R65 (i)). -/
def Params.ledInRange (p : Params) (idx : Half) : Bool := decide (idx.toNat < p.nLeds)

end Sys2Proof

namespace Sys2Proof.Machine

/-- `HAS(ch)`: the cursors differ (spec/40_byte_channel.md R116). -/
def Channel.has (c : Channel) : Bool := c.wr != c.rd

/-- `full(ch)`: one more enqueue would make the cursors equal (R25 (d)). -/
def Channel.full (size : Nat) (c : Channel) : Bool := (c.wr + 1) % size == c.rd

/-- `count(ch) = (wr - rd) mod SIZE` (R25 (b)), written without a negative number. -/
def Channel.count (size : Nat) (c : Channel) : Nat := (c.wr + (size - c.rd % size)) % size

/-- Some receive error flag is set (spec/40_byte_channel.md R120). -/
def lineError (pe fe oe : Bool) : Bool := pe || fe || oe

/-- The dirty mark raised to `idx`: the maximum, `NONE` below every index (spec/20_memory.md R65 (h)). -/
def raiseDirty (dirty : Option Nat) (idx : Nat) : Option Nat :=
  match dirty with
  | none => some idx
  | some d => if d < idx then some idx else some d

/-- A run of `n` consistent samples reaches a threshold (spec/42_debounce_scanner.md R163; R65 (d)). -/
def confirmed (threshold n : Nat) : Bool := decide (threshold ≤ n)

/-- The request of IRQ_RX: `byte_available()` (spec/60_exceptions.md R233). -/
def rxRequest (byteAvailable : Bool) : Bool := byteAvailable

/-- The request of IRQ_TX: `transmit_ready()` and `HAS(OUT)` (spec/60_exceptions.md R233). -/
def txRequest (transmitReady : Bool) (s : State) : Bool := transmitReady && s.outCh.has

/-- DELAY's loop condition on the millisecond clock: the time elapsed since `t0`, computed modulo `MS_WRAP`, is below `ms`
(spec/44_system.md R216, spec/60_exceptions.md R246). The machine has no time and draws the number of iterations instead
(log 8), so no step reads this; `clockLoop` in Safety.lean does, to compare the drawn count with the clock. -/
def delayWaits (p : Params) (t0 now ms : Nat) : Bool := decide ((now + (p.msWrap - t0 % p.msWrap)) % p.msWrap < ms)

end Sys2Proof.Machine
end

