-- ==== Sys2Proof/Machine/Ops.lean ====
section
/-! DEFINITION. The named operations over arrays, channels, output streams, the foreground's position and the environment's
inputs, and interrupt entry and return. Every meaning is written over these. -/

namespace Sys2Proof.Machine

/-! ## Arrays (spec/00_scope.md R17, spec/20_memory.md R50, R55) -/

/-- `MemRead(A, i)`; `zero` is the array's reset element, which an unlisted index reads as. -/
def Memory.read {α : Type} (zero : α) (m : Memory α) (i : Nat) : α :=
  match m with
  | [] => zero
  | (j, v) :: rest => if j = i then v else Memory.read zero rest i

/-- An element put at its place in the rising order of indices. -/
def Memory.insert {α : Type} (i : Nat) (v : α) : Memory α → Memory α
  | [] => [(i, v)]
  | (j, w) :: rest => if i < j then (i, v) :: (j, w) :: rest else (j, w) :: Memory.insert i v rest

/-- Index `i` no longer listed. -/
def Memory.erase {α : Type} (m : Memory α) (i : Nat) : Memory α := m.filter fun e => e.1 != i

/-- `MemWrite(A, i, v)`; writing the reset element removes the entry, so equal arrays are equal lists. -/
def Memory.write {α : Type} [DecidableEq α] (zero : α) (m : Memory α) (i : Nat) (v : α) : Memory α :=
  if v = zero then Memory.erase m i else Memory.insert i v (Memory.erase m i)

/-- The reset element written to every index below `n`. -/
def Memory.clear {α : Type} (n : Nat) (m : Memory α) : Memory α := m.filter fun e => decide (n ≤ e.1)

/-- The canonical form: indices strictly rising, no listed element equal to the reset element. -/
def Memory.wf {α : Type} [DecidableEq α] (zero : α) : Memory α → Bool
  | [] => true
  | (i, v) :: rest => v ≠ zero && rest.all (fun e => decide (i < e.1)) && Memory.wf zero rest

/-- Every listed index is below `n`, the array's element count. -/
def Memory.within {α : Type} (n : Nat) (m : Memory α) : Bool := m.all fun e => decide (e.1 < n)

/-! ## Channel primitives (spec/40_byte_channel.md R114 to R116) -/

/-- The byte at a slot of a channel's buffer. -/
def Channel.byteAt (c : Channel) (slot : Nat) : Byte := Memory.read 0 c.buf slot

/-- The buffered bytes, oldest first (spec/10_state.md R25 (c)). -/
def Channel.fifo (size : Nat) (c : Channel) : List Byte :=
  (List.range (c.count size)).map fun j => c.byteAt ((c.rd + j) % size)

/-- The counter a select names. -/
def Stats.get (t : Stats) : StatSel → Nat
  | .ints => t.ints
  | .bytes => t.bytes
  | .parity => t.parity
  | .framing => t.framing
  | .overrun => t.overrun
  | .overflow => t.overflow

/-- `count ch.stat.<sel>`: one added, never wrapping (spec/00_scope.md R17, spec/20_memory.md R65 (c)). -/
def Stats.bump (t : Stats) : StatSel → Stats
  | .ints => { t with ints := t.ints + 1 }
  | .bytes => { t with bytes := t.bytes + 1 }
  | .parity => { t with parity := t.parity + 1 }
  | .framing => { t with framing := t.framing + 1 }
  | .overrun => { t with overrun := t.overrun + 1 }
  | .overflow => { t with overflow := t.overflow + 1 }

/-- `count ch.stat.<sel>` on a channel. -/
def Channel.tally (c : Channel) (sel : StatSel) : Channel := { c with stat := c.stat.bump sel }

/-- `count ch.stat.<sel>` when a condition holds. -/
def Channel.tallyIf (c : Channel) (cond : Bool) (sel : StatSel) : Channel := if cond then c.tally sel else c

/-- The first half of an enqueue: the byte into the slot at `wr` (spec/20_memory.md R60, step p2 of R62). -/
def Channel.store (c : Channel) (b : Byte) : Channel := { c with buf := Memory.write 0 c.buf c.wr b }

/-- The second half of an enqueue: `wr` advanced modulo `SIZE` (R60, step p3 of R62). -/
def Channel.publishWr (size : Nat) (c : Channel) : Channel := { c with wr := (c.wr + 1) % size }

/-- The first half of a dequeue: the byte at `rd` (R60, step c2 of R62). -/
def Channel.oldest (c : Channel) : Byte := c.byteAt c.rd

/-- The second half of a dequeue: `rd` advanced modulo `SIZE` (R60, step c3 of R62). -/
def Channel.publishRd (size : Nat) (c : Channel) : Channel := { c with rd := (c.rd + 1) % size }

/-- The channel after `PUSH(ch, b)` (R114). -/
def Channel.push (size : Nat) (c : Channel) (b : Byte) : Channel :=
  if c.full size then c.tally .overflow else (c.store b).publishWr size

/-- The result of `PUSH(ch, b)`: whether the byte was enqueued (R114). -/
def Channel.accepts (size : Nat) (c : Channel) : Bool := !c.full size

/-- The channel after `POP(ch)` (R115); its result is `Channel.oldest`. -/
def Channel.pop (size : Nat) (c : Channel) : Channel := c.publishRd size

/-- Channel initialisation (R117): cursors, buffer and the six counters at their reset values. -/
def Channel.init (size : Nat) (c : Channel) : Channel := ⟨Memory.clear size c.buf, 0, 0, Stats.zero⟩

/-- A channel of the machine. -/
def State.chan (s : State) : Chan → Channel
  | .inbound => s.inCh
  | .outbound => s.outCh

/-- Replace a channel of the machine. -/
def State.setChan (s : State) (ch : Chan) (c : Channel) : State :=
  match ch with
  | .inbound => s.setIn c
  | .outbound => s.setOut c

/-- `PUSH(OUT, b)` by the foreground (R121, spec/41_protocol_framer.md R150). -/
def State.pushOut (p : Params) (s : State) (b : Byte) : State := s.setOut (s.outCh.push p.sizeOut b)

/-! ## Output streams (spec/00_scope.md R8) -/

/-- `emit` by FG: records appended to `fg_out`. -/
def State.emitFg (s : State) (rs : List FgRecord) : State := s.setStreams { s.out with fgOut := s.out.fgOut ++ rs }

/-- `emit` by IRQ_TX: `TxByte` records appended to `tx_out`. -/
def State.emitTx (s : State) (bs : List Byte) : State := s.setStreams { s.out with txOut := s.out.txOut ++ bs }

/-- `emit` by IRQ_FLUSH: `LedByte` records appended to `led_out`. -/
def State.emitLed (s : State) (bs : List Byte) : State := s.setStreams { s.out with ledOut := s.out.ledOut ++ bs }

/-- A response appended to the sequence of responses (spec/30_encoding.md R96). -/
def State.respond (s : State) (r : Response) : State :=
  s.setStreams { s.out with responses := s.out.responses ++ [r] }

/-! ## The foreground's position (spec/10_state.md R36) -/

/-- The next command starts: `fpc` advances by one and nothing of the command there has been done. -/
def State.advance (s : State) : State := s.setFg { s.fg with fpc := s.fg.fpc + 1, phase := .idle }

/-- FG stands at a place inside its command. -/
def State.setPhase (s : State) (ph : Phase) : State := s.setFg { s.fg with phase := ph }

/-- A command completes: its response is `st = OK` with `rdata`, and FG goes on to the next command. -/
def State.complete (s : State) (rdata : Word) : State := (s.respond ⟨.ok, rdata⟩).advance

/-- An illegal command word: response `st = ILLEGAL`, `rdata = 0`, nothing else changes, and FG goes on
(spec/30_encoding.md R93; log 12). -/
def State.illegalCommand (s : State) : State := (s.respond ⟨.illegal, 0⟩).advance

/-- The command word on the command port: the program's entry at `fpc`; none when the program is done (log 6). -/
def State.fetchCommand (s : State) : Option CommandWord := s.fg.prog[s.fg.fpc]?

/-- The operation a command word spells, read from its six bytes (spec/30_encoding.md R89). -/
def decodeCommandWord (w : CommandWord) : Except DecodeError Instr := decode (bytesOfWord 6 w.toNat)

/-- The operation an event word spells, read from its two bytes (spec/30_encoding.md R94). -/
def decodeEventWord (w : EventWord) : Except DecodeError Instr := decode (bytesOfWord 2 w.toNat)

/-! ## Inputs of the environment (spec/00_scope.md R7) -/

/-- The turn just taken is used up. -/
def State.setTurns (s : State) (ts : List Turn) : State := s.setEnv { s.env with turns := ts }

/-- `draw cols` (R7, spec/30_encoding.md R95): the next sample waiting, or a free value (log 9). -/
def State.colsDraw (s : State) : Word :=
  match s.env.cols with
  | c :: _ => c
  | [] => Config.freeCols s.env.draws

/-- The machine after `draw cols`. -/
def State.afterColsDraw (s : State) : State :=
  match s.env.cols with
  | _ :: rest => s.setEnv { s.env with cols := rest }
  | [] => s.setEnv { s.env with draws := s.env.draws + 1 }

/-- `draw n` of DELAY (R7, spec/44_system.md R216): the next count waiting, or a free value (log 10). -/
def State.itersDraw (s : State) : Nat :=
  match s.env.iters with
  | n :: _ => n
  | [] => Config.freeIters s.env.draws

/-- The machine after `draw n`. -/
def State.afterItersDraw (s : State) : State :=
  match s.env.iters with
  | _ :: rest => s.setEnv { s.env with iters := rest }
  | [] => s.setEnv { s.env with draws := s.env.draws + 1 }

/-! ## Interrupt entry and return (spec/60_exceptions.md R235, R236) -/

/-- Interrupt entry "saves nothing and changes no state of BPCORE" (R235). -/
def irqEntry (s : State) : State := s

/-- Interrupt return: "there is no return instruction to specify and nothing to restore" (R236). -/
def irqReturn (s : State) : State := s

/-- One event service: entry, the handler's body run to completion, return, as one atomic step (R62, R234). -/
def service (body : State → State) (s : State) : Result := .next (irqReturn (body (irqEntry s)))

/-! ## Reset input (spec/70_reset_and_hazards.md R261) -/

/-- Reset asserted: nothing of BPCORE survives, the streams start empty, and FG starts the program from its first command.
The program and the environment's inputs are not BPCORE's and stay (log 19). -/
def State.afterReset (s : State) : State :=
  { State.reset with fg := ⟨s.fg.prog, 0, .idle⟩, env := s.env }

end Sys2Proof.Machine
end

