-- ==== Sys2Proof/Machine/Channel.lean ====
section
/-! DEFINITION. The byte channel's commands and event services (spec/40_byte_channel.md R117 to R122). Each operation is
written at given parameters; `exec…` is the meaning at the machine's own. -/

namespace Sys2Proof.Machine

/-- CH_INIT at given parameters (R117): the channel's reset values in one critical section; response 0. -/
def chInit (p : Params) (ch : Chan) (s : State) : Result :=
  .next ((s.setChan ch ((s.chan ch).init (p.size ch))).complete 0)

/-- CH_INIT (R117). -/
def execChInit (ch : Chan) (s : State) : Result := chInit Config.params ch s

/-- RX_POP at given parameters (R118): the oldest inbound byte; while `IN` is empty FG holds, so the turn passes and
nothing changes (log 5). -/
def rxPop (p : Params) (s : State) : Result :=
  if s.inCh.has then .next ((s.setIn (s.inCh.pop p.sizeIn)).complete (byteWord s.inCh.oldest)) else .next s

/-- RX_POP (R118). -/
def execRxPop (s : State) : Result := rxPop Config.params s

/-- CH_HAS (R119): whether the channel holds data; writes nothing. -/
def execChHas (ch : Chan) (s : State) : Result := .next (s.complete (boolWord (s.chan ch).has))

/-- TX_PUSH at given parameters (R121): one enqueue attempt into `OUT`, never blocking, never retried. -/
def txPush (p : Params) (byte : Byte) (s : State) : Result :=
  .next ((s.pushOut p byte).complete (boolWord (s.outCh.accepts p.sizeOut)))

/-- TX_PUSH (R121). -/
def execTxPush (byte : Byte) (s : State) : Result := txPush Config.params byte s

/-- The inbound channel after the receive handler's body (R120): every set error flag counted once, a flagged byte
discarded, an unflagged byte enqueued or, when the channel is full, counted as overflow and dropped. -/
def rxChannel (size : Nat) (avail : Bool) (b : Byte) (pe fe oe : Bool) (c : Channel) : Channel :=
  let serviced := c.tally .ints
  if !avail then serviced
  else
    let flagged := ((serviced.tallyIf pe .parity).tallyIf fe .framing).tallyIf oe .overrun
    if lineError pe fe oe then flagged
    else (flagged.push size b).tallyIf (flagged.accepts size) .bytes

/-- IRQ_RX's body at given parameters (R120). -/
def rxBody (p : Params) (avail : Bool) (b : Byte) (pe fe oe : Bool) (s : State) : State :=
  s.setIn (rxChannel p.sizeIn avail b pe fe oe s.inCh)

/-- IRQ_RX (R120). -/
def execIrqRx (avail : Bool) (data : Byte) (pe fe oe : Bool) (s : State) : Result :=
  service (rxBody Config.params avail data pe fe oe) s

/-- IRQ_TX's body at given parameters (R122): at most one byte handed to the transmitter. -/
def txBody (p : Params) (s : State) : State :=
  let serviced := s.setOut (s.outCh.tally .ints)
  if serviced.outCh.has then
    (serviced.setOut ((serviced.outCh.pop p.sizeOut).tally .bytes)).emitTx [serviced.outCh.oldest]
  else serviced

/-- IRQ_TX (R122). -/
def execIrqTx (s : State) : Result := service (txBody Config.params) s

end Sys2Proof.Machine
end

