-- ==== Sys2Proof/Machine/Frame.lean ====
section
/-! DEFINITION. The actuator frame store (spec/43_frame_store.md R190 to R195). -/

namespace Sys2Proof.Machine

/-- `fs.led[i]`. -/
def FrameStore.ledAt (f : FrameStore) (i : Nat) : Colour := Memory.read Colour.zero f.led i

/-- FS_INIT at given parameters (R191): every position black and nothing pending. -/
def fsInit (p : Params) (s : State) : Result :=
  .next ((s.setFs ⟨Memory.clear p.nLeds s.fs.led, none⟩).complete 0)

/-- FS_INIT (R191). -/
def execFsInit (s : State) : Result := fsInit Config.params s

/-- The store after a colour is written to an in-range position: the write and the raising of the mark are one critical
section (R192). -/
def FrameStore.set (f : FrameStore) (idx : Nat) (c : Colour) : FrameStore :=
  ⟨Memory.write Colour.zero f.led idx c, raiseDirty f.dirty idx⟩

/-- FS_SET at given parameters (R192): an index out of range changes nothing and answers as a write does. -/
def fsSet (p : Params) (idx : Half) (c0 c1 c2 : Byte) (s : State) : Result :=
  .next ((s.setFs (if p.ledInRange idx then s.fs.set idx.toNat ⟨c0, c1, c2⟩ else s.fs)).complete 0)

/-- FS_SET (R192). -/
def execFsSet (idx : Half) (c0 c1 c2 : Byte) (s : State) : Result := fsSet Config.params idx c0 c1 c2 s

/-- FS_CLR at given parameters (R193): every position black and the mark at the last position. -/
def fsClr (p : Params) (s : State) : Result :=
  .next ((s.setFs ⟨Memory.clear p.nLeds s.fs.led, some (p.nLeds - 1)⟩).complete 0)

/-- FS_CLR (R193). -/
def execFsClr (s : State) : Result := fsClr Config.params s

/-- FS_GET at given parameters (R194): the stored colour, or the zero triple out of range (log 15). -/
def fsGet (p : Params) (idx : Half) (s : State) : Result :=
  .next (s.complete (if p.ledInRange idx then (s.fs.ledAt idx.toNat).toWord else 0))

/-- FS_GET (R194). -/
def execFsGet (idx : Half) (s : State) : Result := fsGet Config.params idx s

/-- The bytes a flush sends: the components of positions `0..=dirty` in ascending order, or none (R195). -/
def FrameStore.flushBytes (f : FrameStore) : List Byte :=
  match f.dirty with
  | none => []
  | some d => (List.range (d + 1)).flatMap fun i => (f.ledAt i).components

/-- IRQ_FLUSH's body (R195). -/
def flushBody (s : State) : State := (s.setFs { s.fs with dirty := none }).emitLed s.fs.flushBytes

/-- IRQ_FLUSH (R195). -/
def execIrqFlush (s : State) : Result := service flushBody s

end Sys2Proof.Machine
end

