-- ==== Sys2Proof/Machine/Framer.lean ====
section
/-! DEFINITION. The serial protocol framer: decoder and encoder (spec/41_protocol_framer.md R140 to R151). -/

namespace Sys2Proof.Machine

/-- `DISPATCH(cmd, n, v)`: the event's record, or none when its handler is unset (R151). -/
def noteRecords (h : Handlers) (cmd note vel : Byte) : List FgRecord :=
  if isNoteOn cmd then (if h.noteOn then [.noteOn note vel] else [])
  else (if h.noteOff then [.noteOff note vel] else [])

/-- The decoder record after `DEC_STEP(b)` (R141; rows R142 to R147). -/
def decNext (p : Params) (d : Decoder) (b : Byte) : Decoder :=
  match d.state with
  | .awaitingCommand => if isCmd p b then { d with cmd := b, state := .awaitingNote } else d
  | .awaitingNote =>
    if isData b then { d with note := b, state := .awaitingVelocity } else { d with state := .awaitingCommand }
  | .awaitingVelocity => { d with state := .awaitingCommand }

/-- The records `DEC_STEP(b)` emits: a data byte in AwaitingVelocity dispatches the event (R146), nothing else does. -/
def decRecords (h : Handlers) (d : Decoder) (b : Byte) : List FgRecord :=
  match d.state with
  | .awaitingCommand => []
  | .awaitingNote => []
  | .awaitingVelocity => if isData b then noteRecords h d.cmd d.note b else []

/-- `DEC_STEP(b)`: the state change and the event are one atomic change (R140, R146). -/
def State.decStep (p : Params) (s : State) (b : Byte) : State :=
  (s.setDec (decNext p s.dec b)).emitFg (decRecords s.hnd s.dec b)

/-- The body of a decode poll (R148): one pending byte consumed and decoded, if there is one. Its result is `IN`'s
`Channel.has`. -/
def State.decodeOne (p : Params) (s : State) : State :=
  if s.inCh.has then (s.setIn (s.inCh.pop p.sizeIn)).decStep p s.inCh.oldest else s

/-- DEC_INIT (R149): the decoder's reset values; response 0. -/
def execDecInit (s : State) : Result := .next ((s.setDec Decoder.reset).complete 0)

/-- DEC_POLL at given parameters (R148). -/
def decPoll (p : Params) (s : State) : Result := .next ((s.decodeOne p).complete (boolWord s.inCh.has))

/-- DEC_POLL (R148). -/
def execDecPoll (s : State) : Result := decPoll Config.params s

/-- ENC_SEND at given parameters (R150): three pushes, each a step of its own with its accept bit kept until the last one,
which returns the three. Note and velocity are masked to seven bits, the command byte is not (spec/30_encoding.md R83). -/
def encSend (p : Params) (cmd note vel : Byte) (s : State) : Result :=
  let ok := s.outCh.accepts p.sizeOut
  match s.fg.phase with
  | .encNote a0 => .next ((s.pushOut p (mask7 note)).setPhase (.encVel a0 ok))
  | .encVel a0 a1 => .next ((s.pushOut p (mask7 vel)).complete (acceptWord a0 a1 ok))
  | .idle => .next ((s.pushOut p cmd).setPhase (.encNote ok))
  | .delaying _ => .next ((s.pushOut p cmd).setPhase (.encNote ok))

/-- ENC_SEND (R150). -/
def execEncSend (cmd note vel : Byte) (s : State) : Result := encSend Config.params cmd note vel s

end Sys2Proof.Machine
end

