-- ==== Sys2Proof/Machine/Scanner.lean ====
section
/-! DEFINITION. The debounced matrix scanner (spec/42_debounce_scanner.md R160 to R169). -/

namespace Sys2Proof.Machine

/-- A confirmed transition of an input. -/
inductive Edge where
  | down
  | up
deriving DecidableEq, Repr

/-- `CONFIRM_DOWN(n)` (R163). -/
def confirmDown (nDown n : Nat) : Key × Option Edge :=
  if confirmed nDown n then (⟨.down, 0⟩, some .down) else (⟨.awaitingDown, BitVec.ofNat 5 n⟩, none)

/-- `CONFIRM_UP(n)` (R163). -/
def confirmUp (nUp n : Nat) : Key × Option Edge :=
  if confirmed nUp n then (⟨.up, 0⟩, some .up) else (⟨.awaitingUp, BitVec.ofNat 5 n⟩, none)

/-- The per-input debounce machine: the key after one sample (`true` = down) and the transition it confirms
(the table of R163; rows R164 to R168; log 17). -/
def keyNext (nDown nUp : Nat) (k : Key) (sample : Bool) : Key × Option Edge :=
  match k.st, sample with
  | .unknown, true => (⟨.down, 0⟩, none)
  | .unknown, false => (⟨.up, 0⟩, none)
  | .up, false => (⟨.up, 0⟩, none)
  | .up, true => confirmDown nDown 1
  | .awaitingDown, true => confirmDown nDown (k.count.toNat + 1)
  | .awaitingDown, false => (⟨.up, 0⟩, none)
  | .down, true => (⟨.down, 0⟩, none)
  | .down, false => confirmUp nUp 1
  | .awaitingUp, false => confirmUp nUp (k.count.toNat + 1)
  | .awaitingUp, true => (⟨.awaitingUp, 0⟩, none)

/-- The record of a confirmed transition of input `i`, or none when its handler is unset (R169). -/
def edgeRecords (h : Handlers) (i : Nat) : Option Edge → List FgRecord
  | none => []
  | some .down => if h.keyDown then [.keyDown i] else []
  | some .up => if h.keyUp then [.keyUp i] else []

/-- `scan.key[i]`. -/
def Scanner.keyAt (k : Scanner) (i : Nat) : Key := Memory.read Key.zero k.key i

/-- `KEY_UPDATE(i, sample)` (R163): reads and writes `scan.key[i]` only, and emits at most one event. -/
def State.keyUpdate (p : Params) (s : State) (i : Nat) (sample : Bool) : State :=
  let r := keyNext p.nDown p.nUp (s.scan.keyAt i) sample
  (s.setScan { s.scan with key := Memory.write Key.zero s.scan.key i r.1 }).emitFg (edgeRecords s.hnd i r.2)

/-- The columns of row `row` in ascending order, each advancing its input by its sample bit (R162). -/
def State.updateRow (p : Params) (s : State) (row : Nat) (cols : Word) : State :=
  (List.range p.cols).foldl (fun t c => t.keyUpdate p (flatIndex p row c) (sampleBit cols c)) s

/-- The select line of row `row` driven and recorded (R161, R162). -/
def State.selectRow (s : State) (row : Nat) : State :=
  (s.setScan { s.scan with row := row }).emitFg [.rowSelect row]

/-- SCAN_INIT at given parameters (R161). -/
def scanInit (p : Params) (s : State) : Result :=
  .next (((s.setScan { s.scan with key := Memory.clear p.keys s.scan.key }).selectRow 0).complete 0)

/-- SCAN_INIT (R161). -/
def execScanInit (s : State) : Result := scanInit Config.params s

/-- One scan tick with the column sample `cols` (R162): the bits belong to the row selected on entry, the next row is
selected, then the inputs of the row selected on entry are updated. -/
def State.tick (p : Params) (s : State) (cols : Word) : State :=
  (s.selectRow ((s.scan.row + 1) % p.rows)).updateRow p s.scan.row cols

/-- SCAN_TICK at given parameters (R162): the sample is drawn from the environment. -/
def scanTick (p : Params) (s : State) : Result := .next ((s.afterColsDraw.tick p s.colsDraw).complete 0)

/-- SCAN_TICK (R162). -/
def execScanTick (s : State) : Result := scanTick Config.params s

end Sys2Proof.Machine
end

