-- ==== Sys2Proof/Machine/System.lean ====
section
/-! DEFINITION. System operations: handler registration, reading a counter, and the polling delay
(spec/44_system.md R212, R214, R216). -/

namespace Sys2Proof.Machine

/-- The handler bits with one of them written (R212). -/
def Handlers.set (h : Handlers) (sel : HndSel) (en : Bool) : Handlers :=
  match sel with
  | .noteOn => { h with noteOn := en }
  | .noteOff => { h with noteOff := en }
  | .keyDown => { h with keyDown := en }
  | .keyUp => { h with keyUp := en }

/-- HND_SET (R212). -/
def execHndSet (sel : HndSel) (en : Bool) (s : State) : Result := .next ((s.setHnd (s.hnd.set sel en)).complete 0)

/-- STAT_RD (R214): the counter modulo `2^32`; writes nothing. -/
def execStatRd (ch : Chan) (sel : StatSel) (s : State) : Result :=
  .next (s.complete (countWord ((s.chan ch).stat.get sel)))

/-- One iteration of a delay: a decode poll whose result is ignored, or nothing (R216). -/
def State.delayBody (p : Params) (s : State) (poll : Bool) : State := if poll then s.decodeOne p else s

/-- A delay with `left` iterations to go takes one of them, and completes with the last (R216; log 8). -/
def State.delayStep (p : Params) (s : State) (poll : Bool) (left : Nat) : State :=
  match left with
  | 0 => s.complete 0
  | 1 => (s.delayBody p poll).complete 0
  | n + 2 => (s.delayBody p poll).setPhase (.delaying (n + 1))

/-- DELAY at given parameters (R216): on its first step the number of iterations is drawn; the machine has no time, so
`ms` has no effect. -/
def delay (p : Params) (_ms : Half) (poll : Bool) (s : State) : Result :=
  match s.fg.phase with
  | .delaying left => .next (s.delayStep p poll left)
  | .idle => .next (s.afterItersDraw.delayStep p poll s.itersDraw)
  | .encNote _ => .next (s.afterItersDraw.delayStep p poll s.itersDraw)
  | .encVel _ _ => .next (s.afterItersDraw.delayStep p poll s.itersDraw)

/-- DELAY (R216). -/
def execDelay (ms : Half) (p : Bool) (s : State) : Result := delay Config.params ms p s

end Sys2Proof.Machine
end

