-- ==== Sys2Proof/Machine/Dispatch.lean ====
section
/-! DEFINITION. The meaning of every operation, one arm for each constructor of Instr. -/

namespace Sys2Proof.Machine

def exec (i : Instr) (s : State) : Host.Outcome State Fault Refusal :=
  match i with
  | .chInit ch => Sys2Proof.Machine.execChInit ch s
  | .rxPop => Sys2Proof.Machine.execRxPop s
  | .chHas ch => Sys2Proof.Machine.execChHas ch s
  | .txPush byte => Sys2Proof.Machine.execTxPush byte s
  | .statRd ch sel => Sys2Proof.Machine.execStatRd ch sel s
  | .decInit => Sys2Proof.Machine.execDecInit s
  | .decPoll => Sys2Proof.Machine.execDecPoll s
  | .encSend cmd note vel => Sys2Proof.Machine.execEncSend cmd note vel s
  | .hndSet sel en => Sys2Proof.Machine.execHndSet sel en s
  | .scanInit => Sys2Proof.Machine.execScanInit s
  | .scanTick => Sys2Proof.Machine.execScanTick s
  | .fsInit => Sys2Proof.Machine.execFsInit s
  | .fsSet idx c0 c1 c2 => Sys2Proof.Machine.execFsSet idx c0 c1 c2 s
  | .fsClr => Sys2Proof.Machine.execFsClr s
  | .fsGet idx => Sys2Proof.Machine.execFsGet idx s
  | .delay ms p => Sys2Proof.Machine.execDelay ms p s
  | .irqFlush => Sys2Proof.Machine.execIrqFlush s
  | .irqRx avail data pe fe oe => Sys2Proof.Machine.execIrqRx avail data pe fe oe s
  | .irqTx => Sys2Proof.Machine.execIrqTx s

end Sys2Proof.Machine
end

