-- ==== Sys2Proof/Machine/Step.lean ====
section
/-! DEFINITION. One step of the machine (spec/00_scope.md R6): the environment's schedule says whose turn it is, and that
agent makes one atomic step. With no turn listed it is FG's (log 4). -/

namespace Sys2Proof.Machine

/-- FG's turn: the command on the command port runs; a word that spells none answers ILLEGAL (spec/30_encoding.md R93);
with no command there FG idles (log 6). -/
def stepFg (s : State) : Result :=
  match s.fetchCommand with
  | none => .next s
  | some w =>
    match decodeCommandWord w with
    | .ok i => exec i s
    | .error _ => .next s.illegalCommand

/-- The turn `t` of the environment's schedule. An event word that spells no event is dropped
(spec/92_eei_decisions.md D5). -/
def stepTurn (t : Turn) (s : State) : Result :=
  match t with
  | .fg => stepFg s
  | .event w =>
    match decodeEventWord w with
    | .ok i => exec i s
    | .error _ => .next s
  | .spuriousRx => exec (.irqRx false 0 false false false) s
  | .reset => .next s.afterReset

/-- One step. -/
def step (s : State) : Host.Outcome State Fault Refusal :=
  match s.env.turns with
  | [] => stepFg s
  | t :: ts => stepTurn t (s.setTurns ts)

/-- The operation of `nbits` bits whose word is `w` placed where the next step takes it: an event word as the next turn of
the schedule, a command word at the program's next place with FG's turn next (log 3). -/
def State.withFetchWord (s : State) (nbits w : Nat) : State :=
  if nbits = 16 then s.setTurns (.event (BitVec.ofNat 16 w) :: s.env.turns)
  else
    (s.setFg
      { s.fg with
        prog := (s.fg.prog.take s.fg.fpc ++ List.replicate (s.fg.fpc - s.fg.prog.length) 0) ++
          BitVec.ofNat 48 w :: s.fg.prog.drop (s.fg.fpc + 1)
        phase := .idle }).setTurns (.fg :: s.env.turns)

end Sys2Proof.Machine
end

