-- ==== Sys2Proof/Machine/Assembler.lean ====
section
/-! DEFINITION. The assembler syntax (spec/30_encoding.md R97) and its pseudo-instructions (R98): one command or event a
line, lower-case dotted mnemonics, operands separated by commas, decimal, `0x` or `0b` numbers, `#` for a comment. The
syntax is the spec's own notation for programs and stimuli; no step reads it. -/

namespace Sys2Proof.Machine

/-- Why a line spells nothing. -/
inductive AsmError where
  | unknownMnemonic
  | badOperands
deriving DecidableEq, Repr

/-- What a line spells: an operation and, for `scan.tick`, the column input written beside it (R95). -/
structure AsmLine where
  instr : Instr
  cols : Option Word
deriving DecidableEq, Repr

/-- A character that separates words. -/
def isBlank (c : Char) : Bool := c == ' ' || c == '\t'

/-- White space taken off both ends. -/
def trimBlank (cs : List Char) : List Char := ((cs.dropWhile isBlank).reverse.dropWhile isBlank).reverse

/-- A list cut at every comma. -/
def cutAtCommas : List Char → List (List Char)
  | [] => [[]]
  | c :: cs =>
    match cutAtCommas cs with
    | [] => [[c]]
    | piece :: pieces => if c == ',' then [] :: piece :: pieces else (c :: piece) :: pieces

/-- The value of a digit in a base up to 16. -/
def digitValue (base : Nat) (c : Char) : Option Nat :=
  let v := if '0' ≤ c ∧ c ≤ '9' then c.toNat - 48 else if 'a' ≤ c ∧ c ≤ 'f' then c.toNat - 87
    else if 'A' ≤ c ∧ c ≤ 'F' then c.toNat - 55 else 16
  if v < base then some v else none

/-- The value of a run of digits after the value read so far. -/
def digitsValue (base : Nat) : Nat → List Char → Option Nat
  | acc, [] => some acc
  | acc, c :: cs => (digitValue base c).bind fun v => digitsValue base (acc * base + v) cs

/-- A number: decimal, `0x` hexadecimal or `0b` binary. -/
def parseNumber : List Char → Option Nat
  | [] => none
  | '0' :: 'x' :: c :: cs => digitsValue 16 0 (c :: cs)
  | '0' :: 'b' :: c :: cs => digitsValue 2 0 (c :: cs)
  | cs => digitsValue 10 0 cs

/-- A number that fits in `w` bits. -/
def parseBits (w : Nat) (cs : List Char) : Option (BitVec w) :=
  (parseNumber cs).bind fun n => if n < 2 ^ w then some (BitVec.ofNat w n) else none

/-- A channel name. -/
def parseChan (cs : List Char) : Option Chan :=
  if cs = "in".toList then some .inbound else if cs = "out".toList then some .outbound else none

/-- A counter name. -/
def parseStat (cs : List Char) : Option StatSel :=
  if cs = "ints".toList then some .ints
  else if cs = "bytes".toList then some .bytes
  else if cs = "parity".toList then some .parity
  else if cs = "framing".toList then some .framing
  else if cs = "overrun".toList then some .overrun
  else if cs = "overflow".toList then some .overflow
  else none

/-- A handler name. -/
def parseHandler (cs : List Char) : Option HndSel :=
  if cs = "note_on".toList then some .noteOn
  else if cs = "note_off".toList then some .noteOff
  else if cs = "key_down".toList then some .keyDown
  else if cs = "key_up".toList then some .keyUp
  else none

/-- `0` or `1`. -/
def parseFlag (cs : List Char) : Option Bool := (parseBits 1 cs).map fun b => b.getLsbD 0

/-- The receive flags of an event line: one or more of `p`, `f`, `o`. -/
def parseLineFlags (cs : List Char) : Option (Bool × Bool × Bool) :=
  if cs ≠ [] ∧ cs.all (fun c => c == 'p' || c == 'f' || c == 'o') = true then
    some (cs.contains 'p', cs.contains 'f', cs.contains 'o')
  else none

/-- The column input written beside a scan tick: `cols=` and a mask, between braces (characters 123 and 125). -/
def parseCols (cs : List Char) : Option Word :=
  let opening := Char.ofNat 123 :: "cols=".toList
  if opening.isPrefixOf cs ∧ cs.getLast? = some (Char.ofNat 125) then
    parseBits 32 (trimBlank (cs.drop opening.length).dropLast)
  else none

/-- A line's operands, cut at commas and trimmed; an empty rest has none. -/
def operandsOf (rest : List Char) : List (List Char) :=
  if rest = [] then [] else (cutAtCommas rest).map trimBlank

/-- Operands that spell an operation, or the error `badOperands`. -/
def asmOperation (i : Option Instr) : Except AsmError (Option AsmLine) :=
  match i with
  | some i => .ok (some ⟨i, none⟩)
  | none => .error .badOperands

/-- An operation without operands. -/
def asmNullary (i : Instr) (args : List (List Char)) : Option Instr := if args = [] then some i else none

/-- An operation of one operand. -/
def asmUnary {α : Type} (mk : α → Instr) (f : List Char → Option α) (args : List (List Char)) : Option Instr :=
  match args with
  | [a] => (f a).map mk
  | _ => none

/-- An operation of two operands. -/
def asmBinary {α β : Type} (mk : α → β → Instr) (f : List Char → Option α) (g : List Char → Option β)
    (args : List (List Char)) : Option Instr :=
  match args with
  | [a, b] => (f a).bind fun x => (g b).map (mk x)
  | _ => none

/-- An operation of one operand and two bytes. -/
def asmBytes2 {α : Type} (mk : α → Byte → Byte → Instr) (f : List Char → Option α) (args : List (List Char)) :
    Option Instr :=
  match args with
  | [a, b, c] => (f a).bind fun x => asmBinary (mk x) (parseBits 8) (parseBits 8) [b, c]
  | _ => none

/-- An operation of an index and three bytes. -/
def asmBytes3 (mk : Half → Byte → Byte → Byte → Instr) (args : List (List Char)) : Option Instr :=
  match args with
  | a :: rest => (parseBits 16 a).bind fun x => asmBytes2 (mk x) (parseBits 8) rest
  | _ => none

/-- The receive event: a byte, and flags if there are any. -/
def asmReceive (args : List (List Char)) : Option Instr :=
  match args with
  | [a] => (parseBits 8 a).map fun b => .irqRx true b false false false
  | [a, fl] => (parseBits 8 a).bind fun b => (parseLineFlags fl).map fun x => .irqRx true b x.1 x.2.1 x.2.2
  | _ => none

/-- `scan.tick`, with or without its column input (R95, R97). -/
def asmScanTick (rest : List Char) : Except AsmError (Option AsmLine) :=
  if rest = [] then .ok (some ⟨.scanTick, none⟩)
  else
    match parseCols rest with
    | some m => .ok (some ⟨.scanTick, some m⟩)
    | none => .error .badOperands

/-- One line of assembler text as characters (R97, R98); a line with nothing before its comment spells nothing. -/
def assembleChars (p : Params) (line : List Char) : Except AsmError (Option AsmLine) :=
  let text := trimBlank (line.takeWhile (· != '#'))
  let name := text.takeWhile fun c => !isBlank c
  let rest := trimBlank (text.dropWhile fun c => !isBlank c)
  let args := operandsOf rest
  if name = [] then .ok none
  else if name = "ch.init".toList then asmOperation (asmUnary .chInit parseChan args)
  else if name = "rx.pop".toList then asmOperation (asmNullary .rxPop args)
  else if name = "ch.has".toList then asmOperation (asmUnary .chHas parseChan args)
  else if name = "tx.push".toList then asmOperation (asmUnary .txPush (parseBits 8) args)
  else if name = "stat.rd".toList then asmOperation (asmBinary .statRd parseChan parseStat args)
  else if name = "dec.init".toList then asmOperation (asmNullary .decInit args)
  else if name = "dec.poll".toList then asmOperation (asmNullary .decPoll args)
  else if name = "enc.send".toList then asmOperation (asmBytes2 .encSend (parseBits 8) args)
  else if name = "enc.note_on".toList then asmOperation (asmBytes2 encNoteOn (parseBits 4) args)
  else if name = "enc.note_off".toList then asmOperation (asmBytes2 (encNoteOff p) (parseBits 4) args)
  else if name = "hnd.set".toList then asmOperation (asmBinary .hndSet parseHandler parseFlag args)
  else if name = "hnd.clr".toList then asmOperation (asmUnary hndClr parseHandler args)
  else if name = "scan.init".toList then asmOperation (asmNullary .scanInit args)
  else if name = "scan.tick".toList then asmScanTick rest
  else if name = "fs.init".toList then asmOperation (asmNullary .fsInit args)
  else if name = "fs.set".toList then asmOperation (asmBytes3 .fsSet args)
  else if name = "fs.clr".toList then asmOperation (asmNullary .fsClr args)
  else if name = "fs.get".toList then asmOperation (asmUnary .fsGet (parseBits 16) args)
  else if name = "delay".toList then asmOperation (asmBinary .delay (parseBits 16) parseFlag args)
  else if name = "!flush".toList then asmOperation (asmNullary .irqFlush args)
  else if name = "!rx".toList then asmOperation (asmReceive args)
  else if name = "!tx".toList then asmOperation (asmNullary .irqTx args)
  else .error .unknownMnemonic

/-- One line of assembler text (R97, R98). -/
def assemble (p : Params) (line : String) : Except AsmError (Option AsmLine) := assembleChars p line.toList

end Sys2Proof.Machine
end

