-- ==== Sys2Proof/Safety.lean ====
section
/-! DEFINITION. The terms claims about BPCORE are stated in: what a step may leave unchanged, the invariant of R25, R34, R170
and the ranges of the registers, when a run is complete or stuck (R276), and reference descriptions that the operations are
compared with (a bounded queue, a message grammar, the debounce tables of R171, the strip behind the frame store). -/

namespace Sys2Proof.Machine

/-! ## Frames -/

/-- The parts of the machine an operation may write. -/
inductive Part where
  | inCh
  | outCh
  | dec
  | hnd
  | scan
  | fs
  | fgOut
  | txOut
  | ledOut
  | responses
  | fg
  | env
deriving DecidableEq, Repr

/-- A part has the same value in two states. -/
def Part.Same (q : Part) (s t : State) : Prop :=
  match q with
  | .inCh => t.inCh = s.inCh
  | .outCh => t.outCh = s.outCh
  | .dec => t.dec = s.dec
  | .hnd => t.hnd = s.hnd
  | .scan => t.scan = s.scan
  | .fs => t.fs = s.fs
  | .fgOut => t.out.fgOut = s.out.fgOut
  | .txOut => t.out.txOut = s.out.txOut
  | .ledOut => t.out.ledOut = s.out.ledOut
  | .responses => t.out.responses = s.out.responses
  | .fg => t.fg = s.fg
  | .env => t.env = s.env

/-- Every part outside the list is unchanged. -/
def UnchangedBut (parts : List Part) (s t : State) : Prop := ∀ q, q ∉ parts → q.Same s t

/-- The part that holds a channel. -/
def chanPart : Chan → Part
  | .inbound => .inCh
  | .outbound => .outCh

/-- A command has completed: one response `st = OK` with `rdata`, `fpc` advanced by one, the program as it was. -/
def Completed (s t : State) (rdata : Word) : Prop :=
  t.out.responses = s.out.responses ++ [⟨.ok, rdata⟩] ∧
    t.fg.prog = s.fg.prog ∧ t.fg.fpc = s.fg.fpc + 1 ∧ t.fg.phase = .idle

/-! ## The invariant -/

/-- A channel's cursors are `K`-bit values and its buffer has `SIZE` slots (R21 to R23). -/
structure Channel.InRange (size : Nat) (c : Channel) : Prop where
  wr_lt : c.wr < size
  rd_lt : c.rd < size
  buf_wf : Memory.wf 0 c.buf = true
  buf_within : Memory.within size c.buf = true

/-- The reachable values of a key; with a threshold of 1 the awaiting state of its direction never occurs
(spec/42_debounce_scanner.md R170). -/
def Key.Reachable (nDown nUp : Nat) (k : Key) : Prop :=
  match k.st with
  | .unknown => k.count = 0
  | .up => k.count = 0
  | .down => k.count = 0
  | .awaitingDown => 1 ≤ k.count.toNat ∧ k.count.toNat + 1 ≤ nDown
  | .awaitingUp => 2 ≤ nUp ∧ k.count.toNat + 1 ≤ nUp

/-- What the latched bytes are while the decoder uses them (spec/10_state.md R27, spec/41_protocol_framer.md R151). -/
def Decoder.Consistent (p : Params) (d : Decoder) : Prop :=
  match d.state with
  | .awaitingCommand => True
  | .awaitingNote => isCmd p d.cmd = true
  | .awaitingVelocity => isCmd p d.cmd = true ∧ isData d.note = true

/-- A foreground record's payload is in its range (spec/30_encoding.md R84, R88). -/
def FgRecord.Legal (p : Params) : FgRecord → Prop
  | .rowSelect r => r < p.rows
  | .noteOn n v => isData n = true ∧ isData v = true
  | .noteOff n v => isData n = true ∧ isData v = true
  | .keyDown i => i < p.keys
  | .keyUp i => i < p.keys

/-- The invariant of reachable states at given parameters. -/
structure State.Inv (p : Params) (s : State) : Prop where
  /-- R21 to R23, R25. -/
  inCh : s.inCh.InRange p.sizeIn
  outCh : s.outCh.InRange p.sizeOut
  /-- R24: no rule counts a line error on `OUT`. -/
  outLineErrors : s.outCh.stat.parity = 0 ∧ s.outCh.stat.framing = 0 ∧ s.outCh.stat.overrun = 0
  /-- R27. -/
  dec : s.dec.Consistent p
  /-- R29. -/
  row : s.scan.row < p.rows
  /-- R30. -/
  keys_wf : Memory.wf Key.zero s.scan.key = true
  keys_within : Memory.within p.keys s.scan.key = true
  /-- R170. -/
  keys_reachable : ∀ i, (s.scan.keyAt i).Reachable p.nDown p.nUp
  /-- R32. -/
  led_wf : Memory.wf Colour.zero s.fs.led = true
  led_within : Memory.within p.nLeds s.fs.led = true
  /-- R33. -/
  dirty : ∀ d, s.fs.dirty = some d → d < p.nLeds
  /-- R84. -/
  records : ∀ r ∈ s.out.fgOut, r.Legal p

/-! ## The end of a run (spec/70_reset_and_hazards.md R276) -/

/-- FG has completed its last command and every listed event has been serviced. -/
def State.Complete (s : State) : Prop := s.env.turns = [] ∧ s.fg.prog.length ≤ s.fg.fpc

/-- FG is held in RX_POP: that is its command and `IN` is empty (spec/40_byte_channel.md R118). -/
def State.HeldInPop (s : State) : Prop :=
  (∃ w, s.fetchCommand = some w ∧ decodeCommandWord w = .ok .rxPop) ∧ s.inCh.has = false

/-- FG is held in RX_POP with no event left to come. -/
def State.Stuck (s : State) : Prop := s.env.turns = [] ∧ s.HeldInPop

/-- FG is next to move: the schedule is empty or starts with FG's turn. The second state is the one FG moves in. -/
def State.FgMovesIn (s t : State) : Prop :=
  (s.env.turns = [] ∧ t = s) ∨ ∃ ts, s.env.turns = .fg :: ts ∧ t = s.setTurns ts

/-! ## A bounded queue, for the channel (spec/40_byte_channel.md R111, R123) -/

/-- An operation on a channel. -/
inductive ChanOp where
  | push (b : Byte)
  | pop
deriving DecidableEq, Repr

/-- Its result: whether a push was accepted, or the byte a pop returned (none when the channel is empty). -/
inductive ChanResult where
  | pushed (ok : Bool)
  | popped (b : Option Byte)
deriving DecidableEq, Repr

/-- One operation on the ring of R114 and R115, each POP guarded by `HAS`. -/
def ringStep (size : Nat) (c : Channel) : ChanOp → Channel × ChanResult
  | .push b => (c.push size b, .pushed (c.accepts size))
  | .pop => if c.has then (c.pop size, .popped (some c.oldest)) else (c, .popped none)

/-- One operation on a queue that holds at most `cap` bytes. -/
def queueStep (cap : Nat) (q : List Byte) : ChanOp → List Byte × ChanResult
  | .push b => if q.length < cap then (q ++ [b], .pushed true) else (q, .pushed false)
  | .pop =>
    match q with
    | [] => ([], .popped none)
    | b :: rest => (rest, .popped (some b))

/-- A sequence of operations, with the results in order. -/
def runOps {σ : Type} (f : σ → ChanOp → σ × ChanResult) : σ → List ChanOp → σ × List ChanResult
  | x, [] => (x, [])
  | x, op :: ops => ((runOps f (f x op).1 ops).1, (f x op).2 :: (runOps f (f x op).1 ops).2)

/-- How many pushes were refused. -/
def refusals (rs : List ChanResult) : Nat := rs.count (.pushed false)

/-! ## The message grammar, for the decoder (spec/41_protocol_framer.md R152) -/

/-- The decoder fed a sequence of bytes: its record afterwards and the records it emitted. -/
def feedBytes (p : Params) (h : Handlers) : Decoder → List Byte → Decoder × List FgRecord
  | d, [] => (d, [])
  | d, b :: bs =>
    ((feedBytes p h (decNext p d b) bs).1, decRecords h d b ++ (feedBytes p h (decNext p d b) bs).2)

/-- The events in a byte stream read from a message boundary: command, data, data is an event; a byte that is no command
is skipped; a status byte after a command is swallowed with the message it breaks (R142 to R147, without a state). -/
def parseMessages (p : Params) (h : Handlers) : List Byte → List FgRecord
  | [] => []
  | c :: rest =>
    if isCmd p c then
      match rest with
      | [] => []
      | n :: rest =>
        if isData n then
          match rest with
          | [] => []
          | v :: rest => (if isData v then noteRecords h c n v else []) ++ parseMessages p h rest
        else parseMessages p h rest
    else parseMessages p h rest

/-! ## Debounce runs (spec/42_debounce_scanner.md R171, R172) -/

/-- A per-input machine fed a sequence of samples: the key afterwards and the transitions confirmed, in order. -/
def feedSamples (f : Key → Bool → Key × Option Edge) : Key → List Bool → Key × List Edge
  | k, [] => (k, [])
  | k, x :: xs => ((feedSamples f (f k x).1 xs).1, (f k x).2.toList ++ (feedSamples f (f k x).1 xs).2)

/-- The tables R171 compares: in AwaitingDown on an up sample restart the count (`restartDown`) or flip back; in AwaitingUp
on a down sample flip back (`flipUp`) or restart the count. -/
def keyNextOpen (restartDown flipUp : Bool) (nDown nUp : Nat) (k : Key) (sample : Bool) : Key × Option Edge :=
  match k.st, sample with
  | .awaitingDown, false => (if restartDown then ⟨.awaitingDown, 0⟩ else ⟨.up, 0⟩, none)
  | .awaitingUp, true => (if flipUp then ⟨.down, 0⟩ else ⟨.awaitingUp, 0⟩, none)
  | _, _ => keyNext nDown nUp k sample

/-- The logical level of a key, `true` = down; none before its first sample (R171). -/
def Key.level (k : Key) : Option Bool :=
  match k.st with
  | .unknown => none
  | .up => some false
  | .awaitingDown => some false
  | .down => some true
  | .awaitingUp => some true

/-- The run length of a key: the number of most recent samples that disagree with its level (R171). -/
def Key.runLength (k : Key) : Nat :=
  match k.st with
  | .awaitingDown => k.count.toNat
  | .awaitingUp => k.count.toNat
  | _ => 0

/-- No two neighbours are equal. -/
def Alternating : List Edge → Prop
  | [] => True
  | [_] => True
  | a :: b :: rest => a ≠ b ∧ Alternating (b :: rest)

/-! ## The delay's loop on the clock (spec/44_system.md R216, spec/60_exceptions.md R246) -/

/-- The state after one DEC_POLL whose result is ignored. -/
def polled (s : State) : State :=
  match exec .decPoll s with
  | .next t => t
  | _ => s

/-- R216's loop on the clock's readings after `t0`, one a pass: the state it leaves and the passes it made. -/
def clockLoop (p : Params) (poll : Bool) (t0 ms : Nat) : List Nat → State → State × Nat
  | [], s => (s, 0)
  | now :: rest, s =>
    if delayWaits p t0 now ms then
      let r := clockLoop p poll t0 ms rest (if poll then polled s else s)
      (r.1, r.2 + 1)
    else (s, 0)

/-! ## Frame store histories (spec/43_frame_store.md R196) -/

/-- A mutation of the frame store. -/
inductive FrameOp where
  | set (idx : Half) (c : Colour)
  | clr
deriving DecidableEq, Repr

/-- The command that makes a mutation. -/
def FrameOp.instr : FrameOp → Instr
  | .set idx c => .fsSet idx c.c0 c.c1 c.c2
  | .clr => .fsClr

/-- Position `i` is mutated by an operation (R196). -/
def FrameOp.Touches (p : Params) (i : Nat) : FrameOp → Prop
  | .set idx _ => idx.toNat = i ∧ i < p.nLeds
  | .clr => i < p.nLeds

/-- Operations executed one after another, each one giving a next state. -/
inductive Executes : State → List Instr → State → Prop where
  | done (s : State) : Executes s [] s
  | next {s t u : State} {i : Instr} {is : List Instr} (h : exec i s = .next t) (rest : Executes t is u) :
    Executes s (i :: is) u

/-- The colours on the strip after a flush of a byte stream: three bytes a position from position 0 on, positions beyond
the stream keeping theirs (spec/43_frame_store.md R190, spec/30_encoding.md R85). -/
def stripAfter (strip : Nat → Colour) (bytes : List Byte) (i : Nat) : Colour :=
  if 3 * i + 2 < bytes.length then ⟨bytes.getD (3 * i) 0, bytes.getD (3 * i + 1) 0, bytes.getD (3 * i + 2) 0⟩
  else strip i

/-- The strip and the store agree at every position above the dirty mark, at all of them when the mark is NONE
(spec/10_state.md R34 (b), R196). -/
def StripAgrees (p : Params) (strip : Nat → Colour) (f : FrameStore) : Prop :=
  ∀ i, i < p.nLeds → (∀ d, f.dirty = some d → d < i) → strip i = f.ledAt i

end Sys2Proof.Machine
end

