-- ==== Sys2Proof/Certificates/Slice0/Obligations.lean ====
section
/-! DEFINITION. The statements for the provers. `Config.params` stands for every legal choice of the parameters. -/

open Sys2Proof Sys2Proof.Machine

/-! ## Encoding -/

/-- Decoding the encoding of a well-formed operation gives it back, with every operand at every value, on bytes and on the
words the opcode table numbers (R89 to R94). -/
def Obligations.DecodeInvertsEncode : Prop :=
  ∀ i : Instr, i.wellFormed = true →
    decode (encode i) = .ok i ∧ decodeTableWord (encodeBits i) (encodeWord i) = some i

/-- Every byte string that spells an operation is the encoding of that operation, which is well-formed: no two byte strings
spell the same one and no reserved bit is ignored (R90, R93, R94). -/
def Obligations.EncodeInvertsDecode : Prop :=
  ∀ (bs : List Byte) (i : Instr), decode bs = .ok i → i.wellFormed = true ∧ encode i = bs

/-- A word spells an operation of a row exactly when `w & mask = match` for that row, but for STAT_RD with select 6 or 7
(R91, R93, R94). -/
def Obligations.WordsSelectedByMatchAndMask : Prop :=
  (∀ (w : CommandWord) (i : Instr), i.isCommand = true →
    ((∃ j, decodeCommandWord w = .ok j ∧ j.row = i.row) ↔
      w &&& BitVec.ofNat 48 i.row.mask = BitVec.ofNat 48 i.row.pattern ∧
        (i.row.pattern = 0x050000000000 → (w.extractLsb' 16 3).toNat < 6))) ∧
  ∀ (w : EventWord) (i : Instr), i.isCommand = false →
    ((∃ j, decodeEventWord w = .ok j ∧ j.row = i.row) ↔
      w &&& BitVec.ofNat 16 i.row.mask = BitVec.ofNat 16 i.row.pattern)

/-- The worked encodings of R99: each line of assembler text spells an operation whose word is the one printed, and that
word decodes to it. -/
def Obligations.WorkedEncodings : Prop :=
  ∀ x ∈ ([("fs.set 2, 1, 2, 3", 48, 0x310002010203), ("fs.get 2", 48, 0x330002000000), ("fs.clr", 48, 0x320000000000),
      ("tx.push 0x90", 48, 0x040000900000), ("enc.send 0x90, 0x3C, 0x64", 48, 0x120000903C64),
      ("ch.has out", 48, 0x030001000000), ("stat.rd in, overflow", 48, 0x050000050000),
      ("hnd.set key_down, 1", 48, 0x130002010000), ("delay 250, 1", 48, 0x4000FA010000), ("!rx 0x3C", 16, 0x403C),
      ("!rx 0x3C, pf", 16, 0x433C), ("!tx", 16, 0x8000), ("!flush", 16, 0x0000)] : List (String × Nat × Nat)),
    ∃ i, assemble Config.params x.1 = .ok (some ⟨i, none⟩) ∧ encodeBits i = x.2.1 ∧ encodeWord i = x.2.2 ∧
      decodeTableWord x.2.1 x.2.2 = some i

/-- Illegal words (R93): each answers ILLEGAL with `rdata = 0`, changes nothing else, and FG goes on with the next command.
That the word's turn is a step of the machine at all is the model's choice (log 12). -/
def Obligations.IllegalCommandAnswersIllegal : Prop :=
  ∀ (s u : State) (w : CommandWord) (e : DecodeError), s.FgMovesIn u → u.fetchCommand = some w →
    decodeCommandWord w = .error e →
    ∃ t, step s = .next t ∧ t.out.responses = u.out.responses ++ [⟨.illegal, 0⟩] ∧
      t.fg = { u.fg with fpc := u.fg.fpc + 1, phase := .idle } ∧ UnchangedBut [.responses, .fg] u t

/-- Illegal event words (R94): the turn of a word that spells no event is used up and nothing else changes. That there is
such a turn is the model's choice (log 12). -/
def Obligations.IllegalEventWordIsDropped : Prop :=
  ∀ (s : State) (w : EventWord) (ts : List Turn) (e : DecodeError), s.env.turns = .event w :: ts →
    decodeEventWord w = .error e →
    ∃ t, step s = .next t ∧ t.env = { s.env with turns := ts } ∧ UnchangedBut [.env] s t

/-! ## The step -/

/-- A step runs the decoded operation. FG's turn runs what the command word at `fpc` spells; an event's turn runs the service
its event word spells; the spurious service, which has no event word, is a turn of its own. The turn is used up and nothing
else is done around the operation. That a list of turns in State says who moves, and where the program stands, is the
model's choice (logs 3, 4, 21). -/
def Obligations.StepRunsTheDecodedOperation : Prop :=
  (∀ (s u : State) (w : CommandWord) (i : Instr), s.FgMovesIn u → u.fetchCommand = some w →
      decodeCommandWord w = .ok i → step s = exec i u) ∧
    (∀ (s : State) (w : EventWord) (ts : List Turn) (i : Instr), s.env.turns = .event w :: ts →
      decodeEventWord w = .ok i → step s = exec i (s.setTurns ts)) ∧
    ∀ (s : State) (ts : List Turn), s.env.turns = .spuriousRx :: ts →
      step s = exec (.irqRx false 0 false false false) (s.setTurns ts)

/-- BPCORE raises no exception and never halts: every operation in every state, and every step, answers a next state
(R230, R276). That the hold of RX_POP is a turn that passes, that FG idles when its program is done, and that an illegal
word's turn is a step are the model's choices (logs 5, 6, 12). -/
def Obligations.NothingStopsTheMachine : Prop :=
  (∀ (i : Instr) (s : State), ∃ t, exec i s = .next t) ∧ ∀ s : State, ∃ t, step s = .next t

/-- The foreground program is fixed: no step modifies it (R64). -/
def Obligations.NoStepModifiesTheProgram : Prop := ∀ s t : State, step s = .next t → t.fg.prog = s.fg.prog

/-- After reset every piece of state has the value R260 lists, the output streams are empty, and FG is at its first
command. -/
def Obligations.ResetLeavesTheListedValues : Prop :=
  (∀ (ch : Chan) (j : Nat), (State.reset.chan ch).byteAt j = 0x00) ∧
    (∀ ch : Chan, (State.reset.chan ch).wr = 0 ∧ (State.reset.chan ch).rd = 0) ∧
    (∀ (ch : Chan) (sel : StatSel), (State.reset.chan ch).stat.get sel = 0) ∧
    State.reset.dec.state = .awaitingCommand ∧ State.reset.dec.cmd = 0x00 ∧ State.reset.dec.note = 0x00 ∧
    State.reset.scan.row = 0 ∧ (∀ i : Nat, State.reset.scan.keyAt i = ⟨.unknown, 0⟩) ∧
    State.reset.hnd = ⟨false, false, false, false⟩ ∧ (∀ i : Nat, State.reset.fs.ledAt i = ⟨0x00, 0x00, 0x00⟩) ∧
    State.reset.fs.dirty = none ∧ State.reset.out.fgOut = [] ∧ State.reset.out.txOut = [] ∧ State.reset.out.ledOut = [] ∧
    State.reset.fg.fpc = 0

/-- The reset input leaves every piece of BPCORE's state as at reset, whatever it was, the streams empty and FG at its
first command (R261); the program and the environment's remaining inputs stay (the model's choice, log 19). -/
def Obligations.ResetInputErasesEverything : Prop :=
  ∀ (s : State) (ts : List Turn), s.env.turns = .reset :: ts →
    ∃ t, step s = .next t ∧ t.inCh = State.reset.inCh ∧ t.outCh = State.reset.outCh ∧ t.dec = State.reset.dec ∧
      t.hnd = State.reset.hnd ∧ t.scan = State.reset.scan ∧ t.fs = State.reset.fs ∧ t.out = State.reset.out ∧
      t.fg = ⟨s.fg.prog, 0, .idle⟩ ∧ t.env = { s.env with turns := ts }

/-- The invariant holds at reset. -/
def Obligations.ResetMeetsTheInvariant : Prop := State.reset.Inv Config.params

/-- Every step keeps the invariant: cursors, row and mark in range, arrays canonical and inside their extents, `OUT`'s line
error counters zero, latched bytes of their classes, keys at the values of R170 (none of them awaiting at a threshold of
1), records with legal payloads. -/
def Obligations.StepKeepsTheInvariant : Prop :=
  ∀ s t : State, s.Inv Config.params → step s = .next t → t.Inv Config.params

/-- A stuck run waits for ever and a complete run has nothing left to do (R276, R267): the step changes nothing. That a step
still answers, with the same state, is the model's choice (logs 5, 6). -/
def Obligations.StuckAndCompleteRunsStayAsTheyAre : Prop :=
  (∀ s : State, s.Stuck → step s = .next s) ∧ ∀ s : State, s.Complete → step s = .next s

/-! ## The byte channel -/

/-- CH_INIT (R117): cursors 0, every slot `0x00`, the six counters 0, the other channel untouched, response 0. -/
def Obligations.ChInitRestoresTheChannel : Prop :=
  ∀ (ch : Chan) (s : State), ∃ t, exec (.chInit ch) s = .next t ∧ Completed s t 0 ∧
    UnchangedBut [chanPart ch, .responses, .fg] s t ∧ (t.chan ch).wr = 0 ∧ (t.chan ch).rd = 0 ∧
    (∀ j, j < Config.params.size ch → (t.chan ch).byteAt j = 0x00) ∧
    (∀ j, Config.params.size ch ≤ j → (t.chan ch).byteAt j = (s.chan ch).byteAt j) ∧
    ∀ sel : StatSel, (t.chan ch).stat.get sel = 0

/-- RX_POP with data in `IN` completes with the oldest byte and advances `IN.rd` (R115, R118). -/
def Obligations.RxPopReturnsTheOldestByte : Prop :=
  ∀ s : State, s.inCh.wr ≠ s.inCh.rd → ∃ t, exec .rxPop s = .next t ∧
    Completed s t ((s.inCh.byteAt s.inCh.rd).setWidth 32) ∧ UnchangedBut [.inCh, .responses, .fg] s t ∧
    t.inCh = { s.inCh with rd := (s.inCh.rd + 1) % Config.params.sizeIn }

/-- RX_POP on an empty `IN` holds: nothing changes, `fpc` does not advance and no response is given. That the hold is a
turn that passes is the model's choice (log 5). -/
def Obligations.RxPopHoldsWhileInIsEmpty : Prop :=
  ∀ s : State, s.inCh.wr = s.inCh.rd → exec .rxPop s = .next s

/-- Only a receive service that enqueues an unflagged byte makes an empty `IN` non-empty, and so lifts the hold (R118). -/
def Obligations.OnlyReceiveLiftsTheHold : Prop :=
  ∀ (i : Instr) (s t : State), exec i s = .next t → s.inCh.has = false → t.inCh.has = true →
    ∃ b, i = .irqRx true b false false false

/-- CH_HAS (R116, R119): whether the cursors differ; writes nothing. -/
def Obligations.ChHasReportsDifferingCursors : Prop :=
  ∀ (ch : Chan) (s : State), ∃ t, exec (.chHas ch) s = .next t ∧
    Completed s t (if (s.chan ch).wr = (s.chan ch).rd then 0 else 1) ∧ UnchangedBut [.responses, .fg] s t

/-- TX_PUSH (R114, R121): refused and counted when `OUT` is full, otherwise the byte goes into the slot at `wr` and `wr`
advances; the response tells which. -/
def Obligations.TxPushEnqueuesOrCounts : Prop :=
  ∀ (b : Byte) (s : State), ∃ t, exec (.txPush b) s = .next t ∧ UnchangedBut [.outCh, .responses, .fg] s t ∧
    ((s.outCh.wr + 1) % Config.params.sizeOut = s.outCh.rd →
      Completed s t 0 ∧ t.outCh = { s.outCh with stat := { s.outCh.stat with overflow := s.outCh.stat.overflow + 1 } }) ∧
    ((s.outCh.wr + 1) % Config.params.sizeOut ≠ s.outCh.rd →
      Completed s t 1 ∧ t.outCh.wr = (s.outCh.wr + 1) % Config.params.sizeOut ∧ t.outCh.rd = s.outCh.rd ∧
        t.outCh.stat = s.outCh.stat ∧ ∀ j, t.outCh.byteAt j = if j = s.outCh.wr then b else s.outCh.byteAt j)

/-- IRQ_RX (R120): the service is counted; each set flag is counted and the flagged byte discarded; an unflagged byte is
enqueued and counted, or counted as overflow when `IN` is full; only `IN` is written, and never `IN.rd`. -/
def Obligations.ReceiveServiceCountsOrEnqueues : Prop :=
  ∀ (avail : Bool) (b : Byte) (pe fe oe : Bool) (s : State), ∃ t, exec (.irqRx avail b pe fe oe) s = .next t ∧
    UnchangedBut [.inCh] s t ∧ t.inCh.rd = s.inCh.rd ∧ t.inCh.stat.ints = s.inCh.stat.ints + 1 ∧
    t.inCh.stat.parity = s.inCh.stat.parity + (if avail && pe then 1 else 0) ∧
    t.inCh.stat.framing = s.inCh.stat.framing + (if avail && fe then 1 else 0) ∧
    t.inCh.stat.overrun = s.inCh.stat.overrun + (if avail && oe then 1 else 0) ∧
    (avail = false ∨ pe = true ∨ fe = true ∨ oe = true →
      t.inCh.buf = s.inCh.buf ∧ t.inCh.wr = s.inCh.wr ∧ t.inCh.stat.bytes = s.inCh.stat.bytes ∧
        t.inCh.stat.overflow = s.inCh.stat.overflow) ∧
    (avail = true ∧ pe = false ∧ fe = false ∧ oe = false ∧ (s.inCh.wr + 1) % Config.params.sizeIn = s.inCh.rd →
      t.inCh.buf = s.inCh.buf ∧ t.inCh.wr = s.inCh.wr ∧ t.inCh.stat.bytes = s.inCh.stat.bytes ∧
        t.inCh.stat.overflow = s.inCh.stat.overflow + 1) ∧
    (avail = true ∧ pe = false ∧ fe = false ∧ oe = false ∧ (s.inCh.wr + 1) % Config.params.sizeIn ≠ s.inCh.rd →
      (∀ j, t.inCh.byteAt j = if j = s.inCh.wr then b else s.inCh.byteAt j) ∧
        t.inCh.wr = (s.inCh.wr + 1) % Config.params.sizeIn ∧ t.inCh.stat.bytes = s.inCh.stat.bytes + 1 ∧
        t.inCh.stat.overflow = s.inCh.stat.overflow)

/-- IRQ_TX (R122): the service is counted; the oldest byte of `OUT` goes to the transmitter and is counted, or nothing is
sent when `OUT` is empty; `OUT.wr` and `OUT.buf` are never written. -/
def Obligations.TransmitServiceSendsTheOldestByte : Prop :=
  ∀ s : State, ∃ t, exec .irqTx s = .next t ∧ UnchangedBut [.outCh, .txOut] s t ∧
    (s.outCh.wr ≠ s.outCh.rd →
      t.out.txOut = s.out.txOut ++ [s.outCh.byteAt s.outCh.rd] ∧
        t.outCh = { s.outCh with
          rd := (s.outCh.rd + 1) % Config.params.sizeOut
          stat := { s.outCh.stat with ints := s.outCh.stat.ints + 1, bytes := s.outCh.stat.bytes + 1 } }) ∧
    (s.outCh.wr = s.outCh.rd →
      t.out.txOut = s.out.txOut ∧
        t.outCh = { s.outCh with stat := { s.outCh.stat with ints := s.outCh.stat.ints + 1 } })

/-- STAT_RD (R214): the counter modulo `2^32`; writes nothing. -/
def Obligations.StatRdReturnsTheCounter : Prop :=
  ∀ (ch : Chan) (sel : StatSel) (s : State), ∃ t, exec (.statRd ch sel) s = .next t ∧
    (∃ x : Word, Completed s t x ∧ x.toNat = (s.chan ch).stat.get sel % 2 ^ 32) ∧ UnchangedBut [.responses, .fg] s t

/-- Occupancy (R25 (b), (d)): a channel with `2^k` slots holds at most `2^k - 1` bytes, is empty exactly when the cursors
are equal, and full exactly when it holds that many. -/
def Obligations.OccupancyIsBoundedByCap : Prop :=
  ∀ (k : Nat) (c : Channel), 1 ≤ k → c.InRange (2 ^ k) →
    c.count (2 ^ k) ≤ 2 ^ k - 1 ∧ (c.count (2 ^ k) = 0 ↔ c.wr = c.rd) ∧
      ((c.wr + 1) % 2 ^ k = c.rd ↔ c.count (2 ^ k) = 2 ^ k - 1)

/-- The ring is a bounded FIFO queue (R111, R123 (b), (d)): from any channel in range, any sequence of enqueues and guarded
dequeues gives the results a queue of `CAP` bytes gives, leaves the queue's content, and counts each refused enqueue once
and nothing else. -/
def Obligations.RingRefinesBoundedQueue : Prop :=
  ∀ (k : Nat) (c : Channel) (ops : List ChanOp), 1 ≤ k → c.InRange (2 ^ k) →
    (runOps (ringStep (2 ^ k)) c ops).2 = (runOps (queueStep (2 ^ k - 1)) (c.fifo (2 ^ k)) ops).2 ∧
      (runOps (ringStep (2 ^ k)) c ops).1.fifo (2 ^ k) = (runOps (queueStep (2 ^ k - 1)) (c.fifo (2 ^ k)) ops).1 ∧
      (runOps (ringStep (2 ^ k)) c ops).1.InRange (2 ^ k) ∧
      (runOps (ringStep (2 ^ k)) c ops).1.stat =
        { c.stat with overflow := c.stat.overflow + refusals (runOps (ringStep (2 ^ k)) c ops).2 }

/-- R123 (c): from an empty channel, `CAP` enqueues succeed, the next is refused and counted once, and `CAP` dequeues then
return the first `CAP` bytes in order. -/
def Obligations.OverflowKeepsBufferedBytes : Prop :=
  ∀ (k : Nat) (c : Channel) (bs : List Byte) (b : Byte), 1 ≤ k → c.InRange (2 ^ k) → c.wr = c.rd →
    bs.length = 2 ^ k - 1 →
    (runOps (ringStep (2 ^ k)) c (bs.map .push ++ [.push b] ++ List.replicate (2 ^ k - 1) .pop)).2 =
        List.replicate (2 ^ k - 1) (.pushed true) ++ [.pushed false] ++ bs.map (fun x => .popped (some x)) ∧
      (runOps (ringStep (2 ^ k)) c (bs.map .push ++ [.push b] ++ List.replicate (2 ^ k - 1) .pop)).1.stat.overflow =
        c.stat.overflow + 1

/-- Single writer (R22, R23, R110): which operations can change each cursor and each buffer. -/
def Obligations.EachCursorHasOneWriter : Prop :=
  ∀ (i : Instr) (s t : State), exec i s = .next t →
    ((t.inCh.wr ≠ s.inCh.wr ∨ t.inCh.buf ≠ s.inCh.buf) →
      (∃ b, i = .irqRx true b false false false) ∨ i = .chInit .inbound) ∧
    (t.inCh.rd ≠ s.inCh.rd → i = .rxPop ∨ i = .decPoll ∨ (∃ ms, i = .delay ms true) ∨ i = .chInit .inbound) ∧
    ((t.outCh.wr ≠ s.outCh.wr ∨ t.outCh.buf ≠ s.outCh.buf) →
      (∃ b, i = .txPush b) ∨ (∃ a b c, i = .encSend a b c) ∨ i = .chInit .outbound) ∧
    (t.outCh.rd ≠ s.outCh.rd → i = .irqTx ∨ i = .chInit .outbound)

/-- The counters are monotone: no operation but CH_INIT of their channel lowers one (R24). -/
def Obligations.CountersNeverDecrease : Prop :=
  ∀ (i : Instr) (s t : State) (ch : Chan) (sel : StatSel), exec i s = .next t → i ≠ .chInit ch →
    (s.chan ch).stat.get sel ≤ (t.chan ch).stat.get sel

/-- The output streams are append-only and each port is driven by one agent: FG alone writes `fg_out` and responses, IRQ_TX
alone `tx_out`, IRQ_FLUSH alone `led_out`; so no event sink is called from interrupt context (R8, R236). -/
def Obligations.StreamsGrowByTheirOwnAgent : Prop :=
  ∀ (i : Instr) (s t : State), exec i s = .next t →
    s.out.fgOut <+: t.out.fgOut ∧ s.out.txOut <+: t.out.txOut ∧ s.out.ledOut <+: t.out.ledOut ∧
      s.out.responses <+: t.out.responses ∧
      (i.isCommand = false → t.out.fgOut = s.out.fgOut ∧ t.out.responses = s.out.responses ∧ t.fg = s.fg) ∧
      (i ≠ .irqTx → t.out.txOut = s.out.txOut) ∧ (i ≠ .irqFlush → t.out.ledOut = s.out.ledOut)

/-! ## Interleaving -/

/-- Any two different event services commute (R234). -/
def Obligations.EventServicesCommute : Prop :=
  ∀ (s : State) (e₁ e₂ : Instr), e₁.isCommand = false → e₂.isCommand = false → e₁.row ≠ e₂.row →
    ∃ s₁ s₂ t, exec e₁ s = .next s₁ ∧ exec e₂ s₁ = .next t ∧ exec e₂ s = .next s₂ ∧ exec e₁ s₂ = .next t

/-- Every event service commutes with the commands that touch foreground-owned state only (R62). -/
def Obligations.EventsCommuteWithForegroundOwnedCommands : Prop :=
  ∀ (s : State) (i e : Instr), e.isCommand = false →
    (i = .decInit ∨ i = .scanInit ∨ i = .scanTick ∨ (∃ sel en, i = .hndSet sel en) ∨ (∃ x, i = .fsGet x)) →
    ∃ s₁ s₂ t, exec i s = .next s₁ ∧ exec e s₁ = .next t ∧ exec e s = .next s₂ ∧ exec i s₂ = .next t

/-- A receive service that falls between the read and the publication of a dequeue acts as if it came before it: the byte
read is the one a dequeue after the service reads, the channel is left as that dequeue leaves it, and it was not empty
(R62). -/
def Obligations.ReceiveInsideDequeueLinearises : Prop :=
  ∀ (size : Nat) (c : Channel) (avail : Bool) (b : Byte) (pe fe oe : Bool), c.wr ≠ c.rd →
    (rxChannel size avail b pe fe oe c).has = true ∧
      (c.oldest, (rxChannel size avail b pe fe oe c).publishRd size) =
        ((rxChannel size avail b pe fe oe c).oldest, (rxChannel size avail b pe fe oe c).pop size)

/-- A transmit service that falls between the full test and the store, or between the store and the publication, of an
enqueue acts as if it came before it (R62). -/
def Obligations.TransmitInsideEnqueueLinearises : Prop :=
  ∀ (s : State) (b : Byte), s.outCh.InRange Config.params.sizeOut → s.outCh.full Config.params.sizeOut = false →
    (txBody Config.params s).outCh.full Config.params.sizeOut = false ∧
      (let u := txBody Config.params (s.setOut (s.outCh.store b))
       u.setOut (u.outCh.publishWr Config.params.sizeOut)) =
        (txBody Config.params s).pushOut Config.params b

/-! ## The protocol framer -/

/-- The decoder's transition table, a row a clause, over the record and the records it emits (R142 to R147, R151). -/
def Obligations.DecoderFollowsItsTable : Prop :=
  ∀ (d : Decoder) (h : Handlers) (b : Byte),
    let cmdPattern : Byte → Prop :=
      fun x => x.extractLsb' 4 4 = 0x9#4 ∨ x.extractLsb' 4 4 = Config.params.noteOff
    (d.state = .awaitingCommand → cmdPattern b →
      decNext Config.params d b = ⟨.awaitingNote, b, d.note⟩ ∧ decRecords h d b = []) ∧
    (d.state = .awaitingCommand → ¬cmdPattern b → decNext Config.params d b = d ∧ decRecords h d b = []) ∧
    (d.state = .awaitingNote → b.toNat < 0x80 →
      decNext Config.params d b = ⟨.awaitingVelocity, d.cmd, b⟩ ∧ decRecords h d b = []) ∧
    (d.state = .awaitingNote → 0x80 ≤ b.toNat →
      decNext Config.params d b = ⟨.awaitingCommand, d.cmd, d.note⟩ ∧ decRecords h d b = []) ∧
    (d.state = .awaitingVelocity → b.toNat < 0x80 →
      decNext Config.params d b = ⟨.awaitingCommand, d.cmd, d.note⟩ ∧
        decRecords h d b =
          if d.cmd.extractLsb' 4 4 = 0x9#4 then (if h.noteOn then [.noteOn d.note b] else [])
          else (if h.noteOff then [.noteOff d.note b] else [])) ∧
    (d.state = .awaitingVelocity → 0x80 ≤ b.toNat →
      decNext Config.params d b = ⟨.awaitingCommand, d.cmd, d.note⟩ ∧ decRecords h d b = [])

/-- DEC_POLL (R148): consumes and decodes at most one byte of `IN`, never blocks, and tells whether it consumed one. -/
def Obligations.DecPollDecodesOnePendingByte : Prop :=
  ∀ s : State, ∃ t, exec .decPoll s = .next t ∧ UnchangedBut [.inCh, .dec, .fgOut, .responses, .fg] s t ∧
    (s.inCh.wr ≠ s.inCh.rd →
      Completed s t 1 ∧ t.inCh = { s.inCh with rd := (s.inCh.rd + 1) % Config.params.sizeIn } ∧
        t.dec = decNext Config.params s.dec (s.inCh.byteAt s.inCh.rd) ∧
        t.out.fgOut = s.out.fgOut ++ decRecords s.hnd s.dec (s.inCh.byteAt s.inCh.rd)) ∧
    (s.inCh.wr = s.inCh.rd →
      Completed s t 0 ∧ t.inCh = s.inCh ∧ t.dec = s.dec ∧ t.out.fgOut = s.out.fgOut)

/-- DEC_INIT (R149): AwaitingCommand and both scratch bytes zero; nothing else. -/
def Obligations.DecInitRestoresTheDecoder : Prop :=
  ∀ s : State, ∃ t, exec .decInit s = .next t ∧ Completed s t 0 ∧ UnchangedBut [.dec, .responses, .fg] s t ∧
    t.dec.state = .awaitingCommand ∧ t.dec.cmd = 0x00 ∧ t.dec.note = 0x00

/-- The effect of one enqueue of byte `b` into `OUT` with accept bit `ok` (R114), for ENC_SEND's pushes. -/
def EncPush (s t : State) (b : Byte) (ok : Bool) : Prop :=
  ((s.outCh.wr + 1) % Config.params.sizeOut = s.outCh.rd →
    ok = false ∧ t.outCh = { s.outCh with stat := { s.outCh.stat with overflow := s.outCh.stat.overflow + 1 } }) ∧
  ((s.outCh.wr + 1) % Config.params.sizeOut ≠ s.outCh.rd →
    ok = true ∧ t.outCh.wr = (s.outCh.wr + 1) % Config.params.sizeOut ∧ t.outCh.rd = s.outCh.rd ∧
      t.outCh.stat = s.outCh.stat ∧ ∀ j, t.outCh.byteAt j = if j = s.outCh.wr then b else s.outCh.byteAt j)

/-- ENC_SEND (R150): three pushes, each a step of its own: the command byte unmasked, then note and velocity with bit 7
cleared; each attempted whatever the earlier ones gave; the last step completes with the three accept bits. That the place inside
the command is kept in FG's phase is the model's choice (log 7). -/
def Obligations.EncSendPushesThreeBytes : Prop :=
  ∀ (cmd note vel : Byte) (s : State),
    (s.fg.phase = .idle → ∃ t ok, exec (.encSend cmd note vel) s = .next t ∧ UnchangedBut [.outCh, .fg] s t ∧
      t.fg = { s.fg with phase := .encNote ok } ∧ EncPush s t cmd ok) ∧
    (∀ a0, s.fg.phase = .encNote a0 → ∃ t ok, exec (.encSend cmd note vel) s = .next t ∧ UnchangedBut [.outCh, .fg] s t ∧
      t.fg = { s.fg with phase := .encVel a0 ok } ∧ EncPush s t (note &&& 0x7F) ok) ∧
    (∀ a0 a1, s.fg.phase = .encVel a0 a1 → ∃ t ok x, exec (.encSend cmd note vel) s = .next t ∧
      UnchangedBut [.outCh, .responses, .fg] s t ∧ EncPush s t (vel &&& 0x7F) ok ∧ Completed s t x ∧
      x.toNat = a0.toNat + 2 * a1.toNat + 4 * ok.toNat)

/-- HND_SET (R212): exactly the named handler bit takes the value; nothing is replayed. -/
def Obligations.HndSetWritesOneBit : Prop :=
  ∀ (sel : HndSel) (en : Bool) (s : State), ∃ t, exec (.hndSet sel en) s = .next t ∧ Completed s t 0 ∧
    UnchangedBut [.hnd, .responses, .fg] s t ∧ t.hnd.noteOn = (if sel = .noteOn then en else s.hnd.noteOn) ∧
    t.hnd.noteOff = (if sel = .noteOff then en else s.hnd.noteOff) ∧
    t.hnd.keyDown = (if sel = .keyDown then en else s.hnd.keyDown) ∧
    t.hnd.keyUp = (if sel = .keyUp then en else s.hnd.keyUp)

/-- From a message boundary the decoder emits exactly the events of the message grammar: an event only for command, data,
data in three consecutive bytes, no running status, no re-examined byte (R152 (d), (f)). -/
def Obligations.DecoderRecognisesTheMessageGrammar : Prop :=
  ∀ (h : Handlers) (d : Decoder) (bs : List Byte), d.state = .awaitingCommand →
    (feedBytes Config.params h d bs).2 = parseMessages Config.params h bs

/-- The three properties of R152 taken from the source: (a) one event, (b) a status byte for the velocity, (c) a status
byte for the note; and (e): after any status byte the decoder is at a message boundary or has latched a command. -/
def Obligations.DecoderResynchronises : Prop :=
  (∀ (d : Decoder) (h : Handlers), d.state = .awaitingCommand → h.noteOn = true →
    (feedBytes Config.params h d [0x90, 0x3C, 0x64]).2 = [.noteOn 60 100] ∧
      (feedBytes Config.params h d [0x90, 0x3C, 0xFF]).2 = [] ∧
      (feedBytes Config.params h d [0x90, 0x3C, 0xFF]).1.state = .awaitingCommand ∧
      (feedBytes Config.params h d [0x90, 0xFF]).2 = [] ∧
      (feedBytes Config.params h d [0x90, 0xFF]).1.state = .awaitingCommand ∧
      (feedBytes Config.params h d [0x90, 0xFF, 0x3C, 0x64]).2 = [] ∧
      (feedBytes Config.params h d [0x90, 0xFF, 0x3C, 0x64]).1.state = .awaitingCommand) ∧
  ∀ (d : Decoder) (b : Byte), 0x80 ≤ b.toNat →
    (decNext Config.params d b).state = .awaitingCommand ∨
      ((decNext Config.params d b).state = .awaitingNote ∧ d.state = .awaitingCommand)

/-- What the bytes of one ENC_SEND mean to a decoder at a message boundary (R150, R151): that event, note and velocity
reduced to seven bits, and a message boundary again. -/
def DecodesAsSent (d : Decoder) (h : Handlers) (cmd note vel : Byte) (bytes : List Byte) : Prop :=
  (feedBytes Config.params h d bytes).1.state = .awaitingCommand ∧
    (feedBytes Config.params h d bytes).2 =
      if cmd.extractLsb' 4 4 = 0x9#4 then (if h.noteOn then [.noteOn (note &&& 0x7F) (vel &&& 0x7F)] else [])
      else (if h.noteOff then [.noteOff (note &&& 0x7F) (vel &&& 0x7F)] else [])

/-- The encoder is the mirror of the decoder (R150): for a command byte the decoder knows, the bytes that ENC_SEND's three
turns append to `OUT` when three slots are free, and the bytes that reach the transmitter when `OUT` was empty and each
turn is followed by a transmit service, are decoded as that event. The three turns of FG are the model's choice (log 7). -/
def Obligations.DecoderMirrorsEncoder : Prop :=
  ∀ (d : Decoder) (h : Handlers) (cmd note vel : Byte) (s : State), d.state = .awaitingCommand →
    isCmd Config.params cmd = true → s.fg.phase = .idle → s.outCh.InRange Config.params.sizeOut →
    (s.outCh.count Config.params.sizeOut + 3 ≤ Config.params.cap .outbound →
      ∃ t bytes, Executes s (List.replicate 3 (.encSend cmd note vel)) t ∧
        t.outCh.fifo Config.params.sizeOut = s.outCh.fifo Config.params.sizeOut ++ bytes ∧
        t.out.responses = s.out.responses ++ [⟨.ok, 7⟩] ∧ DecodesAsSent d h cmd note vel bytes) ∧
    (s.outCh.wr = s.outCh.rd →
      ∃ t bytes, Executes s [.encSend cmd note vel, .irqTx, .encSend cmd note vel, .irqTx, .encSend cmd note vel, .irqTx] t ∧
        t.out.txOut = s.out.txOut ++ bytes ∧ t.outCh.wr = t.outCh.rd ∧
        t.out.responses = s.out.responses ++ [⟨.ok, 7⟩] ∧ DecodesAsSent d h cmd note vel bytes)

/-! ## The scanner -/

/-- The debounce table (R164 to R168), every row for every threshold. -/
def Obligations.DebounceFollowsItsTable : Prop :=
  ∀ (nDown nUp : Nat) (c : BitVec 5),
    keyNext nDown nUp ⟨.unknown, c⟩ true = (⟨.down, 0⟩, none) ∧
    keyNext nDown nUp ⟨.unknown, c⟩ false = (⟨.up, 0⟩, none) ∧
    keyNext nDown nUp ⟨.up, c⟩ false = (⟨.up, 0⟩, none) ∧
    keyNext nDown nUp ⟨.up, c⟩ true =
      (if nDown ≤ 1 then (⟨.down, 0⟩, some .down) else (⟨.awaitingDown, 1⟩, none)) ∧
    keyNext nDown nUp ⟨.awaitingDown, c⟩ true =
      (if nDown ≤ c.toNat + 1 then (⟨.down, 0⟩, some .down) else (⟨.awaitingDown, c + 1⟩, none)) ∧
    keyNext nDown nUp ⟨.awaitingDown, c⟩ false = (⟨.up, 0⟩, none) ∧
    keyNext nDown nUp ⟨.down, c⟩ true = (⟨.down, 0⟩, none) ∧
    keyNext nDown nUp ⟨.down, c⟩ false =
      (if nUp ≤ 1 then (⟨.up, 0⟩, some .up) else (⟨.awaitingUp, 1⟩, none)) ∧
    keyNext nDown nUp ⟨.awaitingUp, c⟩ false =
      (if nUp ≤ c.toNat + 1 then (⟨.up, 0⟩, some .up) else (⟨.awaitingUp, c + 1⟩, none)) ∧
    keyNext nDown nUp ⟨.awaitingUp, c⟩ true = (⟨.awaitingUp, 0⟩, none)

/-- SCAN_TICK (R162, R163, R169): the drawn bits belong to the row selected on entry; the next row is selected and recorded
first; every input of the entry row advances by its bit, in ascending column order, its edge recorded when its handler is
set; every other input is unchanged. How the drawn sample is supplied is the model's choice (log 9). -/
def Obligations.ScanTickSamplesTheEntryRow : Prop :=
  ∀ s : State, ∃ t, exec .scanTick s = .next t ∧ Completed s t 0 ∧
    UnchangedBut [.scan, .fgOut, .responses, .fg, .env] s t ∧ t.env = s.afterColsDraw.env ∧
    t.scan.row = (s.scan.row + 1) % Config.params.rows ∧
    (∀ c, c < Config.params.cols →
      t.scan.keyAt (s.scan.row * Config.params.cols + c) =
        (keyNext Config.params.nDown Config.params.nUp (s.scan.keyAt (s.scan.row * Config.params.cols + c))
          (s.colsDraw.getLsbD c)).1) ∧
    (∀ j, (∀ c, c < Config.params.cols → j ≠ s.scan.row * Config.params.cols + c) →
      t.scan.keyAt j = s.scan.keyAt j) ∧
    t.out.fgOut = s.out.fgOut ++ .rowSelect ((s.scan.row + 1) % Config.params.rows) ::
      (List.range Config.params.cols).flatMap (fun c =>
        edgeRecords s.hnd (s.scan.row * Config.params.cols + c)
          (keyNext Config.params.nDown Config.params.nUp (s.scan.keyAt (s.scan.row * Config.params.cols + c))
            (s.colsDraw.getLsbD c)).2)

/-- SCAN_INIT (R161): every input `(Unknown, 0)`, row 0 selected and recorded, handler bits untouched. -/
def Obligations.ScanInitRestoresTheScanner : Prop :=
  ∀ s : State, ∃ t, exec .scanInit s = .next t ∧ Completed s t 0 ∧ UnchangedBut [.scan, .fgOut, .responses, .fg] s t ∧
    t.scan.row = 0 ∧ t.out.fgOut = s.out.fgOut ++ [.rowSelect 0] ∧
    (∀ i, i < Config.params.rows * Config.params.cols → t.scan.keyAt i = ⟨.unknown, 0⟩) ∧
    ∀ i, Config.params.rows * Config.params.cols ≤ i → t.scan.keyAt i = s.scan.keyAt i

/-- R172 (a): from Up, `m` consecutive down samples confirm one key-down when `m` reaches the threshold and none before,
and never more than one. -/
def Obligations.PressConfirmsExactlyOnce : Prop :=
  ∀ nDown nUp m : Nat, 1 ≤ nDown → nDown ≤ 31 →
    (feedSamples (keyNext nDown nUp) ⟨.up, 0⟩ (List.replicate m true)).2 = (if nDown ≤ m then [.down] else [])

/-- R172 (b): from Down, fewer up samples than the up threshold followed by a down sample confirm nothing and leave the
input logically down with run length 0. -/
def Obligations.ShortReleaseIsSilent : Prop :=
  ∀ nDown nUp m : Nat, nUp ≤ 31 → m < nUp →
    (feedSamples (keyNext nDown nUp) ⟨.down, 0⟩ (List.replicate m false ++ [true])).2 = [] ∧
      (feedSamples (keyNext nDown nUp) ⟨.down, 0⟩ (List.replicate m false ++ [true])).1.level = some true ∧
      (feedSamples (keyNext nDown nUp) ⟨.down, 0⟩ (List.replicate m false ++ [true])).1.runLength = 0

/-- R172 (c): from Unknown the confirmed transitions alternate, and the first one is a key-down if the first sample was up
and a key-up if it was down. -/
def Obligations.TransitionsAlternate : Prop :=
  ∀ (nDown nUp : Nat) (x : Bool) (xs : List Bool),
    Alternating (feedSamples (keyNext nDown nUp) ⟨.unknown, 0⟩ (x :: xs)).2 ∧
      ∀ e rest, (feedSamples (keyNext nDown nUp) ⟨.unknown, 0⟩ (x :: xs)).2 = e :: rest →
        e = if x then .up else .down

/-- R171: whichever of restarting and flipping back a table uses, every sample sequence gives the same transitions and the
same logical level and run length. -/
def Obligations.OpenDebounceChoicesAreInvisible : Prop :=
  ∀ (restartDown flipUp : Bool) (nDown nUp : Nat) (k : Key) (xs : List Bool),
    (feedSamples (keyNextOpen restartDown flipUp nDown nUp) k xs).2 = (feedSamples (keyNext nDown nUp) k xs).2 ∧
      (feedSamples (keyNextOpen restartDown flipUp nDown nUp) k xs).1.level =
        (feedSamples (keyNext nDown nUp) k xs).1.level ∧
      (feedSamples (keyNextOpen restartDown flipUp nDown nUp) k xs).1.runLength =
        (feedSamples (keyNext nDown nUp) k xs).1.runLength

/-- The packed debounce byte (R87): the packed value of each state with counter `c`, unpacking inverts packing, and exactly
the bytes with state code 5 to 7 hold no key. -/
def Obligations.PackedKeyByteLayout : Prop :=
  (∀ c : BitVec 5, (Key.pack ⟨.unknown, c⟩).toNat = 0x00 + c.toNat ∧
    (Key.pack ⟨.awaitingDown, c⟩).toNat = 0x20 + c.toNat ∧ (Key.pack ⟨.down, c⟩).toNat = 0x40 + c.toNat ∧
    (Key.pack ⟨.awaitingUp, c⟩).toNat = 0x60 + c.toNat ∧ (Key.pack ⟨.up, c⟩).toNat = 0x80 + c.toNat) ∧
    (∀ k : Key, Key.unpack k.pack = some k) ∧ ∀ b : Byte, Key.unpack b = none ↔ 0xA0 ≤ b.toNat

/-! ## The frame store -/

/-- FS_SET (R192): in range, the colour is written and the mark raised to the index if it was NONE or lower; out of range,
nothing changes; the response is 0 either way. -/
def Obligations.FsSetWritesAndRaisesTheMark : Prop :=
  ∀ (idx : Half) (c0 c1 c2 : Byte) (s : State), ∃ t, exec (.fsSet idx c0 c1 c2) s = .next t ∧ Completed s t 0 ∧
    UnchangedBut [.fs, .responses, .fg] s t ∧ (Config.params.nLeds ≤ idx.toNat → t.fs = s.fs) ∧
    (idx.toNat < Config.params.nLeds →
      (∀ i, t.fs.ledAt i = if i = idx.toNat then ⟨c0, c1, c2⟩ else s.fs.ledAt i) ∧
        (s.fs.dirty = none → t.fs.dirty = some idx.toNat) ∧
        ∀ d, s.fs.dirty = some d → t.fs.dirty = some (max d idx.toNat))

/-- FS_CLR (R193): every position black and the mark at the last position. -/
def Obligations.FsClrBlackensAndMarksAll : Prop :=
  ∀ s : State, ∃ t, exec .fsClr s = .next t ∧ Completed s t 0 ∧ UnchangedBut [.fs, .responses, .fg] s t ∧
    t.fs.dirty = some (Config.params.nLeds - 1) ∧ (∀ i, i < Config.params.nLeds → t.fs.ledAt i = ⟨0, 0, 0⟩) ∧
    ∀ i, Config.params.nLeds ≤ i → t.fs.ledAt i = s.fs.ledAt i

/-- FS_INIT (R191): every position black and nothing pending. -/
def Obligations.FsInitBlackensAndMarksNone : Prop :=
  ∀ s : State, ∃ t, exec .fsInit s = .next t ∧ Completed s t 0 ∧ UnchangedBut [.fs, .responses, .fg] s t ∧
    t.fs.dirty = none ∧ (∀ i, i < Config.params.nLeds → t.fs.ledAt i = ⟨0, 0, 0⟩) ∧
    ∀ i, Config.params.nLeds ≤ i → t.fs.ledAt i = s.fs.ledAt i

/-- FS_GET (R194): the stored colour as `c0 · 2^16 + c1 · 2^8 + c2`; writes nothing. For an index out of range 0: there the
value is the spec's own choice (U5; log 15). -/
def Obligations.FsGetReturnsTheStoredColour : Prop :=
  ∀ (idx : Half) (s : State), ∃ t x, exec (.fsGet idx) s = .next t ∧ Completed s t x ∧ UnchangedBut [.responses, .fg] s t ∧
    (Config.params.nLeds ≤ idx.toNat → x = 0) ∧
    (idx.toNat < Config.params.nLeds →
      x.toNat = (s.fs.ledAt idx.toNat).c0.toNat * 65536 + (s.fs.ledAt idx.toNat).c1.toNat * 256 +
        (s.fs.ledAt idx.toNat).c2.toNat)

/-- The bytes of positions `0..=d` of a store in stream order (R85, R195): three a position, `c0`, `c1`, `c2`. -/
def PrefixBytes (f : FrameStore) (d : Nat) (bytes : List Byte) : Prop :=
  bytes.length = 3 * (d + 1) ∧ ∀ i, i ≤ d →
    bytes[3 * i]? = some (f.ledAt i).c0 ∧ bytes[3 * i + 1]? = some (f.ledAt i).c1 ∧ bytes[3 * i + 2]? = some (f.ledAt i).c2

/-- IRQ_FLUSH (R195): nothing when the mark is NONE; otherwise the bytes of positions `0..=mark` are appended to `led_out`
and the mark becomes NONE; `fs.led` is never written. -/
def Obligations.FlushSendsTheDirtyPrefix : Prop :=
  ∀ s : State, ∃ t, exec .irqFlush s = .next t ∧ UnchangedBut [.fs, .ledOut] s t ∧ t.fs.led = s.fs.led ∧
    t.fs.dirty = none ∧ (s.fs.dirty = none → t.out.ledOut = s.out.ledOut) ∧
    ∀ d, s.fs.dirty = some d → ∃ bytes, t.out.ledOut = s.out.ledOut ++ bytes ∧ PrefixBytes s.fs d bytes

/-- R197: (a) a write to position `k` with nothing dirty makes the next flush send exactly positions `0..=k`; (b) FS_CLR,
then FS_SET at 0, then a flush send the new colour at position 0 and black at every other position. -/
def Obligations.FlushFollowsThePrefixPolicy : Prop :=
  (∀ (s : State) (k : Half) (c : Colour), s.fs.dirty = none → k.toNat < Config.params.nLeds →
    ∃ t u bytes, exec (.fsSet k c.c0 c.c1 c.c2) s = .next t ∧ exec .irqFlush t = .next u ∧
      u.out.ledOut = s.out.ledOut ++ bytes ∧ PrefixBytes t.fs k.toNat bytes ∧ t.fs.ledAt k.toNat = c) ∧
  ∀ (s : State) (c : Colour), ∃ r t u bytes, exec .fsClr s = .next r ∧ exec (.fsSet 0 c.c0 c.c1 c.c2) r = .next t ∧
    exec .irqFlush t = .next u ∧ u.out.ledOut = s.out.ledOut ++ bytes ∧
    bytes = c.components ++ List.replicate (3 * (Config.params.nLeds - 1)) 0

/-- R196, first half: after any sequence of FS_SET and FS_CLR from a state with nothing dirty, the mark is the largest
position mutated, or NONE when none was. -/
def Obligations.DirtyMarkIsTheLargestMutatedIndex : Prop :=
  ∀ (s : State) (ops : List FrameOp), s.fs.dirty = none →
    ∃ t, Executes s (ops.map FrameOp.instr) t ∧
      (t.fs.dirty = none ↔ ∀ op ∈ ops, ∀ i, ¬op.Touches Config.params i) ∧
      ∀ d, t.fs.dirty = some d → (∃ op ∈ ops, op.Touches Config.params d) ∧
        ∀ op ∈ ops, ∀ i, op.Touches Config.params i → i ≤ d

/-- R196, second half, and R34 (b): if strip and store agree above the mark, they still do after any operation but FS_INIT,
with the strip a flush leaves being the one its bytes paint; and after a flush they agree everywhere. -/
def Obligations.StripAgreesAboveTheMark : Prop :=
  ∀ (s t : State) (i : Instr) (strip : Nat → Colour), StripAgrees Config.params strip s.fs → exec i s = .next t →
    i ≠ .fsInit → ∃ bytes, t.out.ledOut = s.out.ledOut ++ bytes ∧
      StripAgrees Config.params (stripAfter strip bytes) t.fs ∧
      (i = .irqFlush → ∀ j, j < Config.params.nLeds → stripAfter strip bytes j = t.fs.ledAt j)

/-! ## Delay -/

/-- The effect of one iteration of a DELAY on the parts a poll can write (R216): that of a DEC_POLL when `p = 1`, nothing
when `p = 0`. -/
def DelayIterationEffect (poll : Bool) (s t : State) : Prop :=
  (poll = true → ∃ u, exec .decPoll s = .next u ∧ t.inCh = u.inCh ∧ t.dec = u.dec ∧ t.out.fgOut = u.out.fgOut) ∧
    (poll = false → t.inCh = s.inCh ∧ t.dec = s.dec ∧ t.out.fgOut = s.out.fgOut)

/-- DELAY (R216): at its start the number of iterations is drawn; none: it completes; otherwise the first one is made, and
each later turn makes one more; the last one completes it with response 0. That an iteration is one turn and the return
comes with the last, and how the count is supplied, is the model's choice (logs 8, 10). -/
def Obligations.DelayIteratesAsDrawn : Prop :=
  ∀ (ms : Half) (poll : Bool) (s : State),
    (s.fg.phase = .idle → s.itersDraw = 0 → ∃ t, exec (.delay ms poll) s = .next t ∧ Completed s t 0 ∧
      UnchangedBut [.responses, .fg, .env] s t ∧ t.env = s.afterItersDraw.env) ∧
    (∀ n, s.fg.phase = .idle → s.itersDraw = n + 1 → ∃ t, exec (.delay ms poll) s = .next t ∧
      DelayIterationEffect poll s t ∧ UnchangedBut [.inCh, .dec, .fgOut, .responses, .fg, .env] s t ∧
      t.env = s.afterItersDraw.env ∧ (n = 0 → Completed s t 0) ∧
      (0 < n → t.out.responses = s.out.responses ∧ t.fg = { s.fg with phase := .delaying n })) ∧
    (∀ n, s.fg.phase = .delaying (n + 1) → ∃ t, exec (.delay ms poll) s = .next t ∧
      DelayIterationEffect poll s t ∧ UnchangedBut [.inCh, .dec, .fgOut, .responses, .fg] s t ∧
      (n = 0 → Completed s t 0) ∧
      (0 < n → t.out.responses = s.out.responses ∧ t.fg = { s.fg with phase := .delaying n }))

/-- A DELAY always ends (R216): after as many of its turns as iterations were drawn, one if none were, FG is at the next
command. The count of turns is the model's choice (log 8). -/
def Obligations.DelayAlwaysEnds : Prop :=
  ∀ (ms : Half) (poll : Bool) (s : State), s.fg.phase = .idle →
    ∃ t, Executes s (List.replicate (max 1 s.itersDraw) (.delay ms poll)) t ∧ t.fg.fpc = s.fg.fpc + 1 ∧
      t.fg.phase = .idle ∧ t.out.responses = s.out.responses ++ [⟨.ok, 0⟩]

/-- DELAY follows the millisecond clock across a wrap (R216, R246). The clock shows `t0` at the start and, wrapped at
`MS_WRAP`, `t0` plus each elapsed time afterwards, the last of which is the first to reach `ms`. When the count the
environment draws is the number of passes the clock then allows, the turns of DELAY leave what R216's loop leaves on those
readings, and every pass was made. That the count, and not the clock, is drawn is the model's choice (logs 8, 10, 24). -/
def Obligations.DelayClockSurvivesOneWrap : Prop :=
  ∀ (ms : Half) (poll : Bool) (s : State) (t0 last : Nat) (passes : List Nat), s.fg.phase = .idle →
    t0 < Config.params.msWrap → (∀ e ∈ passes, e < ms.toNat) → ms.toNat ≤ last → last < Config.params.msWrap →
    s.itersDraw = passes.length →
    ∃ t u, Executes s (List.replicate (max 1 passes.length) (.delay ms poll)) t ∧
      clockLoop Config.params poll t0 ms.toNat ((passes ++ [last]).map fun e => (t0 + e) % Config.params.msWrap) s =
        (u, passes.length) ∧
      t.inCh = u.inCh ∧ t.dec = u.dec ∧ t.out.fgOut = u.out.fgOut ∧
      UnchangedBut [.inCh, .dec, .fgOut, .responses, .fg, .env] s t ∧ t.fg.fpc = s.fg.fpc + 1 ∧
      t.out.responses = s.out.responses ++ [⟨.ok, 0⟩]
end

