-- ==== Sys2Proof/Laws/Memory.lean ====
section
/-! SUPPORT. The laws of an array (Machine/Ops.lean): what a read returns after each operation, in every array, and that each
operation keeps the canonical form and the array's extent. -/

namespace Sys2Proof.Machine

variable {α : Type} (zero : α)

@[simp] theorem Memory.read_nil (i : Nat) : Memory.read zero ([] : Memory α) i = zero := rfl

theorem Memory.read_cons (m : Memory α) (j : Nat) (v : α) (i : Nat) :
    Memory.read zero ((j, v) :: m) i = if j = i then v else Memory.read zero m i := rfl

/-- A filter on indices keeps what it lets through and resets the rest. -/
theorem Memory.read_filter (keep : Nat → Bool) (m : Memory α) (i : Nat) :
    Memory.read zero (m.filter fun e => keep e.1) i = if keep i then Memory.read zero m i else zero := by
  induction m with
  | nil => simp
  | cons e m ih =>
    obtain ⟨j, v⟩ := e
    by_cases hj : keep j <;> by_cases hji : j = i <;> simp_all [Memory.read_cons]

@[simp] theorem Memory.read_erase (m : Memory α) (i j : Nat) :
    Memory.read zero (Memory.erase m i) j = if j = i then zero else Memory.read zero m j := by
  have h := Memory.read_filter zero (fun k => k != i) m j
  simp only [Memory.erase, h, bne_iff_ne, ne_eq]
  by_cases hj : j = i <;> simp [hj]

/-- Clearing below `n` resets exactly the elements below `n`. -/
@[simp] theorem Memory.read_clear (n : Nat) (m : Memory α) (i : Nat) :
    Memory.read zero (Memory.clear n m) i = if i < n then zero else Memory.read zero m i := by
  have h := Memory.read_filter zero (fun k => decide (n ≤ k)) m i
  simp only [Memory.clear, h, decide_eq_true_eq]
  by_cases hi : i < n
  · simp [hi]
  · simp [hi, Nat.le_of_not_lt hi]

theorem Memory.read_insert (m : Memory α) (i : Nat) (v : α) (h : ∀ e ∈ m, e.1 ≠ i) (j : Nat) :
    Memory.read zero (Memory.insert i v m) j = if j = i then v else Memory.read zero m j := by
  induction m with
  | nil => by_cases hj : i = j <;> simp [Memory.insert, Memory.read_cons, hj, eq_comm]
  | cons e m ih =>
    obtain ⟨k, w⟩ := e
    have hk : k ≠ i := h (k, w) (by simp)
    have ih := ih fun e he => h e (by simp [he])
    by_cases hik : i < k
    · rw [Memory.insert, if_pos hik]
      by_cases hj : i = j <;> simp [Memory.read_cons, hj, eq_comm]
    · by_cases hkj : k = j
      · subst hkj; simp [Memory.insert, hik, Memory.read_cons, hk]
      · simp [Memory.insert, hik, Memory.read_cons, hkj, ih]

/-- A read after a write: the value written at that index, what was there everywhere else. -/
@[simp] theorem Memory.read_write [DecidableEq α] (m : Memory α) (i : Nat) (v : α) (j : Nat) :
    Memory.read zero (Memory.write zero m i v) j = if j = i then v else Memory.read zero m j := by
  unfold Memory.write
  by_cases hv : v = zero
  · simp [hv]
  · rw [if_neg hv, Memory.read_insert]
    · by_cases hj : j = i <;> simp [hj]
    · intro e he
      simpa [Memory.erase] using (List.mem_filter.mp he).2

/-! ## Canonical form -/

theorem Memory.wf_cons [DecidableEq α] (i : Nat) (v : α) (m : Memory α) :
    Memory.wf zero ((i, v) :: m) = true ↔ v ≠ zero ∧ (∀ e ∈ m, i < e.1) ∧ Memory.wf zero m = true := by
  simp [Memory.wf, and_assoc]

theorem Memory.wf_filter [DecidableEq α] (keep : Nat × α → Bool) (m : Memory α) (h : Memory.wf zero m = true) :
    Memory.wf zero (m.filter keep) = true := by
  induction m with
  | nil => rfl
  | cons e m ih =>
    obtain ⟨i, v⟩ := e
    rw [Memory.wf_cons] at h
    by_cases hk : keep (i, v)
    · rw [List.filter_cons_of_pos hk, Memory.wf_cons]
      exact ⟨h.1, fun e he => h.2.1 e (List.mem_filter.mp he).1, ih h.2.2⟩
    · rw [List.filter_cons_of_neg hk]; exact ih h.2.2

theorem Memory.mem_insert (i : Nat) (v : α) (m : Memory α) (e : Nat × α) :
    e ∈ Memory.insert i v m ↔ e = (i, v) ∨ e ∈ m := by
  induction m with
  | nil => simp [Memory.insert]
  | cons c m ih =>
    obtain ⟨k, w⟩ := c
    by_cases hik : i < k
    · simp [Memory.insert, hik]
    · simp only [Memory.insert, hik, if_false, List.mem_cons, ih]; tauto

theorem Memory.wf_insert [DecidableEq α] (i : Nat) (v : α) (m : Memory α) (hv : v ≠ zero) (hi : ∀ e ∈ m, e.1 ≠ i)
    (h : Memory.wf zero m = true) : Memory.wf zero (Memory.insert i v m) = true := by
  induction m with
  | nil => simp [Memory.insert, Memory.wf, hv]
  | cons c m ih =>
    obtain ⟨k, w⟩ := c
    have hk : k ≠ i := hi (k, w) (by simp)
    have h' := (Memory.wf_cons zero k w m).mp h
    by_cases hik : i < k
    · simp only [Memory.insert, hik, if_true, Memory.wf_cons]
      refine ⟨hv, fun e he => ?_, h'⟩
      rcases List.mem_cons.mp he with rfl | he
      · exact hik
      · exact Nat.lt_trans hik (h'.2.1 e he)
    · simp only [Memory.insert, hik, if_false, Memory.wf_cons]
      refine ⟨h'.1, fun e he => ?_, ih (fun e he => hi e (by simp [he])) h'.2.2⟩
      rcases (Memory.mem_insert i v m e).mp he with rfl | he
      · show k < i; omega
      · exact h'.2.1 e he

/-- A write keeps the canonical form. -/
theorem Memory.wf_write [DecidableEq α] (m : Memory α) (i : Nat) (v : α) (h : Memory.wf zero m = true) :
    Memory.wf zero (Memory.write zero m i v) = true := by
  unfold Memory.write
  have he : Memory.wf zero (Memory.erase m i) = true := Memory.wf_filter zero _ m h
  by_cases hv : v = zero
  · rw [if_pos hv]; exact he
  · rw [if_neg hv]
    refine Memory.wf_insert zero i v _ hv (fun e hm => ?_) he
    simpa [Memory.erase] using (List.mem_filter.mp hm).2

/-- Clearing keeps the canonical form. -/
theorem Memory.wf_clear [DecidableEq α] (n : Nat) (m : Memory α) (h : Memory.wf zero m = true) :
    Memory.wf zero (Memory.clear n m) = true := Memory.wf_filter zero _ m h

/-- A write inside an array's extent keeps the array inside it. -/
theorem Memory.within_write [DecidableEq α] (n : Nat) (m : Memory α) (i : Nat) (v : α) (hi : i < n)
    (h : Memory.within n m = true) : Memory.within n (Memory.write zero m i v) = true := by
  simp only [Memory.within, List.all_eq_true, decide_eq_true_eq] at h ⊢
  unfold Memory.write
  have he : ∀ e ∈ Memory.erase m i, e.1 < n := fun e hm => h e (List.mem_filter.mp hm).1
  by_cases hv : v = zero
  · rw [if_pos hv]; exact he
  · rw [if_neg hv]; intro e hm
    rcases (Memory.mem_insert i v _ e).mp hm with rfl | hm
    · exact hi
    · exact he e hm

/-- Clearing keeps an array inside its extent. -/
theorem Memory.within_clear (n k : Nat) (m : Memory α) (h : Memory.within n m = true) :
    Memory.within n (Memory.clear k m) = true := by
  simp only [Memory.within, List.all_eq_true, decide_eq_true_eq] at h ⊢
  exact fun e hm => h e (List.mem_filter.mp hm).1

/-- Clearing an array over its whole extent leaves nothing listed. -/
theorem Memory.clear_of_within (n : Nat) (m : Memory α) (h : Memory.within n m = true) : Memory.clear n m = [] := by
  simp only [Memory.within, List.all_eq_true, decide_eq_true_eq] at h
  simpa [Memory.clear, List.filter_eq_nil_iff] using h

theorem Memory.read_of_below [DecidableEq α] (m : Memory α) (i : Nat) (h : ∀ e ∈ m, i < e.1) :
    Memory.read zero m i = zero := by
  induction m with
  | nil => rfl
  | cons e m ih =>
    obtain ⟨j, v⟩ := e
    have hj : i < j := h (j, v) (by simp)
    rw [Memory.read_cons, if_neg (by omega), ih fun e he => h e (by simp [he])]

/-- Two canonical arrays that read the same everywhere are the same list. -/
theorem Memory.ext_of_wf [DecidableEq α] (m m' : Memory α) (h : Memory.wf zero m = true) (h' : Memory.wf zero m' = true)
    (hr : ∀ i, Memory.read zero m i = Memory.read zero m' i) : m = m' := by
  induction m generalizing m' with
  | nil =>
    cases m' with
    | nil => rfl
    | cons e m' =>
      obtain ⟨j, w⟩ := e
      have h' := (Memory.wf_cons zero j w m').mp h'
      exact absurd (by simpa [Memory.read_cons] using (hr j).symm) h'.1
  | cons e m ih =>
    obtain ⟨i, v⟩ := e
    have h := (Memory.wf_cons zero i v m).mp h
    cases m' with
    | nil => exact absurd (by simpa [Memory.read_cons] using hr i) h.1
    | cons e' m' =>
      obtain ⟨j, w⟩ := e'
      have h' := (Memory.wf_cons zero j w m').mp h'
      have hij : i = j := by
        rcases Nat.lt_trichotomy i j with hlt | heq | hgt
        · have hb := Memory.read_of_below zero ((j, w) :: m') i (by
            intro e he
            rcases List.mem_cons.mp he with rfl | he
            · exact hlt
            · exact Nat.lt_trans hlt (h'.2.1 e he))
          exact absurd ((by simpa [Memory.read_cons] using hr i : v = _).trans (by simpa [Memory.read_cons] using hb)) h.1
        · exact heq
        · have hb := Memory.read_of_below zero ((i, v) :: m) j (by
            intro e he
            rcases List.mem_cons.mp he with rfl | he
            · exact hgt
            · exact Nat.lt_trans hgt (h.2.1 e he))
          have hrj := (hr j).symm
          rw [hb] at hrj
          exact absurd (by simpa [Memory.read_cons] using hrj) h'.1
      subst hij
      have hvw : v = w := by simpa [Memory.read_cons] using hr i
      subst hvw
      congr 1
      refine ih m' h.2.2 h'.2.2 fun k => ?_
      by_cases hk : i = k
      · subst hk
        rw [Memory.read_of_below zero m i h.2.1, Memory.read_of_below zero m' i h'.2.1]
      · simpa [Memory.read_cons, hk] using hr k

end Sys2Proof.Machine
end

