-- ==== Sys2Proof/Laws/State.lean ====
section
/-! SUPPORT. One lemma for each field of State under each named update. -/

namespace Sys2Proof.Machine

@[simp] theorem State.setIn_inCh (s : State) (x : Channel) : (s.setIn x).inCh = x := rfl
@[simp] theorem State.setIn_outCh (s : State) (x : Channel) : (s.setIn x).outCh = s.outCh := rfl
@[simp] theorem State.setIn_dec (s : State) (x : Channel) : (s.setIn x).dec = s.dec := rfl
@[simp] theorem State.setIn_hnd (s : State) (x : Channel) : (s.setIn x).hnd = s.hnd := rfl
@[simp] theorem State.setIn_scan (s : State) (x : Channel) : (s.setIn x).scan = s.scan := rfl
@[simp] theorem State.setIn_fs (s : State) (x : Channel) : (s.setIn x).fs = s.fs := rfl
@[simp] theorem State.setIn_out (s : State) (x : Channel) : (s.setIn x).out = s.out := rfl
@[simp] theorem State.setIn_fg (s : State) (x : Channel) : (s.setIn x).fg = s.fg := rfl
@[simp] theorem State.setIn_env (s : State) (x : Channel) : (s.setIn x).env = s.env := rfl

@[simp] theorem State.setOut_inCh (s : State) (x : Channel) : (s.setOut x).inCh = s.inCh := rfl
@[simp] theorem State.setOut_outCh (s : State) (x : Channel) : (s.setOut x).outCh = x := rfl
@[simp] theorem State.setOut_dec (s : State) (x : Channel) : (s.setOut x).dec = s.dec := rfl
@[simp] theorem State.setOut_hnd (s : State) (x : Channel) : (s.setOut x).hnd = s.hnd := rfl
@[simp] theorem State.setOut_scan (s : State) (x : Channel) : (s.setOut x).scan = s.scan := rfl
@[simp] theorem State.setOut_fs (s : State) (x : Channel) : (s.setOut x).fs = s.fs := rfl
@[simp] theorem State.setOut_out (s : State) (x : Channel) : (s.setOut x).out = s.out := rfl
@[simp] theorem State.setOut_fg (s : State) (x : Channel) : (s.setOut x).fg = s.fg := rfl
@[simp] theorem State.setOut_env (s : State) (x : Channel) : (s.setOut x).env = s.env := rfl

@[simp] theorem State.setDec_inCh (s : State) (x : Decoder) : (s.setDec x).inCh = s.inCh := rfl
@[simp] theorem State.setDec_outCh (s : State) (x : Decoder) : (s.setDec x).outCh = s.outCh := rfl
@[simp] theorem State.setDec_dec (s : State) (x : Decoder) : (s.setDec x).dec = x := rfl
@[simp] theorem State.setDec_hnd (s : State) (x : Decoder) : (s.setDec x).hnd = s.hnd := rfl
@[simp] theorem State.setDec_scan (s : State) (x : Decoder) : (s.setDec x).scan = s.scan := rfl
@[simp] theorem State.setDec_fs (s : State) (x : Decoder) : (s.setDec x).fs = s.fs := rfl
@[simp] theorem State.setDec_out (s : State) (x : Decoder) : (s.setDec x).out = s.out := rfl
@[simp] theorem State.setDec_fg (s : State) (x : Decoder) : (s.setDec x).fg = s.fg := rfl
@[simp] theorem State.setDec_env (s : State) (x : Decoder) : (s.setDec x).env = s.env := rfl

@[simp] theorem State.setHnd_inCh (s : State) (x : Handlers) : (s.setHnd x).inCh = s.inCh := rfl
@[simp] theorem State.setHnd_outCh (s : State) (x : Handlers) : (s.setHnd x).outCh = s.outCh := rfl
@[simp] theorem State.setHnd_dec (s : State) (x : Handlers) : (s.setHnd x).dec = s.dec := rfl
@[simp] theorem State.setHnd_hnd (s : State) (x : Handlers) : (s.setHnd x).hnd = x := rfl
@[simp] theorem State.setHnd_scan (s : State) (x : Handlers) : (s.setHnd x).scan = s.scan := rfl
@[simp] theorem State.setHnd_fs (s : State) (x : Handlers) : (s.setHnd x).fs = s.fs := rfl
@[simp] theorem State.setHnd_out (s : State) (x : Handlers) : (s.setHnd x).out = s.out := rfl
@[simp] theorem State.setHnd_fg (s : State) (x : Handlers) : (s.setHnd x).fg = s.fg := rfl
@[simp] theorem State.setHnd_env (s : State) (x : Handlers) : (s.setHnd x).env = s.env := rfl

@[simp] theorem State.setScan_inCh (s : State) (x : Scanner) : (s.setScan x).inCh = s.inCh := rfl
@[simp] theorem State.setScan_outCh (s : State) (x : Scanner) : (s.setScan x).outCh = s.outCh := rfl
@[simp] theorem State.setScan_dec (s : State) (x : Scanner) : (s.setScan x).dec = s.dec := rfl
@[simp] theorem State.setScan_hnd (s : State) (x : Scanner) : (s.setScan x).hnd = s.hnd := rfl
@[simp] theorem State.setScan_scan (s : State) (x : Scanner) : (s.setScan x).scan = x := rfl
@[simp] theorem State.setScan_fs (s : State) (x : Scanner) : (s.setScan x).fs = s.fs := rfl
@[simp] theorem State.setScan_out (s : State) (x : Scanner) : (s.setScan x).out = s.out := rfl
@[simp] theorem State.setScan_fg (s : State) (x : Scanner) : (s.setScan x).fg = s.fg := rfl
@[simp] theorem State.setScan_env (s : State) (x : Scanner) : (s.setScan x).env = s.env := rfl

@[simp] theorem State.setFs_inCh (s : State) (x : FrameStore) : (s.setFs x).inCh = s.inCh := rfl
@[simp] theorem State.setFs_outCh (s : State) (x : FrameStore) : (s.setFs x).outCh = s.outCh := rfl
@[simp] theorem State.setFs_dec (s : State) (x : FrameStore) : (s.setFs x).dec = s.dec := rfl
@[simp] theorem State.setFs_hnd (s : State) (x : FrameStore) : (s.setFs x).hnd = s.hnd := rfl
@[simp] theorem State.setFs_scan (s : State) (x : FrameStore) : (s.setFs x).scan = s.scan := rfl
@[simp] theorem State.setFs_fs (s : State) (x : FrameStore) : (s.setFs x).fs = x := rfl
@[simp] theorem State.setFs_out (s : State) (x : FrameStore) : (s.setFs x).out = s.out := rfl
@[simp] theorem State.setFs_fg (s : State) (x : FrameStore) : (s.setFs x).fg = s.fg := rfl
@[simp] theorem State.setFs_env (s : State) (x : FrameStore) : (s.setFs x).env = s.env := rfl

@[simp] theorem State.setStreams_inCh (s : State) (x : Streams) : (s.setStreams x).inCh = s.inCh := rfl
@[simp] theorem State.setStreams_outCh (s : State) (x : Streams) : (s.setStreams x).outCh = s.outCh := rfl
@[simp] theorem State.setStreams_dec (s : State) (x : Streams) : (s.setStreams x).dec = s.dec := rfl
@[simp] theorem State.setStreams_hnd (s : State) (x : Streams) : (s.setStreams x).hnd = s.hnd := rfl
@[simp] theorem State.setStreams_scan (s : State) (x : Streams) : (s.setStreams x).scan = s.scan := rfl
@[simp] theorem State.setStreams_fs (s : State) (x : Streams) : (s.setStreams x).fs = s.fs := rfl
@[simp] theorem State.setStreams_out (s : State) (x : Streams) : (s.setStreams x).out = x := rfl
@[simp] theorem State.setStreams_fg (s : State) (x : Streams) : (s.setStreams x).fg = s.fg := rfl
@[simp] theorem State.setStreams_env (s : State) (x : Streams) : (s.setStreams x).env = s.env := rfl

@[simp] theorem State.setFg_inCh (s : State) (x : Foreground) : (s.setFg x).inCh = s.inCh := rfl
@[simp] theorem State.setFg_outCh (s : State) (x : Foreground) : (s.setFg x).outCh = s.outCh := rfl
@[simp] theorem State.setFg_dec (s : State) (x : Foreground) : (s.setFg x).dec = s.dec := rfl
@[simp] theorem State.setFg_hnd (s : State) (x : Foreground) : (s.setFg x).hnd = s.hnd := rfl
@[simp] theorem State.setFg_scan (s : State) (x : Foreground) : (s.setFg x).scan = s.scan := rfl
@[simp] theorem State.setFg_fs (s : State) (x : Foreground) : (s.setFg x).fs = s.fs := rfl
@[simp] theorem State.setFg_out (s : State) (x : Foreground) : (s.setFg x).out = s.out := rfl
@[simp] theorem State.setFg_fg (s : State) (x : Foreground) : (s.setFg x).fg = x := rfl
@[simp] theorem State.setFg_env (s : State) (x : Foreground) : (s.setFg x).env = s.env := rfl

@[simp] theorem State.setEnv_inCh (s : State) (x : Environment) : (s.setEnv x).inCh = s.inCh := rfl
@[simp] theorem State.setEnv_outCh (s : State) (x : Environment) : (s.setEnv x).outCh = s.outCh := rfl
@[simp] theorem State.setEnv_dec (s : State) (x : Environment) : (s.setEnv x).dec = s.dec := rfl
@[simp] theorem State.setEnv_hnd (s : State) (x : Environment) : (s.setEnv x).hnd = s.hnd := rfl
@[simp] theorem State.setEnv_scan (s : State) (x : Environment) : (s.setEnv x).scan = s.scan := rfl
@[simp] theorem State.setEnv_fs (s : State) (x : Environment) : (s.setEnv x).fs = s.fs := rfl
@[simp] theorem State.setEnv_out (s : State) (x : Environment) : (s.setEnv x).out = s.out := rfl
@[simp] theorem State.setEnv_fg (s : State) (x : Environment) : (s.setEnv x).fg = s.fg := rfl
@[simp] theorem State.setEnv_env (s : State) (x : Environment) : (s.setEnv x).env = x := rfl

end Sys2Proof.Machine
end

