-- ==== Sys2Proof/Laws/Ops.lean ====
section
/-! SUPPORT. What each shared operation of Machine/Ops.lean leaves unchanged, field by field, and what it writes. -/

namespace Sys2Proof.Machine

@[simp] theorem State.emitFg_inCh (s : State) (rs : List FgRecord) : (s.emitFg rs).inCh = s.inCh := rfl
@[simp] theorem State.emitFg_outCh (s : State) (rs : List FgRecord) : (s.emitFg rs).outCh = s.outCh := rfl
@[simp] theorem State.emitFg_dec (s : State) (rs : List FgRecord) : (s.emitFg rs).dec = s.dec := rfl
@[simp] theorem State.emitFg_hnd (s : State) (rs : List FgRecord) : (s.emitFg rs).hnd = s.hnd := rfl
@[simp] theorem State.emitFg_scan (s : State) (rs : List FgRecord) : (s.emitFg rs).scan = s.scan := rfl
@[simp] theorem State.emitFg_fs (s : State) (rs : List FgRecord) : (s.emitFg rs).fs = s.fs := rfl
@[simp] theorem State.emitFg_fg (s : State) (rs : List FgRecord) : (s.emitFg rs).fg = s.fg := rfl
@[simp] theorem State.emitFg_env (s : State) (rs : List FgRecord) : (s.emitFg rs).env = s.env := rfl
@[simp] theorem State.emitFg_fgOut (s : State) (rs : List FgRecord) : (s.emitFg rs).out.fgOut = s.out.fgOut ++ rs := rfl
@[simp] theorem State.emitFg_txOut (s : State) (rs : List FgRecord) : (s.emitFg rs).out.txOut = s.out.txOut := rfl
@[simp] theorem State.emitFg_ledOut (s : State) (rs : List FgRecord) : (s.emitFg rs).out.ledOut = s.out.ledOut := rfl
@[simp] theorem State.emitFg_responses (s : State) (rs : List FgRecord) : (s.emitFg rs).out.responses = s.out.responses := rfl

@[simp] theorem State.emitTx_inCh (s : State) (bs : List Byte) : (s.emitTx bs).inCh = s.inCh := rfl
@[simp] theorem State.emitTx_outCh (s : State) (bs : List Byte) : (s.emitTx bs).outCh = s.outCh := rfl
@[simp] theorem State.emitTx_dec (s : State) (bs : List Byte) : (s.emitTx bs).dec = s.dec := rfl
@[simp] theorem State.emitTx_hnd (s : State) (bs : List Byte) : (s.emitTx bs).hnd = s.hnd := rfl
@[simp] theorem State.emitTx_scan (s : State) (bs : List Byte) : (s.emitTx bs).scan = s.scan := rfl
@[simp] theorem State.emitTx_fs (s : State) (bs : List Byte) : (s.emitTx bs).fs = s.fs := rfl
@[simp] theorem State.emitTx_fg (s : State) (bs : List Byte) : (s.emitTx bs).fg = s.fg := rfl
@[simp] theorem State.emitTx_env (s : State) (bs : List Byte) : (s.emitTx bs).env = s.env := rfl
@[simp] theorem State.emitTx_fgOut (s : State) (bs : List Byte) : (s.emitTx bs).out.fgOut = s.out.fgOut := rfl
@[simp] theorem State.emitTx_txOut (s : State) (bs : List Byte) : (s.emitTx bs).out.txOut = s.out.txOut ++ bs := rfl
@[simp] theorem State.emitTx_ledOut (s : State) (bs : List Byte) : (s.emitTx bs).out.ledOut = s.out.ledOut := rfl
@[simp] theorem State.emitTx_responses (s : State) (bs : List Byte) : (s.emitTx bs).out.responses = s.out.responses := rfl

@[simp] theorem State.emitLed_inCh (s : State) (bs : List Byte) : (s.emitLed bs).inCh = s.inCh := rfl
@[simp] theorem State.emitLed_outCh (s : State) (bs : List Byte) : (s.emitLed bs).outCh = s.outCh := rfl
@[simp] theorem State.emitLed_dec (s : State) (bs : List Byte) : (s.emitLed bs).dec = s.dec := rfl
@[simp] theorem State.emitLed_hnd (s : State) (bs : List Byte) : (s.emitLed bs).hnd = s.hnd := rfl
@[simp] theorem State.emitLed_scan (s : State) (bs : List Byte) : (s.emitLed bs).scan = s.scan := rfl
@[simp] theorem State.emitLed_fs (s : State) (bs : List Byte) : (s.emitLed bs).fs = s.fs := rfl
@[simp] theorem State.emitLed_fg (s : State) (bs : List Byte) : (s.emitLed bs).fg = s.fg := rfl
@[simp] theorem State.emitLed_env (s : State) (bs : List Byte) : (s.emitLed bs).env = s.env := rfl
@[simp] theorem State.emitLed_fgOut (s : State) (bs : List Byte) : (s.emitLed bs).out.fgOut = s.out.fgOut := rfl
@[simp] theorem State.emitLed_txOut (s : State) (bs : List Byte) : (s.emitLed bs).out.txOut = s.out.txOut := rfl
@[simp] theorem State.emitLed_ledOut (s : State) (bs : List Byte) : (s.emitLed bs).out.ledOut = s.out.ledOut ++ bs := rfl
@[simp] theorem State.emitLed_responses (s : State) (bs : List Byte) : (s.emitLed bs).out.responses = s.out.responses := rfl

@[simp] theorem State.respond_inCh (s : State) (r : Response) : (s.respond r).inCh = s.inCh := rfl
@[simp] theorem State.respond_outCh (s : State) (r : Response) : (s.respond r).outCh = s.outCh := rfl
@[simp] theorem State.respond_dec (s : State) (r : Response) : (s.respond r).dec = s.dec := rfl
@[simp] theorem State.respond_hnd (s : State) (r : Response) : (s.respond r).hnd = s.hnd := rfl
@[simp] theorem State.respond_scan (s : State) (r : Response) : (s.respond r).scan = s.scan := rfl
@[simp] theorem State.respond_fs (s : State) (r : Response) : (s.respond r).fs = s.fs := rfl
@[simp] theorem State.respond_fg (s : State) (r : Response) : (s.respond r).fg = s.fg := rfl
@[simp] theorem State.respond_env (s : State) (r : Response) : (s.respond r).env = s.env := rfl
@[simp] theorem State.respond_fgOut (s : State) (r : Response) : (s.respond r).out.fgOut = s.out.fgOut := rfl
@[simp] theorem State.respond_txOut (s : State) (r : Response) : (s.respond r).out.txOut = s.out.txOut := rfl
@[simp] theorem State.respond_ledOut (s : State) (r : Response) : (s.respond r).out.ledOut = s.out.ledOut := rfl
@[simp] theorem State.respond_responses (s : State) (r : Response) : (s.respond r).out.responses = s.out.responses ++ [r] := rfl

@[simp] theorem State.advance_inCh (s : State) : (s.advance).inCh = s.inCh := rfl
@[simp] theorem State.advance_outCh (s : State) : (s.advance).outCh = s.outCh := rfl
@[simp] theorem State.advance_dec (s : State) : (s.advance).dec = s.dec := rfl
@[simp] theorem State.advance_hnd (s : State) : (s.advance).hnd = s.hnd := rfl
@[simp] theorem State.advance_scan (s : State) : (s.advance).scan = s.scan := rfl
@[simp] theorem State.advance_fs (s : State) : (s.advance).fs = s.fs := rfl
@[simp] theorem State.advance_out (s : State) : (s.advance).out = s.out := rfl
@[simp] theorem State.advance_env (s : State) : (s.advance).env = s.env := rfl
@[simp] theorem State.advance_prog (s : State) : (s.advance).fg.prog = s.fg.prog := rfl
@[simp] theorem State.advance_fpc (s : State) : (s.advance).fg.fpc = s.fg.fpc + 1 := rfl
@[simp] theorem State.advance_phase (s : State) : (s.advance).fg.phase = .idle := rfl

@[simp] theorem State.setPhase_inCh (s : State) (ph : Phase) : (s.setPhase ph).inCh = s.inCh := rfl
@[simp] theorem State.setPhase_outCh (s : State) (ph : Phase) : (s.setPhase ph).outCh = s.outCh := rfl
@[simp] theorem State.setPhase_dec (s : State) (ph : Phase) : (s.setPhase ph).dec = s.dec := rfl
@[simp] theorem State.setPhase_hnd (s : State) (ph : Phase) : (s.setPhase ph).hnd = s.hnd := rfl
@[simp] theorem State.setPhase_scan (s : State) (ph : Phase) : (s.setPhase ph).scan = s.scan := rfl
@[simp] theorem State.setPhase_fs (s : State) (ph : Phase) : (s.setPhase ph).fs = s.fs := rfl
@[simp] theorem State.setPhase_out (s : State) (ph : Phase) : (s.setPhase ph).out = s.out := rfl
@[simp] theorem State.setPhase_env (s : State) (ph : Phase) : (s.setPhase ph).env = s.env := rfl
@[simp] theorem State.setPhase_prog (s : State) (ph : Phase) : (s.setPhase ph).fg.prog = s.fg.prog := rfl
@[simp] theorem State.setPhase_fpc (s : State) (ph : Phase) : (s.setPhase ph).fg.fpc = s.fg.fpc := rfl
@[simp] theorem State.setPhase_phase (s : State) (ph : Phase) : (s.setPhase ph).fg.phase = ph := rfl

@[simp] theorem State.setTurns_inCh (s : State) (ts : List Turn) : (s.setTurns ts).inCh = s.inCh := rfl
@[simp] theorem State.setTurns_outCh (s : State) (ts : List Turn) : (s.setTurns ts).outCh = s.outCh := rfl
@[simp] theorem State.setTurns_dec (s : State) (ts : List Turn) : (s.setTurns ts).dec = s.dec := rfl
@[simp] theorem State.setTurns_hnd (s : State) (ts : List Turn) : (s.setTurns ts).hnd = s.hnd := rfl
@[simp] theorem State.setTurns_scan (s : State) (ts : List Turn) : (s.setTurns ts).scan = s.scan := rfl
@[simp] theorem State.setTurns_fs (s : State) (ts : List Turn) : (s.setTurns ts).fs = s.fs := rfl
@[simp] theorem State.setTurns_out (s : State) (ts : List Turn) : (s.setTurns ts).out = s.out := rfl
@[simp] theorem State.setTurns_fg (s : State) (ts : List Turn) : (s.setTurns ts).fg = s.fg := rfl
@[simp] theorem State.setTurns_turns (s : State) (ts : List Turn) : (s.setTurns ts).env.turns = ts := rfl
@[simp] theorem State.setTurns_cols (s : State) (ts : List Turn) : (s.setTurns ts).env.cols = s.env.cols := rfl
@[simp] theorem State.setTurns_iters (s : State) (ts : List Turn) : (s.setTurns ts).env.iters = s.env.iters := rfl
@[simp] theorem State.setTurns_draws (s : State) (ts : List Turn) : (s.setTurns ts).env.draws = s.env.draws := rfl

@[simp] theorem State.afterColsDraw_inCh (s : State) : (s.afterColsDraw).inCh = s.inCh := by unfold State.afterColsDraw; cases s.env.cols <;> rfl
@[simp] theorem State.afterColsDraw_outCh (s : State) : (s.afterColsDraw).outCh = s.outCh := by unfold State.afterColsDraw; cases s.env.cols <;> rfl
@[simp] theorem State.afterColsDraw_dec (s : State) : (s.afterColsDraw).dec = s.dec := by unfold State.afterColsDraw; cases s.env.cols <;> rfl
@[simp] theorem State.afterColsDraw_hnd (s : State) : (s.afterColsDraw).hnd = s.hnd := by unfold State.afterColsDraw; cases s.env.cols <;> rfl
@[simp] theorem State.afterColsDraw_scan (s : State) : (s.afterColsDraw).scan = s.scan := by unfold State.afterColsDraw; cases s.env.cols <;> rfl
@[simp] theorem State.afterColsDraw_fs (s : State) : (s.afterColsDraw).fs = s.fs := by unfold State.afterColsDraw; cases s.env.cols <;> rfl
@[simp] theorem State.afterColsDraw_out (s : State) : (s.afterColsDraw).out = s.out := by unfold State.afterColsDraw; cases s.env.cols <;> rfl
@[simp] theorem State.afterColsDraw_fg (s : State) : (s.afterColsDraw).fg = s.fg := by unfold State.afterColsDraw; cases s.env.cols <;> rfl
@[simp] theorem State.afterColsDraw_turns (s : State) : (s.afterColsDraw).env.turns = s.env.turns := by unfold State.afterColsDraw; cases s.env.cols <;> rfl

@[simp] theorem State.afterItersDraw_inCh (s : State) : (s.afterItersDraw).inCh = s.inCh := by unfold State.afterItersDraw; cases s.env.iters <;> rfl
@[simp] theorem State.afterItersDraw_outCh (s : State) : (s.afterItersDraw).outCh = s.outCh := by unfold State.afterItersDraw; cases s.env.iters <;> rfl
@[simp] theorem State.afterItersDraw_dec (s : State) : (s.afterItersDraw).dec = s.dec := by unfold State.afterItersDraw; cases s.env.iters <;> rfl
@[simp] theorem State.afterItersDraw_hnd (s : State) : (s.afterItersDraw).hnd = s.hnd := by unfold State.afterItersDraw; cases s.env.iters <;> rfl
@[simp] theorem State.afterItersDraw_scan (s : State) : (s.afterItersDraw).scan = s.scan := by unfold State.afterItersDraw; cases s.env.iters <;> rfl
@[simp] theorem State.afterItersDraw_fs (s : State) : (s.afterItersDraw).fs = s.fs := by unfold State.afterItersDraw; cases s.env.iters <;> rfl
@[simp] theorem State.afterItersDraw_out (s : State) : (s.afterItersDraw).out = s.out := by unfold State.afterItersDraw; cases s.env.iters <;> rfl
@[simp] theorem State.afterItersDraw_fg (s : State) : (s.afterItersDraw).fg = s.fg := by unfold State.afterItersDraw; cases s.env.iters <;> rfl
@[simp] theorem State.afterItersDraw_turns (s : State) : (s.afterItersDraw).env.turns = s.env.turns := by unfold State.afterItersDraw; cases s.env.iters <;> rfl

@[simp] theorem State.complete_inCh (s : State) (x : Word) : (s.complete x).inCh = s.inCh := rfl
@[simp] theorem State.complete_outCh (s : State) (x : Word) : (s.complete x).outCh = s.outCh := rfl
@[simp] theorem State.complete_dec (s : State) (x : Word) : (s.complete x).dec = s.dec := rfl
@[simp] theorem State.complete_hnd (s : State) (x : Word) : (s.complete x).hnd = s.hnd := rfl
@[simp] theorem State.complete_scan (s : State) (x : Word) : (s.complete x).scan = s.scan := rfl
@[simp] theorem State.complete_fs (s : State) (x : Word) : (s.complete x).fs = s.fs := rfl
@[simp] theorem State.complete_env (s : State) (x : Word) : (s.complete x).env = s.env := rfl
@[simp] theorem State.complete_fgOut (s : State) (x : Word) : (s.complete x).out.fgOut = s.out.fgOut := rfl
@[simp] theorem State.complete_txOut (s : State) (x : Word) : (s.complete x).out.txOut = s.out.txOut := rfl
@[simp] theorem State.complete_ledOut (s : State) (x : Word) : (s.complete x).out.ledOut = s.out.ledOut := rfl
@[simp] theorem State.complete_responses (s : State) (x : Word) : (s.complete x).out.responses = s.out.responses ++ [⟨.ok, x⟩] := rfl
@[simp] theorem State.complete_prog (s : State) (x : Word) : (s.complete x).fg.prog = s.fg.prog := rfl
@[simp] theorem State.complete_fpc (s : State) (x : Word) : (s.complete x).fg.fpc = s.fg.fpc + 1 := rfl
@[simp] theorem State.complete_phase (s : State) (x : Word) : (s.complete x).fg.phase = .idle := rfl

@[simp] theorem State.illegalCommand_inCh (s : State) : (s.illegalCommand).inCh = s.inCh := rfl
@[simp] theorem State.illegalCommand_outCh (s : State) : (s.illegalCommand).outCh = s.outCh := rfl
@[simp] theorem State.illegalCommand_dec (s : State) : (s.illegalCommand).dec = s.dec := rfl
@[simp] theorem State.illegalCommand_hnd (s : State) : (s.illegalCommand).hnd = s.hnd := rfl
@[simp] theorem State.illegalCommand_scan (s : State) : (s.illegalCommand).scan = s.scan := rfl
@[simp] theorem State.illegalCommand_fs (s : State) : (s.illegalCommand).fs = s.fs := rfl
@[simp] theorem State.illegalCommand_env (s : State) : (s.illegalCommand).env = s.env := rfl
@[simp] theorem State.illegalCommand_fgOut (s : State) : (s.illegalCommand).out.fgOut = s.out.fgOut := rfl
@[simp] theorem State.illegalCommand_txOut (s : State) : (s.illegalCommand).out.txOut = s.out.txOut := rfl
@[simp] theorem State.illegalCommand_ledOut (s : State) : (s.illegalCommand).out.ledOut = s.out.ledOut := rfl
@[simp] theorem State.illegalCommand_responses (s : State) : (s.illegalCommand).out.responses = s.out.responses ++ [⟨.illegal, 0⟩] := rfl
@[simp] theorem State.illegalCommand_prog (s : State) : (s.illegalCommand).fg.prog = s.fg.prog := rfl
@[simp] theorem State.illegalCommand_fpc (s : State) : (s.illegalCommand).fg.fpc = s.fg.fpc + 1 := rfl
@[simp] theorem State.illegalCommand_phase (s : State) : (s.illegalCommand).fg.phase = .idle := rfl

@[simp] theorem State.pushOut_inCh (s : State) (p : Params) (b : Byte) : (s.pushOut p b).inCh = s.inCh := rfl
@[simp] theorem State.pushOut_outCh (s : State) (p : Params) (b : Byte) : (s.pushOut p b).outCh = s.outCh.push p.sizeOut b := rfl
@[simp] theorem State.pushOut_dec (s : State) (p : Params) (b : Byte) : (s.pushOut p b).dec = s.dec := rfl
@[simp] theorem State.pushOut_hnd (s : State) (p : Params) (b : Byte) : (s.pushOut p b).hnd = s.hnd := rfl
@[simp] theorem State.pushOut_scan (s : State) (p : Params) (b : Byte) : (s.pushOut p b).scan = s.scan := rfl
@[simp] theorem State.pushOut_fs (s : State) (p : Params) (b : Byte) : (s.pushOut p b).fs = s.fs := rfl
@[simp] theorem State.pushOut_out (s : State) (p : Params) (b : Byte) : (s.pushOut p b).out = s.out := rfl
@[simp] theorem State.pushOut_fg (s : State) (p : Params) (b : Byte) : (s.pushOut p b).fg = s.fg := rfl
@[simp] theorem State.pushOut_env (s : State) (p : Params) (b : Byte) : (s.pushOut p b).env = s.env := rfl

@[simp] theorem State.setChan_inbound (s : State) (c : Channel) : s.setChan .inbound c = s.setIn c := rfl
@[simp] theorem State.chan_inbound (s : State) : s.chan .inbound = s.inCh := rfl
@[simp] theorem State.setChan_outbound (s : State) (c : Channel) : s.setChan .outbound c = s.setOut c := rfl
@[simp] theorem State.chan_outbound (s : State) : s.chan .outbound = s.outCh := rfl
@[simp] theorem State.setChan_dec (s : State) (ch : Chan) (c : Channel) : (s.setChan ch c).dec = s.dec := by cases ch <;> rfl
@[simp] theorem State.setChan_hnd (s : State) (ch : Chan) (c : Channel) : (s.setChan ch c).hnd = s.hnd := by cases ch <;> rfl
@[simp] theorem State.setChan_scan (s : State) (ch : Chan) (c : Channel) : (s.setChan ch c).scan = s.scan := by cases ch <;> rfl
@[simp] theorem State.setChan_fs (s : State) (ch : Chan) (c : Channel) : (s.setChan ch c).fs = s.fs := by cases ch <;> rfl
@[simp] theorem State.setChan_out (s : State) (ch : Chan) (c : Channel) : (s.setChan ch c).out = s.out := by cases ch <;> rfl
@[simp] theorem State.setChan_fg (s : State) (ch : Chan) (c : Channel) : (s.setChan ch c).fg = s.fg := by cases ch <;> rfl
@[simp] theorem State.setChan_env (s : State) (ch : Chan) (c : Channel) : (s.setChan ch c).env = s.env := by cases ch <;> rfl

@[simp] theorem irqEntry_eq (s : State) : irqEntry s = s := rfl
@[simp] theorem irqReturn_eq (s : State) : irqReturn s = s := rfl

/-- Interrupt entry and return change nothing (spec/60_exceptions.md R235, R236). -/
@[simp] theorem service_eq (body : State → State) (s : State) : service body s = .next (body s) := rfl

/-- Every counter but the one counted keeps its value, and that one gains one. -/
theorem Stats.bump_get (t : Stats) (sel k : StatSel) : (t.bump sel).get k = if k = sel then t.get k + 1 else t.get k := by
  cases sel <;> cases k <;> rfl

@[simp] theorem Channel.tally_buf (c : Channel) (sel : StatSel) : (c.tally sel).buf = c.buf := rfl
@[simp] theorem Channel.tally_wr (c : Channel) (sel : StatSel) : (c.tally sel).wr = c.wr := rfl
@[simp] theorem Channel.tally_rd (c : Channel) (sel : StatSel) : (c.tally sel).rd = c.rd := rfl
@[simp] theorem Channel.tally_stat (c : Channel) (sel : StatSel) : (c.tally sel).stat = c.stat.bump sel := rfl
@[simp] theorem Channel.tallyIf_buf (c : Channel) (b : Bool) (sel : StatSel) : (c.tallyIf b sel).buf = c.buf := by
  cases b <;> rfl
@[simp] theorem Channel.tallyIf_wr (c : Channel) (b : Bool) (sel : StatSel) : (c.tallyIf b sel).wr = c.wr := by
  cases b <;> rfl
@[simp] theorem Channel.tallyIf_rd (c : Channel) (b : Bool) (sel : StatSel) : (c.tallyIf b sel).rd = c.rd := by
  cases b <;> rfl
theorem Channel.tallyIf_stat (c : Channel) (b : Bool) (sel : StatSel) :
    (c.tallyIf b sel).stat = if b then c.stat.bump sel else c.stat := by
  cases b <;> rfl

/-- What a foreground draw of columns does: the sample waiting, or a free value and the draw counted. -/
theorem State.colsDraw_cases (s : State) :
    (∃ c rest, s.env.cols = c :: rest ∧ s.colsDraw = c ∧ s.afterColsDraw = s.setEnv { s.env with cols := rest }) ∨
    (s.env.cols = [] ∧ s.colsDraw = Config.freeCols s.env.draws ∧
      s.afterColsDraw = s.setEnv { s.env with draws := s.env.draws + 1 }) := by
  cases h : s.env.cols with
  | nil => exact .inr ⟨rfl, by simp [State.colsDraw, h], by simp [State.afterColsDraw, h]⟩
  | cons c rest => exact .inl ⟨c, rest, rfl, by simp [State.colsDraw, h], by simp [State.afterColsDraw, h]⟩

/-- What a foreground draw of an iteration count does: the count waiting, or a free value and the draw counted. -/
theorem State.itersDraw_cases (s : State) :
    (∃ n rest, s.env.iters = n :: rest ∧ s.itersDraw = n ∧ s.afterItersDraw = s.setEnv { s.env with iters := rest }) ∨
    (s.env.iters = [] ∧ s.itersDraw = Config.freeIters s.env.draws ∧
      s.afterItersDraw = s.setEnv { s.env with draws := s.env.draws + 1 }) := by
  cases h : s.env.iters with
  | nil => exact .inr ⟨rfl, by simp [State.itersDraw, h], by simp [State.afterItersDraw, h]⟩
  | cons c rest => exact .inl ⟨c, rest, rfl, by simp [State.itersDraw, h], by simp [State.afterItersDraw, h]⟩

end Sys2Proof.Machine
end

