-- ==== Sys2Proof/Laws/Channel.lean ====
section
/-! SUPPORT. What each channel primitive does, once (spec/40_byte_channel.md R114 to R117), and the ring's arithmetic
(spec/10_state.md R25). -/

namespace Sys2Proof.Machine

@[simp] theorem Channel.has_iff (c : Channel) : c.has = true ↔ c.wr ≠ c.rd := by simp [Channel.has]
theorem Channel.has_eq_false_iff (c : Channel) : c.has = false ↔ c.wr = c.rd := by simp [Channel.has]
@[simp] theorem Channel.full_iff (size : Nat) (c : Channel) : c.full size = true ↔ (c.wr + 1) % size = c.rd := by
  simp [Channel.full]
theorem Channel.full_eq_false_iff (size : Nat) (c : Channel) : c.full size = false ↔ (c.wr + 1) % size ≠ c.rd := by
  simp [Channel.full]

/-- A refused enqueue counts an overflow and changes nothing else. -/
theorem Channel.push_of_full {size : Nat} {c : Channel} (h : (c.wr + 1) % size = c.rd) (b : Byte) :
    c.push size b = { c with stat := { c.stat with overflow := c.stat.overflow + 1 } } ∧ c.accepts size = false := by
  simp [Channel.push, Channel.accepts, Channel.full, h, Channel.tally, Stats.bump]

/-- An accepted enqueue writes one slot and advances `wr`. -/
theorem Channel.push_of_not_full {size : Nat} {c : Channel} (h : (c.wr + 1) % size ≠ c.rd) (b : Byte) :
    c.push size b = { c with buf := Memory.write 0 c.buf c.wr b, wr := (c.wr + 1) % size } ∧
      c.accepts size = true := by
  simp [Channel.push, Channel.accepts, Channel.full, h, Channel.store, Channel.publishWr]

/-- An enqueue never writes `rd`. -/
@[simp] theorem Channel.push_rd (size : Nat) (c : Channel) (b : Byte) : (c.push size b).rd = c.rd := by
  unfold Channel.push; split <;> rfl

/-- The slots after an enqueue. -/
theorem Channel.push_byteAt {size : Nat} {c : Channel} (h : (c.wr + 1) % size ≠ c.rd) (b : Byte) (j : Nat) :
    (c.push size b).byteAt j = if j = c.wr then b else c.byteAt j := by
  simp [(Channel.push_of_not_full h b).1, Channel.byteAt]

@[simp] theorem Channel.pop_buf (size : Nat) (c : Channel) : (c.pop size).buf = c.buf := rfl
@[simp] theorem Channel.pop_wr (size : Nat) (c : Channel) : (c.pop size).wr = c.wr := rfl
@[simp] theorem Channel.pop_rd (size : Nat) (c : Channel) : (c.pop size).rd = (c.rd + 1) % size := rfl
@[simp] theorem Channel.pop_stat (size : Nat) (c : Channel) : (c.pop size).stat = c.stat := rfl
@[simp] theorem Channel.pop_byteAt (size : Nat) (c : Channel) (j : Nat) : (c.pop size).byteAt j = c.byteAt j := rfl

/-! ## Ranges -/

theorem Channel.reset_inRange {size : Nat} (h : 0 < size) : Channel.reset.InRange size := ⟨h, h, rfl, rfl⟩

theorem Channel.InRange.tally {size : Nat} {c : Channel} (h : c.InRange size) (sel : StatSel) :
    (c.tally sel).InRange size := ⟨h.wr_lt, h.rd_lt, h.buf_wf, h.buf_within⟩

theorem Channel.InRange.tallyIf {size : Nat} {c : Channel} (h : c.InRange size) (b : Bool) (sel : StatSel) :
    (c.tallyIf b sel).InRange size := by
  cases b
  · exact h
  · exact h.tally sel

theorem Channel.InRange.push {size : Nat} {c : Channel} (h : c.InRange size) (b : Byte) :
    (c.push size b).InRange size := by
  have hs : 0 < size := Nat.lt_of_le_of_lt (Nat.zero_le _) h.wr_lt
  by_cases hf : (c.wr + 1) % size = c.rd
  · rw [(Channel.push_of_full hf b).1]; exact ⟨h.wr_lt, h.rd_lt, h.buf_wf, h.buf_within⟩
  · rw [(Channel.push_of_not_full hf b).1]
    exact ⟨Nat.mod_lt _ hs, h.rd_lt, Memory.wf_write 0 _ _ _ h.buf_wf,
      Memory.within_write 0 _ _ _ _ h.wr_lt h.buf_within⟩

theorem Channel.InRange.pop {size : Nat} {c : Channel} (h : c.InRange size) : (c.pop size).InRange size :=
  ⟨h.wr_lt, Nat.mod_lt _ (Nat.lt_of_le_of_lt (Nat.zero_le _) h.wr_lt), h.buf_wf, h.buf_within⟩

theorem Channel.InRange.init {size : Nat} {c : Channel} (h : c.InRange size) : (c.init size).InRange size :=
  have hs : 0 < size := Nat.lt_of_le_of_lt (Nat.zero_le _) h.wr_lt
  ⟨hs, hs, Memory.wf_clear 0 _ _ h.buf_wf, Memory.within_clear _ _ _ h.buf_within⟩

/-- Initialising a channel in range gives its reset value (R117). -/
theorem Channel.InRange.init_eq_reset {size : Nat} {c : Channel} (h : c.InRange size) : c.init size = Channel.reset := by
  simp [Channel.init, Channel.reset, Memory.clear_of_within _ _ h.buf_within]

/-! ## The receive handler (R120) -/

/-- The receive handler never writes `rd`. -/
@[simp] theorem rxChannel_rd (size : Nat) (avail : Bool) (b : Byte) (pe fe oe : Bool) (c : Channel) :
    (rxChannel size avail b pe fe oe c).rd = c.rd := by
  unfold rxChannel; cases avail <;> simp
  split <;> simp

/-- Everything the receive handler can do. -/
theorem rxChannel_cases (size : Nat) (avail : Bool) (b : Byte) (pe fe oe : Bool) (c : Channel) :
    (avail = false ∧ rxChannel size avail b pe fe oe c = c.tally .ints) ∨
    (avail = true ∧ lineError pe fe oe = true ∧
      rxChannel size avail b pe fe oe c =
        (((c.tally .ints).tallyIf pe .parity).tallyIf fe .framing).tallyIf oe .overrun) ∨
    (avail = true ∧ lineError pe fe oe = false ∧ (c.wr + 1) % size = c.rd ∧
      rxChannel size avail b pe fe oe c = (c.tally .ints).tally .overflow) ∨
    (avail = true ∧ lineError pe fe oe = false ∧ (c.wr + 1) % size ≠ c.rd ∧
      rxChannel size avail b pe fe oe c = ((c.tally .ints).push size b).tally .bytes) := by
  cases avail
  · exact .inl ⟨rfl, rfl⟩
  · cases he : lineError pe fe oe
    · have hp : pe = false ∧ fe = false ∧ oe = false := by
        simpa [lineError, and_assoc] using he
      obtain ⟨rfl, rfl, rfl⟩ := hp
      by_cases hf : (c.wr + 1) % size = c.rd
      · refine .inr (.inr (.inl ⟨rfl, rfl, hf, ?_⟩))
        simp [rxChannel, lineError, Channel.tallyIf, Channel.push, Channel.accepts, Channel.full, hf]
      · refine .inr (.inr (.inr ⟨rfl, rfl, hf, ?_⟩))
        simp [rxChannel, lineError, Channel.tallyIf, Channel.push, Channel.accepts, Channel.full, hf]
    · exact .inr (.inl ⟨rfl, rfl, by simp [rxChannel, he]⟩)

theorem Channel.InRange.rx {size : Nat} {c : Channel} (h : c.InRange size) (avail : Bool) (b : Byte) (pe fe oe : Bool) :
    (rxChannel size avail b pe fe oe c).InRange size := by
  rcases rxChannel_cases size avail b pe fe oe c with ⟨-, e⟩ | ⟨-, -, e⟩ | ⟨-, -, -, e⟩ | ⟨-, -, -, e⟩ <;> rw [e]
  · exact h.tally _
  · exact (((h.tally _).tallyIf _ _).tallyIf _ _).tallyIf _ _
  · exact (h.tally _).tally _
  · exact ((h.tally _).push _).tally _

/-! ## The transmit handler (R122) -/

/-- The transmit handler either finds `OUT` empty and counts the service only, or sends the oldest byte. -/
theorem txBody_cases (p : Params) (s : State) :
    (s.outCh.wr = s.outCh.rd ∧ txBody p s = s.setOut (s.outCh.tally .ints)) ∨
    (s.outCh.wr ≠ s.outCh.rd ∧ txBody p s = { s with
      outCh := (((s.outCh.tally .ints).pop p.sizeOut).tally .bytes)
      out := { s.out with txOut := s.out.txOut ++ [s.outCh.oldest] } }) := by
  by_cases h : s.outCh.wr = s.outCh.rd
  · exact .inl ⟨h, by simp [txBody, Channel.has, h]⟩
  · exact .inr ⟨h, by simp [txBody, Channel.has, h, State.setOut, State.emitTx, State.setStreams, Channel.oldest,
      Channel.byteAt]⟩

/-! ## The ring as a queue (R25) -/

/-- Occupancy by cases on the order of the cursors. -/
theorem Channel.count_eq {size : Nat} {c : Channel} (hw : c.wr < size) (hr : c.rd < size) :
    c.count size = if c.rd ≤ c.wr then c.wr - c.rd else size + c.wr - c.rd := by
  unfold Channel.count
  rw [Nat.mod_eq_of_lt hr]
  split
  · rename_i h
    have : c.wr + (size - c.rd) = (c.wr - c.rd) + size := by omega
    rw [this, Nat.add_mod_right, Nat.mod_eq_of_lt (by omega)]
  · rw [Nat.mod_eq_of_lt (by omega)]; omega

/-- The successor of a cursor. -/
theorem succ_mod_eq {x size : Nat} (h : x < size) : (x + 1) % size = if x + 1 = size then 0 else x + 1 := by
  split
  · rename_i e; rw [e, Nat.mod_self]
  · exact Nat.mod_eq_of_lt (by omega)

/-- A position of the ring counted from `rd`. -/
theorem add_mod_ring {r j size : Nat} (hr : r < size) (hj : j < size) :
    (r + j) % size = if r + j < size then r + j else r + j - size := by
  split
  · rename_i h; exact Nat.mod_eq_of_lt h
  · rw [Nat.mod_eq_sub_mod (by omega), Nat.mod_eq_of_lt (by omega)]

@[simp] theorem Channel.fifo_length (size : Nat) (c : Channel) : (c.fifo size).length = c.count size := by
  simp [Channel.fifo]

/-- An accepted enqueue appends its byte to the queue. -/
theorem Channel.fifo_push {size : Nat} {c : Channel} (h : c.InRange size) (hf : (c.wr + 1) % size ≠ c.rd) (b : Byte) :
    (c.push size b).fifo size = c.fifo size ++ [b] := by
  have hw := h.wr_lt
  have hr := h.rd_lt
  have hs := succ_mod_eq hw
  have hc := Channel.count_eq hw hr
  have hp : (c.push size b).wr = (c.wr + 1) % size := by simp [(Channel.push_of_not_full hf b).1]
  have hc' : (c.push size b).count size = c.count size + 1 := by
    rw [Channel.count_eq (by rw [hp]; exact Nat.mod_lt _ (by omega)) (by simpa using hr), hp, Channel.push_rd, hc, hs]
    split_ifs at * <;> omega
  unfold Channel.fifo
  rw [hc', List.range_succ, List.map_append, List.map_singleton, Channel.push_rd]
  congr 1
  · refine List.map_congr_left fun j hj => ?_
    rw [List.mem_range] at hj
    rw [Channel.push_byteAt hf, if_neg]
    rw [add_mod_ring hr (by split_ifs at * <;> omega)]
    split_ifs at * <;> omega
  · congr 1
    rw [Channel.push_byteAt hf, if_pos]
    rw [hc]
    split_ifs with h1
    · rw [Nat.mod_eq_of_lt (by omega)]; omega
    · have : c.rd + (size + c.wr - c.rd) = c.wr + size := by omega
      rw [this, Nat.add_mod_right, Nat.mod_eq_of_lt hw]

/-- A dequeue takes the head of the queue. -/
theorem Channel.fifo_pop {size : Nat} {c : Channel} (h : c.InRange size) (hne : c.wr ≠ c.rd) :
    c.fifo size = c.oldest :: (c.pop size).fifo size := by
  have hw := h.wr_lt
  have hr := h.rd_lt
  have hs := succ_mod_eq hr
  have hc := Channel.count_eq hw hr
  have hc' : c.count size = (c.pop size).count size + 1 := by
    rw [Channel.count_eq (c := c.pop size) hw (by rw [Channel.pop_rd]; exact Nat.mod_lt _ (by omega)), Channel.pop_rd,
      Channel.pop_wr, hc, hs]
    split_ifs at * <;> omega
  unfold Channel.fifo
  rw [hc', List.range_succ_eq_map, List.map_cons, Nat.add_zero, Nat.mod_eq_of_lt hr, List.map_map]
  congr 1
  refine List.map_congr_left fun j _ => ?_
  simp only [Function.comp, Channel.pop_byteAt, Channel.pop_rd, Nat.succ_eq_add_one]
  congr 1
  rw [Nat.mod_add_mod]
  congr 1; omega

/-- A refused enqueue leaves the queue. -/
theorem Channel.fifo_push_full {size : Nat} {c : Channel} (hf : (c.wr + 1) % size = c.rd) (b : Byte) :
    (c.push size b).fifo size = c.fifo size := by
  rw [(Channel.push_of_full hf b).1]; rfl

end Sys2Proof.Machine
end

