-- ==== Sys2Proof/Laws/Config.lean ====
section
/-! SUPPORT. The machine's parameters are legal (spec/92_eei_decisions.md part 2). -/

namespace Sys2Proof

theorem Config.cols_range : 1 ≤ Config.cols ∧ Config.cols ≤ 32 := by
  have h := Config.colsFree.isLt
  unfold Config.cols; omega

theorem Config.rows_mul_cols_le : Config.rows * Config.cols ≤ 65536 := by
  have hc := Config.cols_range
  have h1 : Config.rowsFree % (65536 / Config.cols) < 65536 / Config.cols :=
    Nat.mod_lt _ (Nat.div_pos (by omega) (by omega))
  calc Config.rows * Config.cols ≤ 65536 / Config.cols * Config.cols := Nat.mul_le_mul_right _ h1
    _ ≤ 65536 := Nat.div_mul_le_self _ _

theorem noteOffNibble_legal : ∀ c, 8 ≤ (noteOffNibble c).toNat ∧ noteOffNibble c ≠ noteOnNibble := by decide

theorem Config.noteOff_legal : 8 ≤ Config.noteOff.toNat ∧ Config.noteOff ≠ noteOnNibble :=
  noteOffNibble_legal Config.noteOffChosen

/-- The machine's parameters are in the spec's ranges. -/
theorem Config.params_valid : Config.params.Valid := by
  have hc := Config.cols_range
  have hr : 1 ≤ Config.rows := Nat.le_add_left _ _
  have hn := Config.noteOff_legal
  have h1 := Config.nDownFree.isLt
  have h2 := Config.nUpFree.isLt
  have h3 := Config.nLedsFree.isLt
  refine ⟨Nat.le_add_left _ _, Nat.le_add_left _ _, hn.1, hn.2, hr, hc.1, hc.2, Config.rows_mul_cols_le, ?_⟩
  simp only [Config.params]
  omega

/-- Every legal note-off nibble is one that some choice stands for, and the default is the one that no choice gives. -/
theorem noteOffNibble_onto (v : BitVec 4) (h : 8 ≤ v.toNat) (h9 : v ≠ noteOnNibble) :
    ∃ c, noteOffNibble c = v ∧ (c = none ↔ v = noteOffDefault) := by
  revert v; decide

end Sys2Proof
end

