-- ==== Sys2Proof/Laws/Decode.lean ====
section
/-! SUPPORT. The pieces of the encoding round trip: fields and bytes, select codes, and words and their bytes. -/

namespace Sys2Proof

/-- A 16-bit field is read back from its two bytes. -/
@[simp] theorem Half.ofBytes_hi_lo (x : Half) : Half.ofBytes (Half.hi x) (Half.lo x) = x := by
  apply BitVec.eq_of_toNat_eq
  have h := x.isLt
  simp only [Half.ofBytes, Half.hi, Half.lo, BitVec.toNat_ofNat]
  omega

/-- Two bytes are read back from the 16-bit field they make. -/
theorem Half.hi_lo_ofBytes (h l : Byte) : Half.hi (Half.ofBytes h l) = h ∧ Half.lo (Half.ofBytes h l) = l := by
  have hh := h.isLt
  have hl := l.isLt
  constructor <;> apply BitVec.eq_of_toNat_eq <;>
    simp only [Half.ofBytes, Half.hi, Half.lo, BitVec.toNat_ofNat] <;> omega

/-- A command's six bytes decode as its fields do. -/
@[simp] theorem decode_fields_bytes (f : Fields) : decode f.bytes = decodeCommand f := by
  simp [Fields.bytes, decode]

theorem Chan.ofCode_code (ch : Chan) : Chan.ofCode ch.code = some ch := by cases ch <;> rfl
theorem StatSel.ofCode_code (sel : StatSel) : StatSel.ofCode sel.code = some sel := by cases sel <;> rfl
theorem HndSel.ofCode_code (sel : HndSel) : HndSel.ofCode sel.code = some sel := by cases sel <;> rfl
theorem bitOfCode_bitCode (b : Bool) : bitOfCode (bitCode b) = some b := by cases b <;> rfl

/-- A code is the code of the channel it names. -/
theorem Chan.code_of_ofCode {n : Nat} {ch : Chan} (h : Chan.ofCode n = some ch) : ch.code = n := by
  unfold Chan.ofCode at h; split at h <;> simp_all <;> subst h <;> rfl

/-- A code is the code of the counter it names. -/
theorem StatSel.code_of_ofCode {n : Nat} {sel : StatSel} (h : StatSel.ofCode n = some sel) : sel.code = n := by
  unfold StatSel.ofCode at h; split at h <;> simp_all <;> subst h <;> rfl

/-- A code is the code of the handler it names. -/
theorem HndSel.code_of_ofCode {n : Nat} {sel : HndSel} (h : HndSel.ofCode n = some sel) : sel.code = n := by
  unfold HndSel.ofCode at h; split at h <;> simp_all <;> subst h <;> rfl

/-- A code is the code of the bit it is. -/
theorem bitCode_of_bitOfCode {n : Nat} {b : Bool} (h : bitOfCode n = some b) : bitCode b = n := by
  unfold bitOfCode at h; split at h <;> simp_all <;> subst h <;> rfl

@[simp] theorem bytesOfWord_length (n w : Nat) : (bytesOfWord n w).length = n := by
  induction n generalizing w with
  | zero => rfl
  | succ n ih => simp [bytesOfWord, ih]

theorem wordOfBytes_lt (bs : List Byte) : wordOfBytes bs < 256 ^ bs.length := by
  induction bs with
  | nil => simp [wordOfBytes]
  | cons b bs ih =>
    have hb := b.isLt
    simp only [wordOfBytes, List.length_cons, Nat.pow_succ]
    calc b.toNat * 256 ^ bs.length + wordOfBytes bs < b.toNat * 256 ^ bs.length + 256 ^ bs.length := by omega
      _ = (b.toNat + 1) * 256 ^ bs.length := by ring
      _ ≤ 256 * 256 ^ bs.length := Nat.mul_le_mul_right _ (by omega)
      _ = 256 ^ bs.length * 256 := by ring

/-- The bytes of a word do not depend on what lies above them. -/
theorem bytesOfWord_add_mul (n a w : Nat) : bytesOfWord n (a * 256 ^ n + w) = bytesOfWord n w := by
  induction n generalizing a w with
  | zero => rfl
  | succ n ih =>
    have h1 : a * 256 ^ (n + 1) + w = a * 256 * 256 ^ n + w := by ring
    have hdiv : (a * 256 * 256 ^ n + w) / 256 ^ n = a * 256 + w / 256 ^ n := by
      rw [Nat.add_comm, Nat.add_mul_div_right _ _ (by positivity), Nat.add_comm]
    simp only [bytesOfWord, h1, ih, hdiv]
    congr 1
    apply BitVec.eq_of_toNat_eq
    simp only [BitVec.toNat_ofNat]
    omega

/-- The bytes of the word that bytes make are those bytes. -/
@[simp] theorem bytesOfWord_wordOfBytes (bs : List Byte) : bytesOfWord bs.length (wordOfBytes bs) = bs := by
  induction bs with
  | nil => rfl
  | cons b bs ih =>
    have hlt := wordOfBytes_lt bs
    have hdiv : (b.toNat * 256 ^ bs.length + wordOfBytes bs) / 256 ^ bs.length = b.toNat := by
      rw [Nat.add_comm, Nat.add_mul_div_right _ _ (by positivity), Nat.div_eq_of_lt hlt, Nat.zero_add]
    simp only [List.length_cons, bytesOfWord, wordOfBytes, hdiv, bytesOfWord_add_mul, ih, BitVec.ofNat_toNat,
      BitVec.setWidth_eq]

/-- A command is six bytes and a well-formed event service two (R89, R94). -/
theorem encode_length (i : Instr) (h : i.wellFormed = true) :
    (encode i).length = if i.isCommand then 6 else 2 := by
  cases i <;> simp [encode, Instr.fields, Instr.isCommand, Instr.eventBytes, Fields.bytes, Instr.wellFormed] at *
  subst h; rfl

end Sys2Proof
end

