-- ==== Sys2Proof/Laws/Frame.lean ====
section
/-! SUPPORT. What the frame store's operations do, once (spec/43_frame_store.md R191 to R195). -/

namespace Sys2Proof.Machine

/-- The positions after a write. -/
@[simp] theorem FrameStore.set_ledAt (f : FrameStore) (idx : Nat) (c : Colour) (i : Nat) :
    (f.set idx c).ledAt i = if i = idx then c else f.ledAt i := by
  simp [FrameStore.set, FrameStore.ledAt]

@[simp] theorem FrameStore.set_dirty (f : FrameStore) (idx : Nat) (c : Colour) :
    (f.set idx c).dirty = raiseDirty f.dirty idx := rfl

/-- A raised mark is the maximum, NONE below every index (spec/20_memory.md R65 (h)). -/
theorem raiseDirty_some (d idx : Nat) : raiseDirty (some d) idx = some (max d idx) := by
  simp only [raiseDirty]; split_ifs <;> congr 1 <;> omega

@[simp] theorem raiseDirty_none (idx : Nat) : raiseDirty none idx = some idx := rfl

/-- The positions after clearing the array. -/
theorem FrameStore.clear_ledAt (f : FrameStore) (n : Nat) (d : Option Nat) (i : Nat) :
    FrameStore.ledAt ⟨Memory.clear n f.led, d⟩ i = if i < n then Colour.zero else f.ledAt i := by
  simp [FrameStore.ledAt]

/-- A flush sends three bytes a position. -/
theorem flatMap_components_length (f : Nat → Colour) (n : Nat) :
    ((List.range n).flatMap fun i => (f i).components).length = 3 * n := by
  induction n with
  | zero => rfl
  | succ n ih => rw [List.range_succ, List.flatMap_append, List.length_append, ih]; simp [Colour.components]; omega

/-- Where each component of a position stands among the bytes of a flush. -/
theorem flatMap_components_getElem? (f : Nat → Colour) (n i : Nat) (h : i < n) :
    ((List.range n).flatMap fun i => (f i).components)[3 * i]? = some (f i).c0 ∧
    ((List.range n).flatMap fun i => (f i).components)[3 * i + 1]? = some (f i).c1 ∧
    ((List.range n).flatMap fun i => (f i).components)[3 * i + 2]? = some (f i).c2 := by
  induction n with
  | zero => omega
  | succ n ih =>
    have hl := flatMap_components_length f n
    rw [List.range_succ, List.flatMap_append]
    by_cases hi : i < n
    · rw [List.getElem?_append_left (by omega), List.getElem?_append_left (by omega),
        List.getElem?_append_left (by omega)]
      exact ih hi
    · have hin : i = n := by omega
      subst hin
      rw [List.getElem?_append_right (by omega), List.getElem?_append_right (by omega),
        List.getElem?_append_right (by omega), hl]
      refine ⟨?_, ?_, ?_⟩
      · simp [Colour.components]
      · rw [show 3 * i + 1 - 3 * i = 1 by omega]; simp [Colour.components]
      · rw [show 3 * i + 2 - 3 * i = 2 by omega]; simp [Colour.components]

/-- A colour's response data as a number (R194). -/
theorem Colour.toWord_toNat (c : Colour) :
    c.toWord.toNat = c.c0.toNat * 65536 + c.c1.toNat * 256 + c.c2.toNat := by
  have h0 := c.c0.isLt
  have h1 := c.c1.isLt
  have h2 := c.c2.isLt
  have e1 : c.c0.toNat <<< 16 ||| c.c1.toNat <<< 8 = c.c0.toNat * 65536 + c.c1.toNat * 256 := by
    rw [Nat.shiftLeft_eq c.c1.toNat, ← Nat.shiftLeft_add_eq_or_of_lt (by omega), Nat.shiftLeft_eq]
  have e2 : c.c0.toNat * 65536 + c.c1.toNat * 256 ||| c.c2.toNat =
      c.c0.toNat * 65536 + c.c1.toNat * 256 + c.c2.toNat := by
    rw [show c.c0.toNat * 65536 + c.c1.toNat * 256 = (c.c0.toNat * 256 + c.c1.toNat) <<< 8 by
      rw [Nat.shiftLeft_eq]; ring, ← Nat.shiftLeft_add_eq_or_of_lt (by omega)]
  have m0 : c.c0.toNat <<< 16 < 4294967296 := by rw [Nat.shiftLeft_eq]; omega
  have m1 : c.c1.toNat <<< 8 < 4294967296 := by rw [Nat.shiftLeft_eq]; omega
  simp only [Colour.toWord, byteWord, BitVec.toNat_or, BitVec.toNat_shiftLeft, BitVec.toNat_setWidth]
  rw [Nat.mod_eq_of_lt (a := c.c0.toNat) (by omega), Nat.mod_eq_of_lt (a := c.c1.toNat) (by omega),
    Nat.mod_eq_of_lt (a := c.c2.toNat) (by omega), Nat.mod_eq_of_lt m0, Nat.mod_eq_of_lt m1, e1, e2]

end Sys2Proof.Machine
end

