-- ==== Sys2Proof/Laws/Framer.lean ====
section
/-! SUPPORT. What a decode step, a decode poll and the byte classes do, once (spec/30_encoding.md R82,
spec/41_protocol_framer.md R140 to R151). -/

namespace Sys2Proof.Machine

/-- Bit 7 of a byte as a bound on its value (R82). -/
theorem isStatus_iff (b : Byte) : isStatus b = true ↔ 0x80 ≤ b.toNat := by
  revert b; decide

theorem isData_iff (b : Byte) : isData b = true ↔ b.toNat < 0x80 := by
  revert b; decide

/-- Masking to seven bits gives a data byte (R83). -/
theorem isData_mask7 (b : Byte) : isData (mask7 b) = true := by
  revert b; decide

/-- A status byte's top nibble is at least 8, and only a status byte's is. -/
theorem topNibble_ge_iff (b : Byte) : 8 ≤ (topNibble b).toNat ↔ isStatus b = true := by
  revert b; decide

/-- A recognised command byte is a status byte (R82: `is_cmd` implies `is_status`). -/
theorem isStatus_of_isCmd {p : Params} (hp : p.Valid) {b : Byte} (h : isCmd p b = true) : isStatus b = true := by
  rw [← topNibble_ge_iff]
  simp only [isCmd, isNoteOn, Bool.or_eq_true, beq_iff_eq] at h
  rcases h with h | h <;> rw [h]
  · decide
  · exact hp.2.2.1

/-- A decode step writes the decoder record and appends its records, nothing else. -/
theorem State.decStep_eq (p : Params) (s : State) (b : Byte) :
    s.decStep p b = { s with
      dec := decNext p s.dec b
      out := { s.out with fgOut := s.out.fgOut ++ decRecords s.hnd s.dec b } } := rfl

/-- A decode poll either finds `IN` empty and does nothing, or takes its oldest byte through one decode step. -/
theorem State.decodeOne_cases (p : Params) (s : State) :
    (s.inCh.wr = s.inCh.rd ∧ s.decodeOne p = s) ∨
    (s.inCh.wr ≠ s.inCh.rd ∧ s.decodeOne p = { s with
      inCh := s.inCh.pop p.sizeIn
      dec := decNext p s.dec s.inCh.oldest
      out := { s.out with fgOut := s.out.fgOut ++ decRecords s.hnd s.dec s.inCh.oldest } }) := by
  by_cases h : s.inCh.wr = s.inCh.rd
  · exact .inl ⟨h, by simp [State.decodeOne, Channel.has, h]⟩
  · exact .inr ⟨h, by simp [State.decodeOne, Channel.has, h, State.decStep_eq, State.setIn]⟩

/-- A decode step keeps the latched bytes of their classes (R27). -/
theorem Decoder.Consistent.next {p : Params} {d : Decoder} (h : d.Consistent p) (b : Byte) :
    (decNext p d b).Consistent p := by
  obtain ⟨st, cmd, note⟩ := d
  cases st
  · by_cases hb : isCmd p b = true <;> simp_all [decNext, Decoder.Consistent]
  · by_cases hb : isData b = true <;> simp_all [decNext, Decoder.Consistent]
  · simp [decNext, Decoder.Consistent]

/-- The records of a decode step carry seven-bit payloads (R84). -/
theorem decRecords_legal {p : Params} {d : Decoder} (hd : d.Consistent p) (h : Handlers) (b : Byte) :
    ∀ r ∈ decRecords h d b, r.Legal p := by
  obtain ⟨st, cmd, note⟩ := d
  intro r hr
  cases st
  · simp [decRecords] at hr
  · simp [decRecords] at hr
  · by_cases hb : isData b = true
    · have hn : isData note = true := hd.2
      simp only [decRecords, hb, if_true, noteRecords] at hr
      split at hr <;> split at hr <;> simp_all [FgRecord.Legal]
    · simp [decRecords, hb] at hr

/-- Feeding two byte sequences one after the other. -/
theorem feedBytes_append (p : Params) (h : Handlers) (d : Decoder) (xs ys : List Byte) :
    feedBytes p h d (xs ++ ys) =
      ((feedBytes p h (feedBytes p h d xs).1 ys).1,
        (feedBytes p h d xs).2 ++ (feedBytes p h (feedBytes p h d xs).1 ys).2) := by
  induction xs generalizing d with
  | nil => rfl
  | cons x xs ih => simp [feedBytes, ih]

end Sys2Proof.Machine
end

