-- ==== Sys2Proof/Laws/PerInstr.lean ====
section
/-! SUPPORT. The family `Encoding`: for each operation, decoding its encoding gives it back (spec/30_encoding.md R89 to R94). -/

namespace Sys2Proof.Laws

open Sys2Proof

/-- The bytes of a well-formed operation decode to it. -/
def Encoding.Statement (i : Instr) : Prop := i.wellFormed = true → decode (encode i) = .ok i

theorem Encoding.chInit (ch : Chan) : Encoding.Statement (.chInit ch) := fun _ => by
  cases ch <;> decide

theorem Encoding.rxPop : Encoding.Statement .rxPop := fun _ => by decide

theorem Encoding.chHas (ch : Chan) : Encoding.Statement (.chHas ch) := fun _ => by
  cases ch <;> decide

theorem Encoding.txPush (byte : Byte) : Encoding.Statement (.txPush byte) := fun _ => by
  simp [encode, Instr.fields, decodeCommand, Fields.formatB]

theorem Encoding.statRd (ch : Chan) (sel : StatSel) : Encoding.Statement (.statRd ch sel) := fun _ => by
  cases ch <;> cases sel <;> decide

theorem Encoding.decInit : Encoding.Statement .decInit := fun _ => by decide

theorem Encoding.decPoll : Encoding.Statement .decPoll := fun _ => by decide

theorem Encoding.encSend (cmd note vel : Byte) : Encoding.Statement (.encSend cmd note vel) := fun _ => by
  simp [encode, Instr.fields, decodeCommand, Fields.formatT]

theorem Encoding.hndSet (sel : HndSel) (en : Bool) : Encoding.Statement (.hndSet sel en) := fun _ => by
  cases sel <;> cases en <;> decide

theorem Encoding.scanInit : Encoding.Statement .scanInit := fun _ => by decide

theorem Encoding.scanTick : Encoding.Statement .scanTick := fun _ => by decide

theorem Encoding.fsInit : Encoding.Statement .fsInit := fun _ => by decide

theorem Encoding.fsSet (idx : Half) (c0 c1 c2 : Byte) : Encoding.Statement (.fsSet idx c0 c1 c2) := fun _ => by
  simp [encode, Instr.fields, decodeCommand, Fields.formatXT]

theorem Encoding.fsClr : Encoding.Statement .fsClr := fun _ => by decide

theorem Encoding.fsGet (idx : Half) : Encoding.Statement (.fsGet idx) := fun _ => by
  simp [encode, Instr.fields, decodeCommand, Fields.formatX]

theorem Encoding.delay (ms : Half) (p : Bool) : Encoding.Statement (.delay ms p) := fun _ => by
  cases p <;> simp [encode, Instr.fields, decodeCommand, Fields.formatXP, bitCode, bitOfCode, orReserved]

theorem Encoding.irqFlush : Encoding.Statement .irqFlush := fun _ => by decide

theorem Encoding.irqRx (avail : Bool) (data : Byte) (pe fe oe : Bool) :
    Encoding.Statement (.irqRx avail data pe fe oe) := fun h => by
  have ha : avail = true := h
  subst ha
  cases pe <;> cases fe <;> cases oe <;> rfl

theorem Encoding.irqTx : Encoding.Statement .irqTx := fun _ => by decide

end Sys2Proof.Laws
end

