-- ==== Sys2Proof/Laws/Scanner.lean ====
section
/-! SUPPORT. What the debounce machine, a key update and a row update do, once (spec/42_debounce_scanner.md R162 to R170). -/

namespace Sys2Proof.Machine

/-- A key update writes one key and appends its edge record, nothing else. -/
theorem State.keyUpdate_eq (p : Params) (s : State) (i : Nat) (x : Bool) :
    s.keyUpdate p i x = { s with
      scan := { s.scan with key := Memory.write Key.zero s.scan.key i (keyNext p.nDown p.nUp (s.scan.keyAt i) x).1 }
      out := { s.out with
        fgOut := s.out.fgOut ++ edgeRecords s.hnd i (keyNext p.nDown p.nUp (s.scan.keyAt i) x).2 } } := rfl

/-- The keys after a key update. -/
theorem State.keyUpdate_keyAt (p : Params) (s : State) (i : Nat) (x : Bool) (j : Nat) :
    (s.keyUpdate p i x).scan.keyAt j =
      if j = i then (keyNext p.nDown p.nUp (s.scan.keyAt i) x).1 else s.scan.keyAt j := by
  simp [State.keyUpdate_eq, Scanner.keyAt]

/-- A row update over its first `n` columns: what every key, the records and the rest of the machine are afterwards. -/
theorem State.updateCols_spec (p : Params) (s : State) (row : Nat) (cols : Word) (n : Nat) :
    ∃ ks : Memory Key,
      (List.range n).foldl (fun t c => t.keyUpdate p (flatIndex p row c) (sampleBit cols c)) s =
        { s with
          scan := { s.scan with key := ks }
          out := { s.out with
            fgOut := s.out.fgOut ++ (List.range n).flatMap fun c =>
              edgeRecords s.hnd (flatIndex p row c)
                (keyNext p.nDown p.nUp (s.scan.keyAt (flatIndex p row c)) (sampleBit cols c)).2 } } ∧
      (∀ c, c < n → Memory.read Key.zero ks (flatIndex p row c) =
        (keyNext p.nDown p.nUp (s.scan.keyAt (flatIndex p row c)) (sampleBit cols c)).1) ∧
      (∀ j, (∀ c, c < n → j ≠ flatIndex p row c) → Memory.read Key.zero ks j = s.scan.keyAt j) ∧
      (Memory.wf Key.zero s.scan.key = true → Memory.wf Key.zero ks = true) ∧
      ∀ m, (∀ c, c < n → flatIndex p row c < m) → Memory.within m s.scan.key = true → Memory.within m ks = true := by
  induction n with
  | zero => exact ⟨s.scan.key, by simp, by simp, fun j _ => rfl, id, fun m _ h => h⟩
  | succ n ih =>
    obtain ⟨ks, he, hin, hout, hwf, hext⟩ := ih
    have hn : Memory.read Key.zero ks (flatIndex p row n) = s.scan.keyAt (flatIndex p row n) :=
      hout _ fun c hc => by simp only [flatIndex]; omega
    have hn' : Scanner.keyAt ⟨s.scan.row, ks⟩ (flatIndex p row n) = s.scan.keyAt (flatIndex p row n) := hn
    refine ⟨Memory.write Key.zero ks (flatIndex p row n)
      (keyNext p.nDown p.nUp (s.scan.keyAt (flatIndex p row n)) (sampleBit cols n)).1, ?_, ?_, ?_, ?_, ?_⟩
    · rw [List.range_succ, List.foldl_append, he]
      simp [State.keyUpdate_eq, hn', List.append_assoc]
    · intro c hc
      rw [Memory.read_write]
      by_cases hcn : c = n
      · subst hcn; simp
      · rw [if_neg (by simp only [flatIndex]; omega)]; exact hin c (by omega)
    · intro j hj
      rw [Memory.read_write, if_neg (hj n (by omega))]
      exact hout j fun c hc => hj c (by omega)
    · exact fun h => Memory.wf_write _ _ _ _ (hwf h)
    · exact fun m hm h => Memory.within_write _ _ _ _ _ (hm n (by omega)) (hext m (fun c hc => hm c (by omega)) h)

/-- Confirming a press answers Down with an edge, or AwaitingDown with the count. -/
theorem confirmDown_cases (nDown n : Nat) :
    (nDown ≤ n ∧ confirmDown nDown n = (⟨.down, 0⟩, some .down)) ∨
    (n < nDown ∧ confirmDown nDown n = (⟨.awaitingDown, BitVec.ofNat 5 n⟩, none)) := by
  by_cases h : nDown ≤ n
  · exact .inl ⟨h, by simp [confirmDown, confirmed, h]⟩
  · exact .inr ⟨by omega, by simp [confirmDown, confirmed, h]⟩

/-- Confirming a release answers Up with an edge, or AwaitingUp with the count. -/
theorem confirmUp_cases (nUp n : Nat) :
    (nUp ≤ n ∧ confirmUp nUp n = (⟨.up, 0⟩, some .up)) ∨
    (n < nUp ∧ confirmUp nUp n = (⟨.awaitingUp, BitVec.ofNat 5 n⟩, none)) := by
  by_cases h : nUp ≤ n
  · exact .inl ⟨h, by simp [confirmUp, confirmed, h]⟩
  · exact .inr ⟨by omega, by simp [confirmUp, confirmed, h]⟩

theorem Key.reachable_confirmDown {nDown nUp n : Nat} (hd : nDown ≤ 31) (hn : 1 ≤ n) :
    (confirmDown nDown n).1.Reachable nDown nUp := by
  rcases confirmDown_cases nDown n with ⟨_, e⟩ | ⟨h, e⟩ <;> rw [e]
  · rfl
  · simp only [Key.Reachable, BitVec.toNat_ofNat]; omega

theorem Key.reachable_confirmUp {nDown nUp n : Nat} (hu : nUp ≤ 31) (hn : 1 ≤ n) :
    (confirmUp nUp n).1.Reachable nDown nUp := by
  rcases confirmUp_cases nUp n with ⟨_, e⟩ | ⟨h, e⟩ <;> rw [e]
  · rfl
  · simp only [Key.Reachable, BitVec.toNat_ofNat]; omega

/-- One sample takes a reachable key to a reachable value (R170). -/
theorem Key.reachable_next {nDown nUp : Nat} (hd : nDown ≤ 31) (hu : nUp ≤ 31) (k : Key) (hk : k.Reachable nDown nUp)
    (x : Bool) : (keyNext nDown nUp k x).1.Reachable nDown nUp := by
  obtain ⟨st, c⟩ := k
  cases st <;> cases x
  · rfl
  · rfl
  · rfl
  · exact Key.reachable_confirmDown hd (by omega)
  · exact Key.reachable_confirmUp hu (by omega)
  · rfl
  · exact Key.reachable_confirmUp hu (by omega)
  · exact ⟨hk.1, Nat.le_of_succ_le hk.1⟩
  · rfl
  · exact Key.reachable_confirmDown hd (by omega)

/-- Feeding two sample sequences one after the other. -/
theorem feedSamples_append (f : Key → Bool → Key × Option Edge) (k : Key) (xs ys : List Bool) :
    feedSamples f k (xs ++ ys) =
      ((feedSamples f (feedSamples f k xs).1 ys).1,
        (feedSamples f k xs).2 ++ (feedSamples f (feedSamples f k xs).1 ys).2) := by
  induction xs generalizing k with
  | nil => rfl
  | cons x xs ih => simp [feedSamples, ih]

end Sys2Proof.Machine
end

