-- ==== Sys2Proof/Laws/System.lean ====
section
/-! SUPPORT. What a delay's turn does, once (spec/44_system.md R216). -/

namespace Sys2Proof.Machine

/-- One iteration of a delay is a decode poll's body, or nothing. -/
@[simp] theorem State.delayBody_true (p : Params) (s : State) : s.delayBody p true = s.decodeOne p := rfl
@[simp] theorem State.delayBody_false (p : Params) (s : State) : s.delayBody p false = s := rfl

/-- An iteration writes `IN`, the decoder and `fg_out` at most. -/
theorem State.delayBody_frame (p : Params) (s : State) (poll : Bool) :
    (s.delayBody p poll).outCh = s.outCh ∧ (s.delayBody p poll).hnd = s.hnd ∧ (s.delayBody p poll).scan = s.scan ∧
      (s.delayBody p poll).fs = s.fs ∧ (s.delayBody p poll).fg = s.fg ∧ (s.delayBody p poll).env = s.env ∧
      (s.delayBody p poll).out.txOut = s.out.txOut ∧ (s.delayBody p poll).out.ledOut = s.out.ledOut ∧
      (s.delayBody p poll).out.responses = s.out.responses := by
  cases poll
  · exact ⟨rfl, rfl, rfl, rfl, rfl, rfl, rfl, rfl, rfl⟩
  · rcases s.decodeOne_cases p with ⟨-, e⟩ | ⟨-, e⟩ <;> simp [e]

/-- A delay's turn: no iteration left completes it; the last one is made and completes it; otherwise one is made. -/
theorem State.delayStep_cases (p : Params) (s : State) (poll : Bool) (left : Nat) :
    (left = 0 ∧ s.delayStep p poll left = s.complete 0) ∨
    (left = 1 ∧ s.delayStep p poll left = (s.delayBody p poll).complete 0) ∨
    ∃ n, left = n + 2 ∧ s.delayStep p poll left = (s.delayBody p poll).setPhase (.delaying (n + 1)) := by
  match left with
  | 0 => exact .inl ⟨rfl, rfl⟩
  | 1 => exact .inr (.inl ⟨rfl, rfl⟩)
  | n + 2 => exact .inr (.inr ⟨n, rfl, rfl⟩)

/-- DELAY's loop condition read on a wrapped clock is the elapsed time against `ms` (spec/60_exceptions.md R246). -/
theorem delayWaits_wrapped {p : Params} {t0 e : Nat} (ht : t0 < p.msWrap) (he : e < p.msWrap) (ms : Nat) :
    delayWaits p t0 ((t0 + e) % p.msWrap) ms = decide (e < ms) := by
  have h : ((t0 + e) % p.msWrap + (p.msWrap - t0 % p.msWrap)) % p.msWrap = e := by
    rw [Nat.mod_eq_of_lt ht, Nat.mod_add_mod, show t0 + e + (p.msWrap - t0) = e + p.msWrap by omega, Nat.add_mod_right,
      Nat.mod_eq_of_lt he]
  simp [delayWaits, h]

/-- A DEC_POLL whose result is ignored leaves what the poll's body leaves, and the handler bits. -/
theorem polled_parts (s : State) : (polled s).inCh = (s.decodeOne Config.params).inCh ∧
    (polled s).dec = (s.decodeOne Config.params).dec ∧
    (polled s).out.fgOut = (s.decodeOne Config.params).out.fgOut ∧ (polled s).hnd = s.hnd := by
  refine ⟨rfl, rfl, rfl, ?_⟩
  show (s.decodeOne Config.params).hnd = s.hnd
  rcases s.decodeOne_cases Config.params with ⟨-, e⟩ | ⟨-, e⟩ <;> simp [e]

end Sys2Proof.Machine
end

