-- ==== Sys2Proof/Tests/Slice0.lean ====
section
/-! SUPPORT. Tests on fixed values. Words and expected results are taken from spec/30_encoding.md (R89 to R99) and from the
vectors of spec/95_test_vectors.md, named beside each test; the last part shows, for every statement with hypotheses, a
state and operands that meet them. -/

namespace Sys2Proof.Tests

open Sys2Proof Sys2Proof.Machine

/-! ## Helpers -/

/-- The parameters of the programs of spec/95_test_vectors.md part 3, with the default note-off nibble. -/
def vp : Params :=
  { kIn := 2, kOut := 2, rows := 2, cols := 2, nDown := 2, nUp := 2, nLeds := 4, msWrap := 70000 }

/-- The next state of an outcome (the reset state for any other outcome, which no test here meets). -/
def got (r : Result) : State :=
  match r with
  | .next t => t
  | _ => State.reset

/-- The data of the last response. -/
def lastData (s : State) : Option Word := s.out.responses.getLast?.map fun r => r.rdata

/-- A channel with 4 slots whose first slots hold `bs`, `rd` at 0 and counters 0. -/
def holding (bs : List Byte) : Channel := ⟨(List.range bs.length).zip bs, bs.length % 4, 0, Stats.zero⟩

/-- The reset state with a turn list. -/
def withTurns (ts : List Turn) : State := State.reset.setTurns ts

/-- The reset state with one command word as its program. -/
def withProg (w : CommandWord) : State := State.reset.setFg ⟨[w], 0, .idle⟩

/-- The reset state with FG at a place inside its command. -/
def inPhase (ph : Phase) : State := State.reset.setPhase ph

/-- The reset state with one count waiting to be drawn. -/
def withIters (n : Nat) : State := State.reset.setEnv { State.reset.env with iters := [n] }

/-! ## WellFormed: the smoke test -/

theorem test_wellFormed_refuses_spurious_receive : (Instr.irqRx false 0x3C false false false).wellFormed = false := rfl

theorem test_wellFormed_accepts_receive : (Instr.irqRx true 0x3C true false true).wellFormed = true := rfl

theorem test_spurious_receive_has_no_word : encode (.irqRx false 0x3C false false false) = [] := rfl

/-! ## Decoding: words written out from the spec (95 section 2.8, R99, R94) -/

theorem test_decode_chInit_in : decodeTableWord 48 0x010000000000 = some (.chInit .inbound) := by decide
theorem test_decode_chInit_out : decodeTableWord 48 0x010001000000 = some (.chInit .outbound) := by decide
theorem test_decode_rxPop : decodeTableWord 48 0x020000000000 = some .rxPop := by decide
theorem test_decode_chHas : decodeTableWord 48 0x030001000000 = some (.chHas .outbound) := by decide
theorem test_decode_txPush : decodeTableWord 48 0x040000FF0000 = some (.txPush 0xFF) := by decide
theorem test_decode_statRd : decodeTableWord 48 0x050000050000 = some (.statRd .inbound .overflow) := by decide
theorem test_decode_statRd_out : decodeTableWord 48 0x050001000000 = some (.statRd .outbound .ints) := by decide
theorem test_decode_decInit : decodeTableWord 48 0x100000000000 = some .decInit := by decide
theorem test_decode_decPoll : decodeTableWord 48 0x110000000000 = some .decPoll := by decide
theorem test_decode_encSend : decodeTableWord 48 0x120000803C40 = some (.encSend 0x80 0x3C 0x40) := by decide
theorem test_decode_hndSet : decodeTableWord 48 0x130002010000 = some (.hndSet .keyDown true) := by decide
theorem test_decode_hndSet_clear : decodeTableWord 48 0x130003000000 = some (.hndSet .keyUp false) := by decide
theorem test_decode_scanInit : decodeTableWord 48 0x200000000000 = some .scanInit := by decide
theorem test_decode_scanTick : decodeTableWord 48 0x210000000000 = some .scanTick := by decide
theorem test_decode_fsInit : decodeTableWord 48 0x300000000000 = some .fsInit := by decide
theorem test_decode_fsSet : decodeTableWord 48 0x310002010203 = some (.fsSet 2 1 2 3) := by decide
theorem test_decode_fsSet_top : decodeTableWord 48 0x31FFFFFFFFFF = some (.fsSet 65535 255 255 255) := by decide
theorem test_decode_fsClr : decodeTableWord 48 0x320000000000 = some .fsClr := by decide
theorem test_decode_fsGet : decodeTableWord 48 0x330002000000 = some (.fsGet 2) := by decide
theorem test_decode_delay : decodeTableWord 48 0x4000FA010000 = some (.delay 250 true) := by decide
theorem test_decode_delay_zero : decodeTableWord 48 0x400000000000 = some (.delay 0 false) := by decide
theorem test_decode_irqFlush : decodeTableWord 16 0x0000 = some .irqFlush := by decide
theorem test_decode_irqRx : decodeTableWord 16 0x433C = some (.irqRx true 0x3C true true false) := by decide
theorem test_decode_irqRx_overrun : decodeTableWord 16 0x443C = some (.irqRx true 0x3C false false true) := by decide
theorem test_decode_irqTx : decodeTableWord 16 0x8000 = some .irqTx := by decide

/-- Most significant byte first (R89): the six bytes of `fs.set 2, 1, 2, 3`. -/
theorem test_decode_bytes : decode [0x31, 0x00, 0x02, 0x01, 0x02, 0x03] = .ok (.fsSet 2 1 2 3) := by decide

theorem test_encode_bytes : encode (.delay 0x00FA true) = [0x40, 0x00, 0xFA, 0x01, 0x00, 0x00] := by decide

/-- The illegal command words of 95 section 2.8 with an unknown operation code. -/
theorem test_illegal_op : decodeCommandWord 0x000000000000 = .error (.unknownOp 0x00) ∧
    decodeCommandWord 0x140000000000 = .error (.unknownOp 0x14) ∧
    decodeCommandWord 0xFF0000000000 = .error (.unknownOp 0xFF) := by decide

/-- The illegal command words of 95 section 2.8 with a reserved bit set. -/
theorem test_illegal_reserved : ([0x020000000001, 0x010002000000, 0x040100900000, 0x050000080000, 0x130004010000,
    0x130000020000, 0x120001903C64, 0x330002000001, 0x400000020000] : List CommandWord).all
      (fun w => decide (decodeCommandWord w = .error .reservedBits)) = true := by decide

/-- `STAT_RD` with select 6 or 7 (95 section 2.8). -/
theorem test_illegal_select : decodeCommandWord 0x050000060000 = .error (.reservedSelect 6) ∧
    decodeCommandWord 0x050000070000 = .error (.reservedSelect 7) := by decide

/-- The illegal event words of 95 section 2.8. -/
theorem test_illegal_event : decodeEventWord 0xC000 = .error .reservedEvent ∧
    decodeEventWord 0x0001 = .error .reservedBits ∧ decodeEventWord 0x8001 = .error .reservedBits ∧
    decodeEventWord 0x4800 = .error .reservedBits := by decide

theorem test_bad_length : decode [0x02, 0x00] = .error .reservedBits ∧ decode [0x02] = .error (.badLength 1) := by decide

/-! ## Assembler (R97, R98) -/

theorem test_asm_comment : assemble vp "  fs.set 2, 0x1, 0b10, 3  # one position" = .ok (some ⟨.fsSet 2 1 2 3, none⟩) := by
  decide

/-- 95 section 2.3: `enc.note_on 3, 69, 0` is `enc.send 0x93, 0x45, 0x00`. -/
theorem test_asm_note_on : assemble vp "enc.note_on 3, 69, 0" = .ok (some ⟨.encSend 0x93 0x45 0x00, none⟩) := by decide

/-- 95 section 2.3: `enc.note_off 0, 60, 64` is `enc.send 0x80, 0x3C, 0x40` with the default nibble. -/
theorem test_asm_note_off : assemble vp "enc.note_off 0, 60, 64" = .ok (some ⟨.encSend 0x80 0x3C 0x40, none⟩) := by decide

/-- 95 section 2.7. -/
theorem test_asm_hnd_clr : assemble vp "hnd.clr key_up" = .ok (some ⟨.hndSet .keyUp false, none⟩) := by decide

/-- R95: the column input is written beside the command, between braces (characters 123 and 125). -/
theorem test_asm_scan_tick :
    assembleChars vp ("scan.tick ".toList ++ Char.ofNat 123 :: "cols=0b10".toList ++ [Char.ofNat 125]) =
      .ok (some ⟨.scanTick, some 2⟩) := by decide

theorem test_asm_event_flags : assemble vp "!rx 0xFF, pfo" = .ok (some ⟨.irqRx true 0xFF true true true, none⟩) := by decide

theorem test_asm_refuses : assemble vp "tx.push 256" = .error .badOperands ∧
    assemble vp "tx.pull 1" = .error .unknownMnemonic := by decide

/-! ## The byte channel -/

/-- CH-5's last command: `ch.init in` after traffic. -/
theorem test_chInit : (got (chInit vp .inbound (State.reset.setIn (holding [0x90, 0x3C])))).inCh = Channel.reset := by decide

/-- CH-4: `rx.pop` with `IN = [0x90]`. -/
theorem test_rxPop : let t := got (rxPop vp (State.reset.setIn (holding [0x90])))
    lastData t = some 0x90 ∧ t.inCh.rd = 1 := by decide

/-- CH-4: `rx.pop` on an empty `IN` holds. -/
theorem test_rxPop_holds : rxPop vp State.reset = .next State.reset := rfl

/-- CH-1 step 10 and CH-5: `ch.has`. -/
theorem test_chHas : lastData (got (execChHas .outbound State.reset)) = some 0 ∧
    lastData (got (execChHas .inbound (State.reset.setIn (holding [0x90])))) = some 1 := by decide

/-- CH-1 step 4: the push into a full ring is refused and counted. -/
theorem test_txPush_full : let t := got (txPush vp 0x44 (State.reset.setOut (holding [0x11, 0x22, 0x33])))
    lastData t = some 0 ∧ t.outCh.stat.overflow = 1 ∧ t.outCh.buf = [(0, 0x11), (1, 0x22), (2, 0x33)] := by decide

/-- CH-1 step 6: slot 3 is written and the cursor wraps from 3 to 0. -/
theorem test_txPush_wraps :
    let t := got (txPush vp 0x55 (State.reset.setOut { holding [0x11, 0x22, 0x33] with rd := 1 }))
    lastData t = some 1 ∧ t.outCh.wr = 0 ∧ t.outCh.byteAt 3 = 0x55 := by decide

/-- CH-3 step 3: a byte with framing and overrun errors is discarded and both are counted. -/
theorem test_irqRx_flagged : (rxBody vp true 0x3C false true true (State.reset.setIn (holding [0x90]))).inCh.stat =
    ⟨1, 0, 0, 1, 1, 0⟩ := by decide

/-- CH-3 step 7: an unflagged byte finds `IN` full. -/
theorem test_irqRx_full : (rxBody vp true 0x01 false false false (State.reset.setIn (holding [0x90, 0x3C, 0x64]))).inCh =
    { holding [0x90, 0x3C, 0x64] with stat := ⟨1, 0, 0, 0, 0, 1⟩ } := by decide

/-- CH-1 step 9: the byte in slot 3 is sent and `rd` wraps. -/
theorem test_irqTx : let t := txBody vp (State.reset.setOut ⟨[(0, 0x11), (3, 0x55)], 0, 3, Stats.zero⟩)
    t.out.txOut = [0x55] ∧ t.outCh.rd = 0 ∧ t.outCh.stat.bytes = 1 := by decide

/-- P2 step 8: a spurious transmit service counts itself only. -/
theorem test_irqTx_empty : (txBody vp State.reset).outCh.stat = ⟨1, 0, 0, 0, 0, 0⟩ ∧
    (txBody vp State.reset).out.txOut = [] := by decide

/-- SYS-3: a counter above `2^32 - 1` is returned modulo `2^32`. -/
theorem test_statRd_wraps : lastData (got (execStatRd .inbound .bytes
    (State.reset.setIn { Channel.reset with stat := { Stats.zero with bytes := 2 ^ 32 + 5 } }))) = some 5 := by decide

/-! ## The protocol framer and the system operations -/

/-- P1 step 9: the third byte dispatches `NoteOn(60, 100)`. -/
theorem test_decPoll_note : let t := got (decPoll vp (((State.reset.setIn (holding [0x64])).setDec
      ⟨.awaitingVelocity, 0x90, 0x3C⟩).setHnd ⟨true, false, false, false⟩))
    t.out.fgOut = [.noteOn 60 100] ∧ t.dec = ⟨.awaitingCommand, 0x90, 0x3C⟩ ∧ lastData t = some 1 := by decide

/-- DEC-8: a second status byte is consumed and not examined again. -/
theorem test_decPoll_resync : (got (decPoll vp ((State.reset.setIn (holding [0x90])).setDec
    ⟨.awaitingNote, 0x90, 0x00⟩))).dec = ⟨.awaitingCommand, 0x90, 0x00⟩ := by decide

/-- DEC-17: `dec.init` from DEC-12's end. -/
theorem test_decInit : (got (execDecInit (State.reset.setDec ⟨.awaitingVelocity, 0x90, 0x3C⟩))).dec = Decoder.reset := by
  decide

/-- ENC-3, first push: the command byte is neither checked nor masked. -/
theorem test_encSend_first : let t := got (encSend vp 0x3C 0x80 0xFF State.reset)
    t.outCh.byteAt 0 = 0x3C ∧ t.fg.phase = .encNote true ∧ t.out.responses = [] := by decide

/-- ENC-2, last push: bit 7 of the velocity is cleared and the three accept bits are returned. -/
theorem test_encSend_last :
    let t := got (encSend vp 0x90 0xBC 0xE4 ((State.reset.setOut (holding [0x90, 0x3C])).setPhase (.encVel true true)))
    t.outCh.fifo vp.sizeOut = [0x90, 0x3C, 0x64] ∧ lastData t = some 7 := by decide

/-- SYS-1. -/
theorem test_hndSet : (got (execHndSet .keyDown true State.reset)).hnd = ⟨false, false, true, false⟩ := by decide

/-- SYS-2 with one iteration drawn and `p = 1`: one byte is polled and the command completes. -/
theorem test_delay_poll : let t := got (delay vp 10 true ((withIters 1).setIn (holding [0x90])))
    t.dec.state = .awaitingNote ∧ t.fg.fpc = 1 ∧ lastData t = some 0 := by decide

/-- SYS-2 with `p = 0`: no state change whatever is drawn. -/
theorem test_delay_plain : let t := got (delay vp 10 false ((withIters 3).setIn (holding [0x90])))
    t.inCh = holding [0x90] ∧ t.fg.phase = .delaying 2 := by decide

/-- R12: the default nibble is `0x8`; R82: with it `0x80` and `0x9F` are commands and `0xA0` is none; R98: the default's
note-off command byte is `0x80 | chan`. -/
theorem test_default_note_off : vp.noteOff = 0x8 ∧ noteOffNibble none = 0x8 ∧ isCmd vp 0x80 = true ∧ isCmd vp 0x9F = true ∧
    isCmd vp 0xA0 = false ∧ encNoteOff vp 3 60 64 = .encSend 0x83 60 64 := by decide

/-! ## The scanner -/

/-- KEY-1, rows 2, 4, 6, 7 and 10, with `N_DOWN = 3`, `N_UP = 2`. -/
theorem test_debounce_key1 : keyNext 3 2 ⟨.up, 0⟩ true = (⟨.awaitingDown, 1⟩, none) ∧
    keyNext 3 2 ⟨.awaitingDown, 2⟩ true = (⟨.down, 0⟩, some .down) ∧
    keyNext 3 2 ⟨.down, 0⟩ false = (⟨.awaitingUp, 1⟩, none) ∧
    keyNext 3 2 ⟨.awaitingUp, 1⟩ true = (⟨.awaitingUp, 0⟩, none) ∧
    keyNext 3 2 ⟨.awaitingUp, 1⟩ false = (⟨.up, 0⟩, some .up) := by decide

/-- KEY-3: a first sample that is down raises no event. -/
theorem test_debounce_key3 : keyNext 3 2 Key.zero true = (⟨.down, 0⟩, none) := by decide

/-- Packed bytes of KEY-1: `0x22` is AwaitingDown with 2, `0x61` AwaitingUp with 1, `0x80` Up. -/
theorem test_pack : Key.pack ⟨.awaitingDown, 2⟩ = 0x22 ∧ Key.pack ⟨.awaitingUp, 1⟩ = 0x61 ∧ Key.pack ⟨.up, 0⟩ = 0x80 ∧
    Key.unpack 0xA0 = none := by decide

/-- SCAN-1: the first tick's bits are row 0's, and the next row is selected and recorded. -/
theorem test_scanTick_first : let t := got (scanTick vp (State.reset.setEnv ⟨[], [0b10], [], 0⟩))
    t.scan = ⟨1, [(0, ⟨.up, 0⟩), (1, ⟨.down, 0⟩)]⟩ ∧ t.out.fgOut = [.rowSelect 1] := by decide

/-- P4's tick T5: key 1 is confirmed down, after the row record. -/
theorem test_scanTick_event :
    let t := got (scanTick vp (((State.reset.setScan ⟨0, [(0, ⟨.up, 0⟩), (1, ⟨.awaitingDown, 1⟩)]⟩).setHnd
      ⟨false, false, true, true⟩).setEnv ⟨[], [0b10], [], 0⟩))
    t.out.fgOut = [.rowSelect 1, .keyDown 1] ∧ t.scan.keyAt 1 = ⟨.down, 0⟩ := by decide

/-- R161: every input back to Unknown and row 0 selected. -/
theorem test_scanInit : let t := got (scanInit vp (State.reset.setScan ⟨1, [(1, ⟨.down, 0⟩)]⟩))
    t.scan = Scanner.reset ∧ t.out.fgOut = [.rowSelect 0] := by decide

/-! ## The frame store -/

/-- FS-2: the set, and the three positions its flush sends. -/
theorem test_fsSet : (got (fsSet vp 2 1 2 3 State.reset)).fs = ⟨[(2, ⟨1, 2, 3⟩)], some 2⟩ := by decide

theorem test_irqFlush : let t := flushBody (State.reset.setFs ⟨[(2, ⟨1, 2, 3⟩)], some 2⟩)
    t.out.ledOut = [0, 0, 0, 0, 0, 0, 1, 2, 3] ∧ t.fs.dirty = none := by decide

/-- FS-1: nothing pending, nothing sent. -/
theorem test_irqFlush_none : flushBody State.reset = State.reset := by decide

/-- FS-3: an index out of range is ignored. -/
theorem test_fsSet_out_of_range : (got (fsSet vp 4 9 9 9 State.reset)).fs = FrameStore.reset := by decide

/-- FS-5's clear: every position black and the mark at the last one. -/
theorem test_fsClr : (got (fsClr vp (State.reset.setFs ⟨[(2, ⟨1, 2, 3⟩)], none⟩))).fs = ⟨[], some 3⟩ := by decide

/-- FS-6: the stored colour, and zero out of range. -/
theorem test_fsGet : lastData (got (fsGet vp 0 (State.reset.setFs ⟨[(0, ⟨5, 6, 7⟩)], none⟩))) = some 0x00050607 ∧
    lastData (got (fsGet vp 4 State.reset)) = some 0 := by decide

/-- FS-7: `fs.init` schedules no transmission. -/
theorem test_fsInit : (got (fsInit vp (State.reset.setFs ⟨[(3, ⟨255, 255, 255⟩)], some 3⟩))).fs = FrameStore.reset := by
  decide

/-! ## The step -/

/-- A table word placed for the next step runs as the first operation after reset (here `hnd.set note_on, 1`). -/
theorem test_step_command : (got (step (State.reset.withFetchWord 48 0x130000010000))).hnd.noteOn = true := by decide

/-- An event word placed for the next step is serviced (here `!tx` on an empty `OUT`). -/
theorem test_step_event : (got (step (State.reset.withFetchWord 16 0x8000))).outCh.stat.ints = 1 := by decide

/-- R93: an illegal word answers ILLEGAL and FG goes on. -/
theorem test_step_illegal : let t := got (step (withProg 0x140000000000))
    t.out.responses = [⟨.illegal, 0⟩] ∧ t.fg.fpc = 1 := by decide

/-- R96: the response word of an illegal command has `st = 1` in bits 33:32. -/
theorem test_response_word : (Response.mk .illegal 0).word = 0x100000000#34 ∧ (Response.mk .ok 7).word = 7#34 := by decide

/-- The invariant's memory form (Memory.wf) refuses an unsorted list and a listed reset element. -/
theorem test_memory_wf : Memory.wf (0 : Byte) [(0, 1), (2, 1)] = true ∧ Memory.wf (0 : Byte) [(2, 1), (0, 1)] = false ∧
    Memory.wf (0 : Byte) [(0, 0)] = false := by decide

/-! ## Witnesses: the hypotheses of the statements are met -/

theorem test_params_ranges : 1 < Config.params.sizeIn ∧ 1 < Config.params.sizeOut ∧ 0 < Config.params.rows ∧
    0 < Config.params.cols ∧ 0 < Config.params.keys ∧ 0 < Config.params.nLeds ∧ 65535 < Config.params.msWrap := by
  have h := Config.params_valid
  have h1 : 1 < 2 ^ Config.params.kIn := Nat.one_lt_two_pow (by omega)
  have h2 : 1 < 2 ^ Config.params.kOut := Nat.one_lt_two_pow (by omega)
  have h3 : 0 < Config.params.rows * Config.params.cols := Nat.mul_pos (by omega) (by omega)
  exact ⟨h1, h2, by omega, by omega, h3, by omega, by omega⟩

/-- A channel at the largest cursors of four slots. -/
def topChannel : Channel := ⟨[(3, 0x55)], 3, 3, Stats.zero⟩

/-- A channel of any size above 1 with `rd` just ahead of `wr`: full. -/
def fullChannel : Channel := ⟨[], 0, 1, Stats.zero⟩

/-- A channel of any size above 1 that holds one byte of value zero. -/
def oneByte : Channel := ⟨[], 1, 0, Stats.zero⟩

theorem test_witness_DecodeInvertsEncode : (Instr.delay 0xFFFF true).wellFormed = true ∧
    (Instr.irqRx true 0xFF true true true).wellFormed = true := ⟨rfl, rfl⟩

theorem test_witness_EncodeInvertsDecode : decode [0x47, 0xFF] = .ok (.irqRx true 0xFF true true true) ∧
    decode [0x05, 0x00, 0x01, 0x05, 0x00, 0x00] = .ok (.statRd .outbound .overflow) := by decide

/-- Both sides of the STAT_RD clause at its boundary: select 5 spells the row, select 6 does not. -/
theorem test_witness_WordsSelectedByMatchAndMask :
    (Instr.statRd .inbound .ints).isCommand = true ∧ Instr.irqTx.isCommand = false ∧
      decodeCommandWord 0x050000050000 = .ok (.statRd .inbound .overflow) ∧
      decodeCommandWord 0x050000060000 = .error (.reservedSelect 6) ∧
      (0x050000060000 : CommandWord) &&& 0xFFFFFEF8FFFF = 0x050000000000 := by decide

theorem test_witness_FgMovesIn : (withTurns []).FgMovesIn (withTurns []) ∧
    (withTurns [.fg, .spuriousRx]).FgMovesIn (withTurns [.spuriousRx]) := ⟨.inl ⟨rfl, rfl⟩, .inr ⟨_, rfl, rfl⟩⟩

theorem test_witness_IllegalCommandAnswersIllegal : (withProg 0x140000000000).FgMovesIn (withProg 0x140000000000) ∧
    (withProg 0x140000000000).fetchCommand = some 0x140000000000 ∧
    decodeCommandWord 0x140000000000 = .error (.unknownOp 0x14) := ⟨.inl ⟨rfl, rfl⟩, rfl, by decide⟩

theorem test_witness_IllegalEventWordIsDropped : (withTurns [.event 0xC000, .fg]).env.turns = .event 0xC000 :: [.fg] ∧
    decodeEventWord 0xC000 = .error .reservedEvent := ⟨rfl, by decide⟩

theorem test_witness_StepRunsTheDecodedOperation : (withProg 0x110000000000).FgMovesIn (withProg 0x110000000000) ∧
    (withProg 0x110000000000).fetchCommand = some 0x110000000000 ∧ decodeCommandWord 0x110000000000 = .ok .decPoll ∧
    (withTurns [.event 0x8000]).env.turns = .event 0x8000 :: [] ∧ decodeEventWord 0x8000 = .ok .irqTx ∧
    (withTurns [.spuriousRx]).env.turns = .spuriousRx :: [] := ⟨.inl ⟨rfl, rfl⟩, rfl, by decide, rfl, by decide, rfl⟩

theorem test_witness_NoStepModifiesTheProgram : step (withProg 0x320000000000) =
    .next (got (step (withProg 0x320000000000))) ∧ (got (step (withProg 0x320000000000))).fg.fpc = 1 := ⟨rfl, rfl⟩

theorem test_witness_ResetInputErasesEverything : (withTurns [.reset, .fg]).env.turns = .reset :: [.fg] := rfl

theorem test_witness_StepKeepsTheInvariant : State.reset.Inv Config.params ∧ step State.reset = .next State.reset := by
  have h := test_params_ranges
  refine ⟨⟨Channel.reset_inRange (by omega), Channel.reset_inRange (by omega), ⟨rfl, rfl, rfl⟩, trivial, h.2.2.1, rfl, rfl,
    fun _ => rfl, rfl, rfl, (fun d hd => nomatch hd), (fun r hr => nomatch hr)⟩, rfl⟩

/-- R170 at its boundary: an input awaits an up only with `N_UP` of 2 or more, and a down only with `N_DOWN` of 2 or more. -/
theorem test_reachable_thresholds : ¬Key.Reachable 3 1 ⟨.awaitingUp, 0⟩ ∧ Key.Reachable 3 2 ⟨.awaitingUp, 0⟩ ∧
    Key.Reachable 3 2 ⟨.awaitingUp, 1⟩ ∧ ¬Key.Reachable 3 2 ⟨.awaitingUp, 2⟩ ∧ ¬Key.Reachable 1 2 ⟨.awaitingDown, 1⟩ ∧
    Key.Reachable 2 2 ⟨.awaitingDown, 1⟩ := by simp [Key.Reachable]

theorem test_witness_Stuck : (withProg 0x020000000000).Stuck :=
  ⟨rfl, ⟨0x020000000000, rfl, by decide⟩, rfl⟩

theorem test_witness_Complete : State.reset.Complete := ⟨rfl, Nat.le_refl 0⟩

/-- CH_INIT's two clauses at the boundary of the buffer: the last slot and the index after it. -/
theorem test_witness_ChInitRestoresTheChannel : Config.params.size .inbound - 1 < Config.params.size .inbound ∧
    Config.params.size .inbound ≤ Config.params.size .inbound := by
  have h := test_params_ranges
  exact ⟨by show Config.params.sizeIn - 1 < Config.params.sizeIn; omega, Nat.le_refl _⟩

theorem test_witness_RxPop : (State.reset.setIn oneByte).inCh.wr ≠ (State.reset.setIn oneByte).inCh.rd ∧
    State.reset.inCh.wr = State.reset.inCh.rd := by decide

theorem test_witness_OnlyReceiveLiftsTheHold : ∃ t, exec (.irqRx true 0x42 false false false) State.reset = .next t ∧
    State.reset.inCh.has = false ∧ t.inCh.has = true := by
  have h : (State.reset.inCh.wr + 1) % Config.params.sizeIn ≠ State.reset.inCh.rd := by
    show (0 + 1) % Config.params.sizeIn ≠ 0
    rw [Nat.mod_eq_of_lt test_params_ranges.1]; decide
  refine ⟨_, rfl, rfl, ?_⟩
  show (rxChannel Config.params.sizeIn true 0x42 false false false Channel.reset).has = true
  have h1 : (0 + 1) % Config.params.sizeIn = 1 := Nat.mod_eq_of_lt test_params_ranges.1
  simp [rxChannel, Channel.tally, Channel.tallyIf, lineError, Channel.push, Channel.accepts, Channel.full, Channel.reset,
    Channel.has, Channel.store, Channel.publishWr, h1]

/-- The full and not-full clauses of TX_PUSH, ENC_SEND and IRQ_RX. -/
theorem test_witness_full_clauses : (fullChannel.wr + 1) % Config.params.sizeOut = fullChannel.rd ∧
    (Channel.reset.wr + 1) % Config.params.sizeOut ≠ Channel.reset.rd ∧
    (fullChannel.wr + 1) % Config.params.sizeIn = fullChannel.rd ∧
    (Channel.reset.wr + 1) % Config.params.sizeIn ≠ Channel.reset.rd := by
  have h1 : (0 + 1) % Config.params.sizeIn = 1 := Nat.mod_eq_of_lt test_params_ranges.1
  have h2 : (0 + 1) % Config.params.sizeOut = 1 := Nat.mod_eq_of_lt test_params_ranges.2.1
  simp [fullChannel, Channel.reset, h1, h2]

theorem test_witness_TransmitServiceSendsTheOldestByte :
    (State.reset.setOut oneByte).outCh.wr ≠ (State.reset.setOut oneByte).outCh.rd ∧
      State.reset.outCh.wr = State.reset.outCh.rd := by decide

/-- Occupancy, the ring and the overflow property: four slots with both cursors at their largest value, empty. -/
theorem test_witness_InRange : topChannel.InRange (2 ^ 2) ∧ topChannel.wr = topChannel.rd ∧
    ([0x11, 0x22, 0x33] : List Byte).length = 2 ^ 2 - 1 := ⟨⟨by decide, by decide, rfl, rfl⟩, rfl, rfl⟩

/-- The smallest ring, one usable slot (CH-2). -/
theorem test_witness_InRange_smallest : Channel.reset.InRange (2 ^ 1) ∧ ([0xA1] : List Byte).length = 2 ^ 1 - 1 :=
  ⟨Channel.reset_inRange (by decide), rfl⟩

/-- Each clause of the single-writer statement: an operation that moves the cursor. -/
theorem test_witness_EachCursorHasOneWriter :
    (∃ t, exec (.chInit .inbound) (State.reset.setIn fullChannel) = .next t ∧ t.inCh.rd ≠ fullChannel.rd) ∧
    (∃ t, exec (.chInit .inbound) (State.reset.setIn oneByte) = .next t ∧ t.inCh.wr ≠ oneByte.wr) ∧
    (∃ t, exec (.chInit .outbound) (State.reset.setOut fullChannel) = .next t ∧ t.outCh.rd ≠ fullChannel.rd) ∧
    (∃ t, exec (.chInit .outbound) (State.reset.setOut oneByte) = .next t ∧ t.outCh.wr ≠ oneByte.wr) :=
  ⟨⟨_, rfl, by decide⟩, ⟨_, rfl, by decide⟩, ⟨_, rfl, by decide⟩, ⟨_, rfl, by decide⟩⟩

theorem test_witness_CountersNeverDecrease : exec .irqTx State.reset = .next (got (exec .irqTx State.reset)) ∧
    Instr.irqTx ≠ .chInit .outbound := ⟨rfl, by decide⟩

/-- The clauses of the streams statement: an event service, an operation that is no transmit, one that is no flush. -/
theorem test_witness_StreamsGrowByTheirOwnAgent : exec .irqFlush State.reset = .next (got (exec .irqFlush State.reset)) ∧
    Instr.irqFlush.isCommand = false ∧ Instr.irqFlush ≠ .irqTx ∧ Instr.irqTx ≠ .irqFlush := ⟨rfl, rfl, by decide, by decide⟩

theorem test_witness_EventServicesCommute : Instr.irqTx.isCommand = false ∧
    (Instr.irqRx true 0x3C false false false).isCommand = false ∧
    Instr.irqTx.row ≠ (Instr.irqRx true 0x3C false false false).row := by decide

theorem test_witness_ReceiveInsideDequeueLinearises : oneByte.wr ≠ oneByte.rd := by decide

/-- An enqueue into a channel that holds one byte of at least two slots, neither full nor empty when there are more. -/
theorem test_witness_TransmitInsideEnqueueLinearises : (State.reset.outCh).InRange Config.params.sizeOut ∧
    State.reset.outCh.full Config.params.sizeOut = false :=
  ⟨Channel.reset_inRange (by have := test_params_ranges; omega),
    (Channel.full_eq_false_iff _ _).mpr test_witness_full_clauses.2.1⟩

/-- The clauses of the decoder's table at the boundary of the byte classes. -/
theorem test_witness_DecoderFollowsItsTable : (0x90 : Byte).extractLsb' 4 4 = 0x9#4 ∧
    (0x7F : Byte).extractLsb' 4 4 ≠ 0x9#4 ∧ (0x7F : Byte).extractLsb' 4 4 ≠ Config.params.noteOff ∧
    (0x7F : Byte).toNat < 0x80 ∧ 0x80 ≤ (0x80 : Byte).toNat := by
  refine ⟨by decide, by decide, fun h => ?_, by decide, by decide⟩
  have h8 : 8 ≤ Config.params.noteOff.toNat := Config.noteOff_legal.1
  rw [← h] at h8
  exact absurd h8 (by decide)

theorem test_witness_EncSendPushesThreeBytes : State.reset.fg.phase = .idle ∧
    (inPhase (.encNote true)).fg.phase = .encNote true ∧
    (inPhase (.encVel true false)).fg.phase = .encVel true false := ⟨rfl, rfl, rfl⟩

theorem test_witness_DecoderRecognisesTheMessageGrammar : Decoder.reset.state = .awaitingCommand ∧
    parseMessages vp ⟨true, true, false, false⟩ [0x90, 0x3C, 0x64, 0x80, 0x3C, 0x00] = [.noteOn 60 100, .noteOff 60 0] := by
  decide

theorem test_witness_DecoderResynchronises : Decoder.reset.state = .awaitingCommand ∧
    (Handlers.mk true false false false).noteOn = true ∧ 0x80 ≤ (0x80 : Byte).toNat := by decide

/-- The hypotheses and the clause of an empty `OUT`, for every legal parameter. -/
theorem test_witness_DecoderMirrorsEncoder : Decoder.reset.state = .awaitingCommand ∧ isCmd Config.params 0x9F = true ∧
    State.reset.fg.phase = .idle ∧ State.reset.outCh.InRange Config.params.sizeOut ∧
    State.reset.outCh.wr = State.reset.outCh.rd :=
  ⟨rfl, rfl, rfl, Channel.reset_inRange (by have := test_params_ranges; omega), rfl⟩

/-- The clause of three free slots at its boundary, an empty ring of three usable slots and more (a ring of one usable slot,
`K_OUT = 1`, never has three, R10). -/
theorem test_witness_DecoderMirrorsEncoder_free (h : 2 ≤ Config.params.kOut) :
    State.reset.outCh.count Config.params.sizeOut + 3 ≤ Config.params.cap .outbound := by
  have h4 : 2 ^ 2 ≤ 2 ^ Config.params.kOut := Nat.pow_le_pow_right (by decide) h
  have hc : State.reset.outCh.count Config.params.sizeOut = 0 := by
    rw [Channel.count_eq (by have := test_params_ranges; exact Nat.lt_of_succ_lt this.2.1)
      (by have := test_params_ranges; exact Nat.lt_of_succ_lt this.2.1)]
    rfl
  rw [hc]
  show 0 + 3 ≤ 2 ^ Config.params.kOut - 1
  omega

/-- SCAN_TICK's clauses: a column of the row, and an index of no column of row 0 (the first index of row 1). -/
theorem test_witness_ScanTickSamplesTheEntryRow : Config.params.cols - 1 < Config.params.cols ∧
    ∀ c, c < Config.params.cols → Config.params.cols ≠ State.reset.scan.row * Config.params.cols + c := by
  have h := test_params_ranges
  refine ⟨by omega, fun c hc => ?_⟩
  show Config.params.cols ≠ 0 * Config.params.cols + c
  omega

/-- SCAN_INIT's clauses at the boundary of the inputs. -/
theorem test_witness_ScanInitRestoresTheScanner : Config.params.rows * Config.params.cols - 1 <
    Config.params.rows * Config.params.cols ∧
    Config.params.rows * Config.params.cols ≤ Config.params.rows * Config.params.cols := by
  have h : 0 < Config.params.rows * Config.params.cols := test_params_ranges.2.2.2.2.1
  exact ⟨by omega, Nat.le_refl _⟩

/-- KEY-5: the largest threshold, reached by the thirty-first sample and not by the thirtieth. -/
theorem test_witness_PressConfirmsExactlyOnce :
    (feedSamples (keyNext 31 1) ⟨.up, 0⟩ (List.replicate 31 true)).2 = [.down] ∧
      (feedSamples (keyNext 31 1) ⟨.up, 0⟩ (List.replicate 30 true)).2 = [] := by decide

/-- The largest up threshold, one sample short of it. -/
theorem test_witness_ShortReleaseIsSilent : 31 ≤ 31 ∧ 30 < 31 ∧
    (feedSamples (keyNext 1 31) ⟨.down, 0⟩ (List.replicate 30 false ++ [true])).2 = [] := by decide

/-- KEY-3's run: the first transition after a first sample that is down is an up. -/
theorem test_witness_TransitionsAlternate :
    (feedSamples (keyNext 3 2) ⟨.unknown, 0⟩ [true, false, false, true, true, true]).2 = [.up, .down] := by decide

/-- FS_SET and FS_GET in range: position 0, which every store has; with nothing dirty and with a mark. -/
theorem test_witness_FsSet : (0 : Half).toNat < Config.params.nLeds ∧ State.reset.fs.dirty = none ∧
    (State.reset.setFs ⟨[], some 0⟩).fs.dirty = some 0 := ⟨test_params_ranges.2.2.2.2.2.1, rfl, rfl⟩

/-- FS_SET and FS_GET out of range: the first index past the store, when the store has fewer than 65536 positions (a store
of 65536 has no index out of range, R14). -/
theorem test_witness_FsSet_out_of_range (h : Config.params.nLeds < 65536) :
    Config.params.nLeds ≤ (BitVec.ofNat 16 Config.params.nLeds).toNat := by
  rw [BitVec.toNat_ofNat, Nat.mod_eq_of_lt h]

/-- The clauses of FS_CLR and FS_INIT at the boundary of the store. -/
theorem test_witness_FsClr : Config.params.nLeds - 1 < Config.params.nLeds ∧ Config.params.nLeds ≤ Config.params.nLeds :=
  ⟨by have := test_params_ranges; omega, Nat.le_refl _⟩

theorem test_witness_DirtyMark : State.reset.fs.dirty = none ∧ FrameOp.Touches Config.params 0 (.set 0 Colour.zero) :=
  ⟨rfl, rfl, test_params_ranges.2.2.2.2.2.1⟩

/-- Strip and store agree when both are black; a flush and another operation go on from there. -/
theorem test_witness_StripAgreesAboveTheMark :
    StripAgrees Config.params (fun _ => ⟨0, 0, 0⟩) State.reset.fs ∧
      exec .irqFlush State.reset = .next (got (exec .irqFlush State.reset)) ∧ Instr.irqFlush ≠ .fsInit :=
  ⟨fun _ _ _ => rfl, rfl, by decide⟩

/-- DELAY's clauses: none, one and two iterations drawn; the last but one and the last turn. -/
theorem test_witness_DelayIteratesAsDrawn : (withIters 0).fg.phase = .idle ∧ (withIters 0).itersDraw = 0 ∧
    (withIters 1).itersDraw = 0 + 1 ∧ (withIters 2).itersDraw = 1 + 1 ∧
    (inPhase (.delaying 1)).fg.phase = .delaying (0 + 1) ∧ (inPhase (.delaying 2)).fg.phase = .delaying (1 + 1) :=
  ⟨rfl, rfl, rfl, rfl, rfl, rfl⟩

/-- A clock at its largest reading that wraps at once: two passes at 0 and 1 milliseconds of a delay of 2. -/
theorem test_witness_DelayClockSurvivesOneWrap : (withIters 2).fg.phase = .idle ∧
    Config.params.msWrap - 1 < Config.params.msWrap ∧ (∀ e ∈ [0, 1], e < (2 : Half).toNat) ∧ (2 : Half).toNat ≤ 2 ∧
    2 < Config.params.msWrap ∧ (withIters 2).itersDraw = [0, 1].length :=
  ⟨rfl, by have := test_params_ranges; omega, by decide, by decide, by have := test_params_ranges; omega, rfl⟩

/-- R246: the elapsed time is read across the wrap of a clock that wraps at 70000. -/
theorem test_clock_wraps : delayWaits vp 69999 ((69999 + 5) % 70000) 6 = true ∧
    delayWaits vp 69999 ((69999 + 5) % 70000) 5 = false := by decide

end Sys2Proof.Tests
end

section
/-! PROOFS. Scope (spec/00_scope.md R6 to R8): what a step runs, and which agent drives each output port. -/

namespace Sys2Proof.Machine

/-! ## What a step runs -/

/-- A listed turn is used up and made. -/
theorem step_of_turns_cons {s : State} {t : Turn} {ts : List Turn} (h : s.env.turns = t :: ts) :
    step s = stepTurn t (s.setTurns ts) := by
  simp [step, h]

/-- FG's turn, listed or by default, is made in the state with the turn used up. -/
theorem step_of_fgMovesIn {s u : State} (h : s.FgMovesIn u) : step s = stepFg u := by
  rcases h with ⟨hnil, rfl⟩ | ⟨ts, hcons, rfl⟩
  · simp [step, hnil]
  · exact step_of_turns_cons hcons

theorem stepFg_of_decode_ok {s : State} {w : CommandWord} {i : Instr} (hf : s.fetchCommand = some w)
    (hd : decodeCommandWord w = .ok i) : stepFg s = exec i s := by
  simp [stepFg, hf, hd]

theorem stepTurn_event_of_decode_ok {w : EventWord} {i : Instr} (hd : decodeEventWord w = .ok i) (s : State) :
    stepTurn (.event w) s = exec i s := by
  simp [stepTurn, hd]

theorem stepTurn_spuriousRx (s : State) : stepTurn .spuriousRx s = exec (.irqRx false 0 false false false) s := rfl

/-- Settles O6: one clause for each kind of turn that runs an operation. -/
theorem stepRunsTheDecodedOperation : Obligations.StepRunsTheDecodedOperation := by
  refine ⟨fun s u w i hfg hfetch hdec => ?_, fun s w ts i hturn hdec => ?_, fun s ts hturn => ?_⟩
  · rw [step_of_fgMovesIn hfg, stepFg_of_decode_ok hfetch hdec]
  · rw [step_of_turns_cons hturn, stepTurn_event_of_decode_ok hdec]
  · rw [step_of_turns_cons hturn, stepTurn_spuriousRx]

/-! ## The foreground's streams -/

/-- What FG's work may do to the outputs (R8): append to `fg_out` and to the responses, and leave the ports of the
services alone. -/
structure State.FgExtends (s t : State) : Prop where
  fgOut : s.out.fgOut <+: t.out.fgOut
  responses : s.out.responses <+: t.out.responses
  txOut : t.out.txOut = s.out.txOut
  ledOut : t.out.ledOut = s.out.ledOut

namespace State.FgExtends

/-- Work that writes no stream. -/
theorem of_out_eq {s t : State} (h : t.out = s.out) : s.FgExtends t := by
  constructor <;> simp [h]

theorem trans {s t u : State} (h : s.FgExtends t) (k : t.FgExtends u) : s.FgExtends u where
  fgOut := h.fgOut.trans k.fgOut
  responses := h.responses.trans k.responses
  txOut := k.txOut.trans h.txOut
  ledOut := k.ledOut.trans h.ledOut

/-- Work that appends records to `fg_out`. -/
theorem of_fgOut_append {s t : State} {rs : List FgRecord} (h : t.out = { s.out with fgOut := s.out.fgOut ++ rs }) :
    s.FgExtends t := by
  constructor <;> simp [h]

/-- A command's work followed by its completion. -/
theorem complete {s t : State} (h : s.FgExtends t) (rdata : Word) : s.FgExtends (t.complete rdata) :=
  h.trans (by constructor <;> simp)

theorem setPhase {s t : State} (h : s.FgExtends t) (ph : Phase) : s.FgExtends (t.setPhase ph) :=
  h.trans (of_out_eq rfl)

theorem decodeOne (p : Params) (s : State) : s.FgExtends (s.decodeOne p) := by
  rcases s.decodeOne_cases p with ⟨-, e⟩ | ⟨-, e⟩ <;> rw [e]
  · exact of_out_eq rfl
  · exact of_fgOut_append rfl

theorem delayBody (p : Params) (s : State) (poll : Bool) : s.FgExtends (s.delayBody p poll) := by
  cases poll
  · exact of_out_eq rfl
  · exact decodeOne p s

theorem delayStep (p : Params) (s : State) (poll : Bool) (left : Nat) : s.FgExtends (s.delayStep p poll left) := by
  rcases s.delayStep_cases p poll left with ⟨-, e⟩ | ⟨-, e⟩ | ⟨n, -, e⟩ <;> rw [e]
  · exact (of_out_eq rfl).complete 0
  · exact (delayBody p s poll).complete 0
  · exact (delayBody p s poll).setPhase _

theorem selectRow (s : State) (row : Nat) : s.FgExtends (s.selectRow row) :=
  of_fgOut_append (rs := [.rowSelect row]) rfl

theorem updateRow (p : Params) (s : State) (row : Nat) (cols : Word) : s.FgExtends (s.updateRow p row cols) := by
  obtain ⟨ks, e, -⟩ := s.updateCols_spec p row cols p.cols
  rw [State.updateRow, e]
  exact of_fgOut_append rfl

theorem tick (p : Params) (s : State) (cols : Word) : s.FgExtends (s.tick p cols) :=
  (selectRow s _).trans (updateRow p _ _ cols)

end State.FgExtends

/-- DELAY, from every phase: the draw writes no stream and the iteration is FG's work. -/
theorem delay_fgExtends (p : Params) (ms : Half) (poll : Bool) (s : State) :
    ∃ t, delay p ms poll s = .next t ∧ s.FgExtends t := by
  have drawn : s.FgExtends (s.afterItersDraw.delayStep p poll s.itersDraw) :=
    (State.FgExtends.of_out_eq s.afterItersDraw_out).trans (.delayStep ..)
  unfold delay
  cases s.fg.phase with
  | delaying left => exact ⟨_, rfl, .delayStep ..⟩
  | idle => exact ⟨_, rfl, drawn⟩
  | encNote a0 => exact ⟨_, rfl, drawn⟩
  | encVel a0 a1 => exact ⟨_, rfl, drawn⟩

/-- ENC_SEND, from every phase: a push writes no stream. -/
theorem encSend_fgExtends (p : Params) (cmd note vel : Byte) (s : State) :
    ∃ t, encSend p cmd note vel s = .next t ∧ s.FgExtends t := by
  have pushed (b : Byte) : s.FgExtends (s.pushOut p b) := .of_out_eq rfl
  unfold encSend
  cases s.fg.phase with
  | encNote a0 => exact ⟨_, rfl, (pushed _).setPhase _⟩
  | encVel a0 a1 => exact ⟨_, rfl, (pushed _).complete _⟩
  | idle => exact ⟨_, rfl, (pushed _).setPhase _⟩
  | delaying left => exact ⟨_, rfl, (pushed _).setPhase _⟩

/-- RX_POP answers the oldest byte, or holds with nothing changed (R118). -/
theorem rxPop_fgExtends (p : Params) (s : State) : ∃ t, rxPop p s = .next t ∧ s.FgExtends t := by
  unfold rxPop
  split
  · exact ⟨_, rfl, (State.FgExtends.of_out_eq (State.setIn_out s _)).complete _⟩
  · exact ⟨s, rfl, .of_out_eq rfl⟩

/-- Every foreground command answers a state in which only FG's own streams have grown (R8). -/
theorem exec_command_fgExtends {i : Instr} (hi : i.isCommand = true) (s : State) :
    ∃ t, exec i s = .next t ∧ s.FgExtends t := by
  have quiet {t : State} (h : t.out = s.out) (rdata : Word) : s.FgExtends (t.complete rdata) :=
    (State.FgExtends.of_out_eq h).complete rdata
  cases i with
  | chInit ch => exact ⟨_, rfl, quiet (State.setChan_out ..) 0⟩
  | rxPop => exact rxPop_fgExtends Config.params s
  | chHas ch => exact ⟨_, rfl, quiet rfl _⟩
  | txPush byte => exact ⟨_, rfl, quiet (State.pushOut_out ..) _⟩
  | statRd ch sel => exact ⟨_, rfl, quiet rfl _⟩
  | decInit => exact ⟨_, rfl, quiet (State.setDec_out ..) 0⟩
  | decPoll => exact ⟨_, rfl, (State.FgExtends.decodeOne Config.params s).complete _⟩
  | encSend cmd note vel => exact encSend_fgExtends Config.params cmd note vel s
  | hndSet sel en => exact ⟨_, rfl, quiet (State.setHnd_out ..) 0⟩
  | scanInit =>
    exact ⟨_, rfl, ((State.FgExtends.of_out_eq (State.setScan_out ..)).trans (.selectRow _ 0)).complete 0⟩
  | scanTick =>
    exact ⟨_, rfl, ((State.FgExtends.of_out_eq s.afterColsDraw_out).trans (.tick _ _ s.colsDraw)).complete 0⟩
  | fsInit => exact ⟨_, rfl, quiet (State.setFs_out ..) 0⟩
  | fsSet idx c0 c1 c2 => exact ⟨_, rfl, quiet (State.setFs_out ..) 0⟩
  | fsClr => exact ⟨_, rfl, quiet (State.setFs_out ..) 0⟩
  | fsGet idx => exact ⟨_, rfl, quiet rfl _⟩
  | delay ms poll => exact delay_fgExtends Config.params ms poll s
  | irqFlush => cases hi
  | irqRx avail data pe fe oe => cases hi
  | irqTx => cases hi

/-! ## The services' streams -/

/-- What a service may do to the outputs (R8, R236): append `tx` and `led` to the ports of the services, with `fg_out`,
the responses and FG's position as they were. -/
structure State.ServiceExtends (s t : State) (tx led : List Byte) : Prop where
  out : t.out = { s.out with txOut := s.out.txOut ++ tx, ledOut := s.out.ledOut ++ led }
  fg : t.fg = s.fg

/-- The transmit service writes no stream but `tx_out` (R122). -/
theorem txBody_serviceExtends (p : Params) (s : State) : ∃ tx, s.ServiceExtends (txBody p s) tx [] := by
  rcases txBody_cases p s with ⟨-, e⟩ | ⟨-, e⟩ <;> rw [e]
  · exact ⟨[], by simp, rfl⟩
  · exact ⟨[s.outCh.oldest], by simp, rfl⟩

/-- Every event service answers a state in which only the ports of the services have grown, `tx_out` by the transmit
service alone and `led_out` by the flush service alone (R8). -/
theorem exec_service_extends {i : Instr} (hi : i.isCommand = false) (s : State) :
    ∃ t tx led, exec i s = .next t ∧ s.ServiceExtends t tx led ∧
      (i ≠ .irqTx → tx = []) ∧ (i ≠ .irqFlush → led = []) := by
  cases i with
  | irqFlush =>
    exact ⟨flushBody s, [], s.fs.flushBytes, rfl, ⟨by simp [flushBody, State.emitLed], rfl⟩, by simp, by simp⟩
  | irqRx avail data pe fe oe =>
    exact ⟨rxBody Config.params avail data pe fe oe s, [], [], rfl, ⟨by simp [rxBody], rfl⟩, by simp, by simp⟩
  | irqTx =>
    obtain ⟨tx, htx⟩ := txBody_serviceExtends Config.params s
    exact ⟨txBody Config.params s, tx, [], rfl, htx, by simp, by simp⟩
  | _ => cases hi

/-- Settles O28: a command extends FG's streams only, a service the services' ports only. -/
theorem streamsGrowByTheirOwnAgent : Obligations.StreamsGrowByTheirOwnAgent := by
  intro i s t ht
  cases hi : i.isCommand with
  | true =>
    obtain ⟨t', ht', grow⟩ := exec_command_fgExtends hi s
    obtain rfl : t' = t := Host.Outcome.next.inj (ht'.symm.trans ht)
    exact ⟨grow.fgOut, by simp [grow.txOut], by simp [grow.ledOut], grow.responses, by simp, fun _ => grow.txOut,
      fun _ => grow.ledOut⟩
  | false =>
    obtain ⟨t', tx, led, ht', ⟨hout, hfg⟩, htx, hled⟩ := exec_service_extends hi s
    obtain rfl : t' = t := Host.Outcome.next.inj (ht'.symm.trans ht)
    rw [hout]
    exact ⟨List.prefix_rfl, List.prefix_append _ _, List.prefix_append _ _, List.prefix_rfl, fun _ => ⟨rfl, rfl, hfg⟩,
      fun h => by simp [htx h], fun h => by simp [hled h]⟩

end Sys2Proof.Machine
end

section
/-! PROOFS. State (spec/10_state.md R21 to R33): occupancy of a channel, who writes its cursors and counters, and the
invariant that every step keeps. -/

namespace Sys2Proof.Machine

/-! ## What an operation is made of -/

/-- RX_POP takes the oldest byte, or holds with nothing changed (R118). -/
theorem rxPop_cases (p : Params) (s : State) :
    rxPop p s = .next s ∨ ∃ x, rxPop p s = .next ((s.setIn (s.inCh.pop p.sizeIn)).complete x) := by
  unfold rxPop
  split
  · exact .inr ⟨_, rfl⟩
  · exact .inl rfl

/-- A step of ENC_SEND is one enqueue attempt, after which FG stays inside the command or completes it (R150). -/
theorem encSend_cases (p : Params) (cmd note vel : Byte) (s : State) : ∃ b,
    (∃ ph, encSend p cmd note vel s = .next ((s.pushOut p b).setPhase ph)) ∨
    ∃ x, encSend p cmd note vel s = .next ((s.pushOut p b).complete x) := by
  unfold encSend
  cases s.fg.phase with
  | idle => exact ⟨cmd, .inl ⟨_, rfl⟩⟩
  | encNote a0 => exact ⟨mask7 note, .inl ⟨_, rfl⟩⟩
  | encVel a0 a1 => exact ⟨mask7 vel, .inr ⟨_, rfl⟩⟩
  | delaying left => exact ⟨cmd, .inl ⟨_, rfl⟩⟩

/-- A step of DELAY is a delay turn, made after the draw when the command starts (R216). -/
theorem delay_cases (p : Params) (ms : Half) (poll : Bool) (s : State) : ∃ u left,
    (u = s ∨ u = s.afterItersDraw) ∧ delay p ms poll s = .next (u.delayStep p poll left) := by
  unfold delay
  cases s.fg.phase with
  | delaying left => exact ⟨_, _, .inl rfl, rfl⟩
  | idle => exact ⟨_, _, .inr rfl, rfl⟩
  | encNote a0 => exact ⟨_, _, .inr rfl, rfl⟩
  | encVel a0 a1 => exact ⟨_, _, .inr rfl, rfl⟩

/-- A decode poll takes `IN`'s oldest byte or leaves `IN` as it is, and leaves `OUT` alone (R148). -/
theorem State.decodeOne_channels (p : Params) (s : State) :
    ((s.decodeOne p).inCh = s.inCh ∨ (s.decodeOne p).inCh = s.inCh.pop p.sizeIn) ∧
      (s.decodeOne p).outCh = s.outCh := by
  rcases s.decodeOne_cases p with ⟨-, e⟩ | ⟨-, e⟩ <;> rw [e]
  · exact ⟨.inl rfl, rfl⟩
  · exact ⟨.inr rfl, rfl⟩

/-- A delay's turn does to the channels what its poll does, if it polls (R216). -/
theorem State.delayStep_channels (p : Params) (s : State) (poll : Bool) (left : Nat) :
    ((s.delayStep p poll left).inCh = s.inCh ∨ poll = true ∧ (s.delayStep p poll left).inCh = s.inCh.pop p.sizeIn) ∧
      (s.delayStep p poll left).outCh = s.outCh := by
  have hbody : ((s.delayBody p poll).inCh = s.inCh ∨ poll = true ∧ (s.delayBody p poll).inCh = s.inCh.pop p.sizeIn) ∧
      (s.delayBody p poll).outCh = s.outCh := by
    cases poll with
    | false => exact ⟨.inl rfl, rfl⟩
    | true => simpa using s.decodeOne_channels p
  rcases s.delayStep_cases p poll left with ⟨-, e⟩ | ⟨-, e⟩ | ⟨n, -, e⟩ <;> rw [e]
  · exact ⟨.inl rfl, rfl⟩
  · exact hbody
  · exact hbody

/-- A scan tick leaves the channels alone (R162). -/
theorem State.tick_channels (p : Params) (s : State) (cols : Word) :
    (s.tick p cols).inCh = s.inCh ∧ (s.tick p cols).outCh = s.outCh := by
  obtain ⟨ks, e, -⟩ := (s.selectRow ((s.scan.row + 1) % p.rows)).updateCols_spec p s.scan.row cols p.cols
  rw [State.tick, State.updateRow, e]
  exact ⟨rfl, rfl⟩

/-! ## What an operation does to a channel (R110, R265) -/

/-- Everything an operation can make of `IN`. -/
inductive Channel.InboundStep (c : Channel) (p : Params) : Instr → Channel → Prop where
  | kept (i : Instr) : Channel.InboundStep c p i c
  | init : Channel.InboundStep c p (.chInit .inbound) (c.init p.sizeIn)
  | rxPop : Channel.InboundStep c p .rxPop (c.pop p.sizeIn)
  | decPoll : Channel.InboundStep c p .decPoll (c.pop p.sizeIn)
  | delayPoll (ms : Half) : Channel.InboundStep c p (.delay ms true) (c.pop p.sizeIn)
  | receive (avail : Bool) (b : Byte) (pe fe oe : Bool) :
      Channel.InboundStep c p (.irqRx avail b pe fe oe) (rxChannel p.sizeIn avail b pe fe oe c)

/-- Everything an operation can make of `OUT`. -/
inductive Channel.OutboundStep (c : Channel) (p : Params) : Instr → Channel → Prop where
  | kept (i : Instr) : Channel.OutboundStep c p i c
  | init : Channel.OutboundStep c p (.chInit .outbound) (c.init p.sizeOut)
  | txPush (b : Byte) : Channel.OutboundStep c p (.txPush b) (c.push p.sizeOut b)
  | encSend (cmd note vel b : Byte) : Channel.OutboundStep c p (.encSend cmd note vel) (c.push p.sizeOut b)
  | transmitNothing : Channel.OutboundStep c p .irqTx (c.tally .ints)
  | transmit : Channel.OutboundStep c p .irqTx (((c.tally .ints).pop p.sizeOut).tally .bytes)

/-- What an operation of the machine may do to the two channels. -/
structure State.ChannelStep (s : State) (i : Instr) (t : State) : Prop where
  inbound : s.inCh.InboundStep Config.params i t.inCh
  outbound : s.outCh.OutboundStep Config.params i t.outCh

theorem State.ChannelStep.of_same {i : Instr} {s t : State} (hin : t.inCh = s.inCh) (hout : t.outCh = s.outCh) :
    s.ChannelStep i t :=
  ⟨hin ▸ .kept i, hout ▸ .kept i⟩

/-- No operation does anything else to the channels. -/
theorem exec_channelStep (i : Instr) (s : State) : ∃ t, exec i s = .next t ∧ s.ChannelStep i t := by
  cases i with
  | chInit ch =>
    cases ch with
    | inbound => exact ⟨_, rfl, .init, .kept _⟩
    | outbound => exact ⟨_, rfl, .kept _, .init⟩
  | rxPop =>
    rcases rxPop_cases Config.params s with e | ⟨x, e⟩
    · exact ⟨_, e, .of_same rfl rfl⟩
    · exact ⟨_, e, .rxPop, .kept _⟩
  | chHas ch => exact ⟨_, rfl, .of_same rfl rfl⟩
  | txPush b => exact ⟨_, rfl, .kept _, .txPush b⟩
  | statRd ch sel => exact ⟨_, rfl, .of_same rfl rfl⟩
  | decInit => exact ⟨_, rfl, .of_same rfl rfl⟩
  | decPoll =>
    obtain ⟨hin | hin, hout⟩ := s.decodeOne_channels Config.params
    · exact ⟨_, rfl, .of_same hin hout⟩
    · exact ⟨_, rfl, hin ▸ .decPoll, hout ▸ .kept _⟩
  | encSend cmd note vel =>
    obtain ⟨b, ⟨ph, e⟩ | ⟨x, e⟩⟩ := encSend_cases Config.params cmd note vel s
    · exact ⟨_, e, .kept _, .encSend cmd note vel b⟩
    · exact ⟨_, e, .kept _, .encSend cmd note vel b⟩
  | hndSet sel en => exact ⟨_, rfl, .of_same rfl rfl⟩
  | scanInit => exact ⟨_, rfl, .of_same rfl rfl⟩
  | scanTick =>
    obtain ⟨hin, hout⟩ := s.afterColsDraw.tick_channels Config.params s.colsDraw
    exact ⟨_, rfl, .of_same (hin.trans s.afterColsDraw_inCh) (hout.trans s.afterColsDraw_outCh)⟩
  | fsInit => exact ⟨_, rfl, .of_same rfl rfl⟩
  | fsSet idx c0 c1 c2 => exact ⟨_, rfl, .of_same rfl rfl⟩
  | fsClr => exact ⟨_, rfl, .of_same rfl rfl⟩
  | fsGet idx => exact ⟨_, rfl, .of_same rfl rfl⟩
  | delay ms poll =>
    obtain ⟨u, left, hu, e⟩ := delay_cases Config.params ms poll s
    have hsame : u.inCh = s.inCh ∧ u.outCh = s.outCh := by rcases hu with rfl | rfl <;> simp
    obtain ⟨hin | ⟨rfl, hin⟩, hout⟩ := u.delayStep_channels Config.params poll left
    · exact ⟨_, e, .of_same (hin.trans hsame.1) (hout.trans hsame.2)⟩
    · exact ⟨_, e, by rw [hin, hsame.1]; exact .delayPoll ms, by rw [hout, hsame.2]; exact .kept _⟩
  | irqFlush => exact ⟨_, rfl, .of_same rfl rfl⟩
  | irqRx avail b pe fe oe => exact ⟨_, rfl, .receive avail b pe fe oe, .kept _⟩
  | irqTx =>
    refine ⟨txBody Config.params s, rfl, ?_⟩
    rcases txBody_cases Config.params s with ⟨-, e⟩ | ⟨-, e⟩ <;> rw [e]
    · exact ⟨.kept _, .transmitNothing⟩
    · exact ⟨.kept _, .transmit⟩

theorem channelStep_of_exec {i : Instr} {s t : State} (h : exec i s = .next t) : s.ChannelStep i t := by
  obtain ⟨t', ht', hch⟩ := exec_channelStep i s
  obtain rfl : t' = t := Host.Outcome.next.inj (ht'.symm.trans h)
  exact hch

/-! ## Each cursor and buffer has one writer (R22, R23) -/

/-- A receive service that fills a slot was given an unflagged byte (R120). -/
theorem unflagged_of_rxChannel_writes {size : Nat} {avail : Bool} {b : Byte} {pe fe oe : Bool} {c : Channel}
    (h : (rxChannel size avail b pe fe oe c).wr ≠ c.wr ∨ (rxChannel size avail b pe fe oe c).buf ≠ c.buf) :
    avail = true ∧ pe = false ∧ fe = false ∧ oe = false := by
  rcases rxChannel_cases size avail b pe fe oe c with ⟨-, e⟩ | ⟨-, -, e⟩ | ⟨-, -, -, e⟩ | ⟨havail, hflags, -, -⟩
  · simp [e] at h
  · simp [e] at h
  · simp [e] at h
  · simpa [lineError, havail, and_assoc] using hflags

namespace Channel.InboundStep

variable {c c' : Channel} {p : Params} {i : Instr}

theorem writer_of_wr_or_buf (h : c.InboundStep p i c') (hw : c'.wr ≠ c.wr ∨ c'.buf ≠ c.buf) :
    (∃ b, i = .irqRx true b false false false) ∨ i = .chInit .inbound := by
  cases h with
  | init => exact .inr rfl
  | receive avail b pe fe oe =>
    obtain ⟨rfl, rfl, rfl, rfl⟩ := unflagged_of_rxChannel_writes hw
    exact .inl ⟨b, rfl⟩
  | _ => simp at hw

theorem writer_of_rd (h : c.InboundStep p i c') (hr : c'.rd ≠ c.rd) :
    i = .rxPop ∨ i = .decPoll ∨ (∃ ms, i = .delay ms true) ∨ i = .chInit .inbound := by
  cases h with
  | init => simp
  | rxPop => simp
  | decPoll => simp
  | delayPoll ms => simp
  | kept => simp at hr
  | receive => simp at hr

end Channel.InboundStep

namespace Channel.OutboundStep

variable {c c' : Channel} {p : Params} {i : Instr}

theorem writer_of_wr_or_buf (h : c.OutboundStep p i c') (hw : c'.wr ≠ c.wr ∨ c'.buf ≠ c.buf) :
    (∃ b, i = .txPush b) ∨ (∃ cmd note vel, i = .encSend cmd note vel) ∨ i = .chInit .outbound := by
  cases h with
  | init => simp
  | txPush b => simp
  | encSend cmd note vel b => simp
  | kept => simp at hw
  | transmitNothing => simp at hw
  | transmit => simp at hw

theorem writer_of_rd (h : c.OutboundStep p i c') (hr : c'.rd ≠ c.rd) : i = .irqTx ∨ i = .chInit .outbound := by
  cases h with
  | init => exact .inr rfl
  | transmit => exact .inl rfl
  | _ => simp at hr

end Channel.OutboundStep

/-- Settles O26: the channels an operation can make, read by the field that changed. -/
theorem eachCursorHasOneWriter : Obligations.EachCursorHasOneWriter := by
  intro i s t ht
  obtain ⟨hin, hout⟩ := channelStep_of_exec ht
  exact ⟨hin.writer_of_wr_or_buf, hin.writer_of_rd, hout.writer_of_wr_or_buf, hout.writer_of_rd⟩

/-! ## Counters never decrease (R24) -/

theorem Stats.get_le_bump (t : Stats) (k sel : StatSel) : t.get sel ≤ (t.bump k).get sel := by
  rw [Stats.bump_get]
  split <;> omega

theorem Channel.stat_get_le_tally (c : Channel) (k sel : StatSel) : c.stat.get sel ≤ (c.tally k).stat.get sel :=
  c.stat.get_le_bump k sel

theorem Channel.stat_get_le_tallyIf (c : Channel) (cond : Bool) (k sel : StatSel) :
    c.stat.get sel ≤ (c.tallyIf cond k).stat.get sel := by
  cases cond with
  | false => exact Nat.le_refl _
  | true => exact c.stat_get_le_tally k sel

/-- An enqueue attempt counts an overflow or nothing (R114). -/
theorem Channel.push_stat (size : Nat) (c : Channel) (b : Byte) :
    (c.push size b).stat = c.stat.bump .overflow ∨ (c.push size b).stat = c.stat := by
  unfold Channel.push
  split
  · exact .inl rfl
  · exact .inr rfl

theorem Channel.stat_get_le_push (size : Nat) (c : Channel) (b : Byte) (sel : StatSel) :
    c.stat.get sel ≤ (c.push size b).stat.get sel := by
  rcases c.push_stat size b with e | e <;> rw [e]
  exact c.stat.get_le_bump _ sel

/-- The receive service lowers no counter: all it does to them is counting. -/
theorem stat_get_le_rxChannel (size : Nat) (avail : Bool) (b : Byte) (pe fe oe : Bool) (c : Channel) (sel : StatSel) :
    c.stat.get sel ≤ (rxChannel size avail b pe fe oe c).stat.get sel := by
  have hserviced := c.stat_get_le_tally .ints sel
  rcases rxChannel_cases size avail b pe fe oe c with ⟨-, e⟩ | ⟨-, -, e⟩ | ⟨-, -, -, e⟩ | ⟨-, -, -, e⟩ <;> rw [e]
  · exact hserviced
  · calc c.stat.get sel ≤ _ := hserviced
      _ ≤ _ := Channel.stat_get_le_tallyIf _ pe .parity sel
      _ ≤ _ := Channel.stat_get_le_tallyIf _ fe .framing sel
      _ ≤ _ := Channel.stat_get_le_tallyIf _ oe .overrun sel
  · exact hserviced.trans (Channel.stat_get_le_tally _ _ sel)
  · exact (hserviced.trans (Channel.stat_get_le_push size _ b sel)).trans (Channel.stat_get_le_tally _ _ sel)

theorem Channel.InboundStep.stat_get_le {c c' : Channel} {p : Params} {i : Instr} (h : c.InboundStep p i c')
    (hi : i ≠ .chInit .inbound) (sel : StatSel) : c.stat.get sel ≤ c'.stat.get sel := by
  cases h with
  | init => exact absurd rfl hi
  | receive avail b pe fe oe => exact stat_get_le_rxChannel ..
  | _ => exact Nat.le_refl _

theorem Channel.OutboundStep.stat_get_le {c c' : Channel} {p : Params} {i : Instr} (h : c.OutboundStep p i c')
    (hi : i ≠ .chInit .outbound) (sel : StatSel) : c.stat.get sel ≤ c'.stat.get sel := by
  cases h with
  | kept => exact Nat.le_refl _
  | init => exact absurd rfl hi
  | txPush b => exact c.stat_get_le_push _ b sel
  | encSend cmd note vel b => exact c.stat_get_le_push _ b sel
  | transmitNothing => exact c.stat_get_le_tally .ints sel
  | transmit => exact (c.stat_get_le_tally .ints sel).trans (Channel.stat_get_le_tally _ .bytes sel)

/-- Settles O27: apart from its initialisation, all that an operation can make of a channel only counts. -/
theorem countersNeverDecrease : Obligations.CountersNeverDecrease := by
  intro i s t ch sel ht hi
  obtain ⟨hin, hout⟩ := channelStep_of_exec ht
  cases ch with
  | inbound => exact hin.stat_get_le hi sel
  | outbound => exact hout.stat_get_le hi sel

/-! ## Occupancy (R25 (b), (d); R123 (a)) -/

section Occupancy

variable {size : Nat} {c : Channel}

theorem Channel.InRange.count_le (h : c.InRange size) : c.count size ≤ size - 1 := by
  have hw := h.wr_lt
  rw [Channel.count_eq hw h.rd_lt]
  split <;> omega

theorem Channel.InRange.count_eq_zero_iff (h : c.InRange size) : c.count size = 0 ↔ c.wr = c.rd := by
  have hw := h.wr_lt
  have hr := h.rd_lt
  rw [Channel.count_eq hw hr]
  split <;> omega

/-- Full is the cursor test: one more enqueue would make the cursors equal (R25 (d)). -/
theorem Channel.InRange.succ_wr_eq_rd_iff (h : c.InRange size) :
    (c.wr + 1) % size = c.rd ↔ c.count size = size - 1 := by
  have hw := h.wr_lt
  have hr := h.rd_lt
  rw [Channel.count_eq hw hr, succ_mod_eq hw]
  split <;> split <;> omega

end Occupancy

/-- Settles O23: the occupancy of a ring of any size, at `2^k` slots. -/
theorem occupancyIsBoundedByCap : Obligations.OccupancyIsBoundedByCap :=
  fun _ _ _ h => ⟨h.count_le, h.count_eq_zero_iff, h.succ_wr_eq_rd_iff⟩

/-! ## The invariant and the updates -/

/-- No line error has been counted (R24: no rule counts one on `OUT`). -/
def Stats.NoLineErrors (t : Stats) : Prop := t.parity = 0 ∧ t.framing = 0 ∧ t.overrun = 0

theorem Channel.push_noLineErrors {c : Channel} (h : c.stat.NoLineErrors) (size : Nat) (b : Byte) :
    (c.push size b).stat.NoLineErrors := by
  rcases c.push_stat size b with e | e <;> rw [e] <;> exact h

theorem raiseDirty_lt {n idx : Nat} {dirty : Option Nat} (h : ∀ d, dirty = some d → d < n) (hi : idx < n) :
    ∀ d, raiseDirty dirty idx = some d → d < n := by
  intro d hd
  cases dirty with
  | none => cases hd; exact hi
  | some e =>
    rw [raiseDirty_some] at hd
    cases hd
    exact max_lt (h e rfl) hi

/-- The index of a confirmed transition is that of its input (R169). -/
theorem edgeRecords_legal {p : Params} {i : Nat} (hi : i < p.keys) (h : Handlers) (e : Option Edge) :
    ∀ r ∈ edgeRecords h i e, r.Legal p := by
  intro r hr
  unfold edgeRecords at hr
  split at hr
  · cases hr
  · split at hr
    · cases List.mem_singleton.mp hr; exact hi
    · cases hr
  · split at hr
    · cases List.mem_singleton.mp hr; exact hi
    · cases hr

/-- The inputs of a row of the matrix are inputs (R88). -/
theorem flatIndex_lt_keys {p : Params} {row col : Nat} (hr : row < p.rows) (hc : col < p.cols) :
    flatIndex p row col < p.keys :=
  calc row * p.cols + col < (row + 1) * p.cols := by rw [Nat.succ_mul]; omega
    _ ≤ p.rows * p.cols := Nat.mul_le_mul_right _ hr

theorem Key.zero_reachable (nDown nUp : Nat) : Key.zero.Reachable nDown nUp := rfl

end Sys2Proof.Machine

namespace Sys2Proof.Params.Valid

variable {p : Params}

theorem rows_pos (h : p.Valid) : 0 < p.rows := by
  obtain ⟨-, -, -, -, hrows, -⟩ := h
  exact hrows

theorem nDown_le (h : p.Valid) : p.nDown ≤ 31 := by
  obtain ⟨-, -, -, -, -, -, -, -, -, hdown, -⟩ := h
  exact hdown

theorem nUp_le (h : p.Valid) : p.nUp ≤ 31 := by
  obtain ⟨-, -, -, -, -, -, -, -, -, -, -, hup, -⟩ := h
  exact hup

theorem lastLed_lt (h : p.Valid) : p.nLeds - 1 < p.nLeds := by
  obtain ⟨-, -, -, -, -, -, -, -, -, -, -, -, hleds, -⟩ := h
  exact Nat.sub_one_lt_of_lt hleds

end Sys2Proof.Params.Valid

namespace Sys2Proof.Machine

namespace State.Inv

variable {p : Params} {s t : State}

/-- The invariant speaks of the channels, the decoder, the scanner, the frame store and `fg_out` only. -/
theorem of_same (h : s.Inv p) (hin : t.inCh = s.inCh) (hout : t.outCh = s.outCh) (hdec : t.dec = s.dec)
    (hscan : t.scan = s.scan) (hfs : t.fs = s.fs) (hrec : t.out.fgOut = s.out.fgOut) : t.Inv p := by
  constructor <;> simp only [hin, hout, hdec, hscan, hfs, hrec]
  · exact h.inCh
  · exact h.outCh
  · exact h.outLineErrors
  · exact h.dec
  · exact h.row
  · exact h.keys_wf
  · exact h.keys_within
  · exact h.keys_reachable
  · exact h.led_wf
  · exact h.led_within
  · exact h.dirty
  · exact h.records

theorem setIn (h : s.Inv p) {c : Channel} (hc : c.InRange p.sizeIn) : (s.setIn c).Inv p := { h with inCh := hc }

theorem setOut (h : s.Inv p) {c : Channel} (hc : c.InRange p.sizeOut) (he : c.stat.NoLineErrors) : (s.setOut c).Inv p :=
  { h with outCh := hc, outLineErrors := he }

theorem setDec (h : s.Inv p) {d : Decoder} (hd : d.Consistent p) : (s.setDec d).Inv p := { h with dec := hd }

theorem setScan (h : s.Inv p) {k : Scanner} (hrow : k.row < p.rows) (hwf : Memory.wf Key.zero k.key = true)
    (hwithin : Memory.within p.keys k.key = true) (hkeys : ∀ i, (k.keyAt i).Reachable p.nDown p.nUp) :
    (s.setScan k).Inv p :=
  { h with row := hrow, keys_wf := hwf, keys_within := hwithin, keys_reachable := hkeys }

theorem setFs (h : s.Inv p) {f : FrameStore} (hwf : Memory.wf Colour.zero f.led = true)
    (hwithin : Memory.within p.nLeds f.led = true) (hdirty : ∀ d, f.dirty = some d → d < p.nLeds) :
    (s.setFs f).Inv p :=
  { h with led_wf := hwf, led_within := hwithin, dirty := hdirty }

theorem emitFg (h : s.Inv p) {rs : List FgRecord} (hrs : ∀ r ∈ rs, r.Legal p) : (s.emitFg rs).Inv p :=
  { h with records := fun r hr => (List.mem_append.mp hr).elim (h.records r) (hrs r) }

theorem complete (h : s.Inv p) (x : Word) : (s.complete x).Inv p := h.of_same rfl rfl rfl rfl rfl rfl

theorem setPhase (h : s.Inv p) (ph : Phase) : (s.setPhase ph).Inv p := h.of_same rfl rfl rfl rfl rfl rfl

theorem afterItersDraw (h : s.Inv p) : s.afterItersDraw.Inv p := by
  apply h.of_same <;> simp

theorem afterColsDraw (h : s.Inv p) : s.afterColsDraw.Inv p := by
  apply h.of_same <;> simp

/-! ## The invariant and the operations' bodies -/

theorem initChan (h : s.Inv p) (ch : Chan) : (s.setChan ch ((s.chan ch).init (p.size ch))).Inv p := by
  cases ch with
  | inbound => exact h.setIn h.inCh.init
  | outbound => exact h.setOut h.outCh.init ⟨rfl, rfl, rfl⟩

theorem pushOut (h : s.Inv p) (b : Byte) : (s.pushOut p b).Inv p :=
  h.setOut (h.outCh.push b) (Channel.push_noLineErrors h.outLineErrors _ b)

theorem decodeOne (h : s.Inv p) : (s.decodeOne p).Inv p := by
  unfold State.decodeOne
  split
  · exact ((h.setIn h.inCh.pop).setDec (h.dec.next _)).emitFg (decRecords_legal h.dec _ _)
  · exact h

theorem delayBody (h : s.Inv p) (poll : Bool) : (s.delayBody p poll).Inv p := by
  cases poll with
  | false => exact h
  | true => exact h.decodeOne

theorem delayStep (h : s.Inv p) (poll : Bool) (left : Nat) : (s.delayStep p poll left).Inv p := by
  rcases s.delayStep_cases p poll left with ⟨-, e⟩ | ⟨-, e⟩ | ⟨n, -, e⟩ <;> rw [e]
  · exact h.complete 0
  · exact (h.delayBody poll).complete 0
  · exact (h.delayBody poll).setPhase _

theorem selectRow (h : s.Inv p) {row : Nat} (hr : row < p.rows) : (s.selectRow row).Inv p := by
  have hrec : (FgRecord.rowSelect row).Legal p := hr
  exact (h.setScan (k := { s.scan with row := row }) hr h.keys_wf h.keys_within h.keys_reachable).emitFg
    (List.forall_mem_singleton.mpr hrec)

/-- Every input is `(Unknown, 0)` after the clearing, or, outside the matrix, as it was (R161). -/
theorem clearKeys (h : s.Inv p) : (s.setScan { s.scan with key := Memory.clear p.keys s.scan.key }).Inv p := by
  refine h.setScan h.row (Memory.wf_clear _ _ _ h.keys_wf) (Memory.within_clear _ _ _ h.keys_within) fun i => ?_
  rw [Scanner.keyAt, Memory.read_clear]
  split
  · exact Key.zero_reachable ..
  · exact h.keys_reachable i

/-- A key update keeps every key at a value of R170 and records at most an edge of its own input. -/
theorem keyUpdate (hp : p.Valid) (h : s.Inv p) {i : Nat} (hi : i < p.keys) (x : Bool) : (s.keyUpdate p i x).Inv p := by
  have hnext := Key.reachable_next hp.nDown_le hp.nUp_le _ (h.keys_reachable i) x
  have hkeys (j : Nat) : ((s.keyUpdate p i x).scan.keyAt j).Reachable p.nDown p.nUp := by
    rw [State.keyUpdate_keyAt]
    split
    · exact hnext
    · exact h.keys_reachable j
  exact (h.setScan (k := (s.keyUpdate p i x).scan) h.row (Memory.wf_write _ _ _ _ h.keys_wf)
    (Memory.within_write _ _ _ _ _ hi h.keys_within) hkeys).emitFg (edgeRecords_legal hi _ _)

theorem updateRow (hp : p.Valid) (h : s.Inv p) {row : Nat} (hr : row < p.rows) (cols : Word) :
    (s.updateRow p row cols).Inv p :=
  List.foldlRecOn _ _ h fun _ ht _ hc => ht.keyUpdate hp (flatIndex_lt_keys hr (List.mem_range.mp hc)) _

theorem tick (hp : p.Valid) (h : s.Inv p) (cols : Word) : (s.tick p cols).Inv p :=
  (h.selectRow (Nat.mod_lt _ (Nat.zero_lt_of_lt h.row))).updateRow hp h.row cols

theorem clearLeds (h : s.Inv p) {dirty : Option Nat} (hd : ∀ d, dirty = some d → d < p.nLeds) :
    (s.setFs ⟨Memory.clear p.nLeds s.fs.led, dirty⟩).Inv p :=
  h.setFs (Memory.wf_clear _ _ _ h.led_wf) (Memory.within_clear _ _ _ h.led_within) hd

theorem setLed (h : s.Inv p) (idx : Half) (c : Colour) :
    (s.setFs (if p.ledInRange idx then s.fs.set idx.toNat c else s.fs)).Inv p := by
  split
  · next hr =>
    have hi : idx.toNat < p.nLeds := of_decide_eq_true hr
    exact h.setFs (Memory.wf_write _ _ _ _ h.led_wf) (Memory.within_write _ _ _ _ _ hi h.led_within)
      (raiseDirty_lt h.dirty hi)
  · exact h

theorem flush (h : s.Inv p) : (flushBody s).Inv p :=
  of_same (h.setFs (f := { s.fs with dirty := none }) h.led_wf h.led_within nofun) rfl rfl rfl rfl rfl rfl

theorem transmit (h : s.Inv p) : (txBody p s).Inv p := by
  rcases txBody_cases p s with ⟨-, e⟩ | ⟨-, e⟩ <;> rw [e]
  · exact h.setOut (h.outCh.tally .ints) h.outLineErrors
  · exact (h.setOut ((h.outCh.tally .ints).pop.tally .bytes) h.outLineErrors).of_same rfl rfl rfl rfl rfl rfl

end State.Inv

/-! ## Every step keeps the invariant -/

/-- Every operation of the machine keeps the invariant. -/
theorem exec_keeps_inv (i : Instr) {s : State} (h : s.Inv Config.params) :
    ∃ t, exec i s = .next t ∧ t.Inv Config.params := by
  have hp := Config.params_valid
  cases i with
  | chInit ch => exact ⟨_, rfl, (h.initChan ch).complete 0⟩
  | rxPop =>
    rcases rxPop_cases Config.params s with e | ⟨x, e⟩
    · exact ⟨_, e, h⟩
    · exact ⟨_, e, (h.setIn h.inCh.pop).complete x⟩
  | chHas ch => exact ⟨_, rfl, h.complete _⟩
  | txPush b => exact ⟨_, rfl, (h.pushOut b).complete _⟩
  | statRd ch sel => exact ⟨_, rfl, h.complete _⟩
  | decInit => exact ⟨_, rfl, (h.setDec (d := Decoder.reset) trivial).complete 0⟩
  | decPoll => exact ⟨_, rfl, h.decodeOne.complete _⟩
  | encSend cmd note vel =>
    obtain ⟨b, ⟨ph, e⟩ | ⟨x, e⟩⟩ := encSend_cases Config.params cmd note vel s
    · exact ⟨_, e, (h.pushOut b).setPhase ph⟩
    · exact ⟨_, e, (h.pushOut b).complete x⟩
  | hndSet sel en => exact ⟨_, rfl, h.of_same rfl rfl rfl rfl rfl rfl⟩
  | scanInit => exact ⟨_, rfl, (h.clearKeys.selectRow (Nat.zero_lt_of_lt h.row)).complete 0⟩
  | scanTick => exact ⟨_, rfl, (h.afterColsDraw.tick hp s.colsDraw).complete 0⟩
  | fsInit => exact ⟨_, rfl, (h.clearLeds (dirty := none) nofun).complete 0⟩
  | fsSet idx c0 c1 c2 => exact ⟨_, rfl, (h.setLed idx _).complete 0⟩
  | fsClr => exact ⟨_, rfl, (h.clearLeds (raiseDirty_lt (dirty := none) nofun hp.lastLed_lt)).complete 0⟩
  | fsGet idx => exact ⟨_, rfl, h.complete _⟩
  | delay ms poll =>
    obtain ⟨u, left, rfl | rfl, e⟩ := delay_cases Config.params ms poll s
    · exact ⟨_, e, h.delayStep poll left⟩
    · exact ⟨_, e, h.afterItersDraw.delayStep poll left⟩
  | irqFlush => exact ⟨_, rfl, h.flush⟩
  | irqRx avail b pe fe oe => exact ⟨_, rfl, h.setIn (h.inCh.rx avail b pe fe oe)⟩
  | irqTx => exact ⟨_, rfl, h.transmit⟩

theorem inv_of_exec {i : Instr} {s t : State} (h : s.Inv Config.params) (ht : exec i s = .next t) :
    t.Inv Config.params := by
  obtain ⟨t', ht', hinv⟩ := exec_keeps_inv i h
  obtain rfl : t' = t := Host.Outcome.next.inj (ht'.symm.trans ht)
  exact hinv

/-- The reset state meets the invariant at every legal choice of the parameters (R260). -/
theorem State.reset_inv {p : Params} (hp : p.Valid) : State.reset.Inv p where
  inCh := Channel.reset_inRange (Nat.two_pow_pos _)
  outCh := Channel.reset_inRange (Nat.two_pow_pos _)
  outLineErrors := ⟨rfl, rfl, rfl⟩
  dec := trivial
  row := hp.rows_pos
  keys_wf := rfl
  keys_within := rfl
  keys_reachable := fun _ => Key.zero_reachable ..
  led_wf := rfl
  led_within := rfl
  dirty := nofun
  records := nofun

/-- FG's turn runs an operation, answers ILLEGAL or idles; the invariant is kept in each case (R6, R93). -/
theorem inv_of_stepFg {s t : State} (h : s.Inv Config.params) (ht : stepFg s = .next t) : t.Inv Config.params := by
  unfold stepFg at ht
  split at ht
  · cases ht; exact h
  · split at ht
    · exact inv_of_exec h ht
    · cases ht; exact h.of_same rfl rfl rfl rfl rfl rfl

/-- A turn is FG's, a service, a dropped event word or the reset input, which keeps nothing of BPCORE (R261). -/
theorem inv_of_stepTurn (turn : Turn) {s t : State} (h : s.Inv Config.params) (ht : stepTurn turn s = .next t) :
    t.Inv Config.params := by
  cases turn with
  | fg => exact inv_of_stepFg h ht
  | event w =>
    simp only [stepTurn] at ht
    split at ht
    · exact inv_of_exec h ht
    · cases ht; exact h
  | spuriousRx => exact inv_of_exec h ((stepTurn_spuriousRx s).symm.trans ht)
  | reset =>
    cases ht
    exact (State.reset_inv Config.params_valid).of_same rfl rfl rfl rfl rfl rfl

/-- Settles O12: a step is FG's turn in the state as it is, or a listed turn in the state with the turn used up. -/
theorem stepKeepsTheInvariant : Obligations.StepKeepsTheInvariant := by
  intro s t h ht
  cases hturns : s.env.turns with
  | nil => exact inv_of_stepFg h ((step_of_fgMovesIn (.inl ⟨hturns, rfl⟩)).symm.trans ht)
  | cons turn ts =>
    have hused : (s.setTurns ts).Inv Config.params := h.of_same rfl rfl rfl rfl rfl rfl
    exact inv_of_stepTurn turn hused ((step_of_turns_cons hturns).symm.trans ht)

end Sys2Proof.Machine
end

section
/-! PROOFS. Memory (spec/20_memory.md R60 to R64): the fixed program, and services that fall beside or inside a foreground
operation. -/

namespace Sys2Proof.Machine

/-! ## A service inside a channel operation (R60, R62) -/

/-- With room, an enqueue is the store and then the publication of `wr` (R60). -/
theorem Channel.push_eq_publishWr_store {size : Nat} {c : Channel} (hroom : (c.wr + 1) % size ≠ c.rd) (b : Byte) :
    c.push size b = (c.store b).publishWr size :=
  (Channel.push_of_not_full hroom b).1

/-- The receive service leaves a waiting byte waiting: it moves `wr` only, and never onto `rd` (R62). -/
theorem rxChannel_has {c : Channel} (hne : c.wr ≠ c.rd) (size : Nat) (avail : Bool) (b : Byte) (pe fe oe : Bool) :
    (rxChannel size avail b pe fe oe c).has = true := by
  rw [Channel.has_iff, rxChannel_rd]
  rcases rxChannel_cases size avail b pe fe oe c with ⟨-, e⟩ | ⟨-, -, e⟩ | ⟨-, -, -, e⟩ | ⟨-, -, hroom, e⟩ <;> rw [e]
  · exact hne
  · simpa using hne
  · exact hne
  · rw [Channel.push_eq_publishWr_store (c := c.tally .ints) hroom]
    exact hroom

/-- A store fills the slot at `wr`, which is not the oldest byte's while one waits. -/
theorem Channel.store_oldest {c : Channel} (hne : c.wr ≠ c.rd) (b : Byte) : (c.store b).oldest = c.oldest := by
  simp [Channel.oldest, Channel.byteAt, Channel.store, hne.symm]

/-- The receive service leaves the oldest waiting byte in its slot (R62). -/
theorem rxChannel_oldest {c : Channel} (hne : c.wr ≠ c.rd) (size : Nat) (avail : Bool) (b : Byte) (pe fe oe : Bool) :
    (rxChannel size avail b pe fe oe c).oldest = c.oldest := by
  rcases rxChannel_cases size avail b pe fe oe c with ⟨-, e⟩ | ⟨-, -, e⟩ | ⟨-, -, -, e⟩ | ⟨-, -, hroom, e⟩ <;> rw [e]
  · rfl
  · simp [Channel.oldest, Channel.byteAt]
  · rfl
  · rw [Channel.push_eq_publishWr_store (c := c.tally .ints) hroom]
    exact Channel.store_oldest (c := c.tally .ints) hne b

/-- Settles O31: the service touches neither the oldest byte nor the fact that one waits, and a dequeue is the publication
of `rd`. -/
theorem receiveInsideDequeueLinearises : Obligations.ReceiveInsideDequeueLinearises :=
  fun size _ avail b pe fe oe hne =>
    ⟨rxChannel_has hne size avail b pe fe oe, by rw [rxChannel_oldest hne]; rfl⟩

/-- Two different cursors of a ring have different successors. -/
theorem succ_mod_ne {x y size : Nat} (hx : x < size) (hy : y < size) (hne : x ≠ y) :
    (x + 1) % size ≠ (y + 1) % size := by
  rw [succ_mod_eq hx, succ_mod_eq hy]
  split <;> split <;> omega

/-- The transmit service of an empty `OUT` only counts itself (R122). -/
theorem txBody_of_empty {s : State} (h : s.outCh.wr = s.outCh.rd) (p : Params) :
    txBody p s = s.setOut (s.outCh.tally .ints) := by
  obtain ⟨-, e⟩ | ⟨hne, -⟩ := txBody_cases p s
  · exact e
  · exact absurd h hne

/-- The transmit service of a non-empty `OUT` sends the oldest byte (R122). -/
theorem txBody_of_nonempty {s : State} (h : s.outCh.wr ≠ s.outCh.rd) (p : Params) :
    txBody p s = { s with
      outCh := ((s.outCh.tally .ints).pop p.sizeOut).tally .bytes
      out := { s.out with txOut := s.out.txOut ++ [s.outCh.oldest] } } := by
  obtain ⟨heq, -⟩ | ⟨-, e⟩ := txBody_cases p s
  · exact absurd heq h
  · exact e

/-- A transmit service only makes room in `OUT` (R62). -/
theorem txBody_not_full {p : Params} {s : State} (h : s.outCh.InRange p.sizeOut)
    (hroom : (s.outCh.wr + 1) % p.sizeOut ≠ s.outCh.rd) :
    ((txBody p s).outCh.wr + 1) % p.sizeOut ≠ (txBody p s).outCh.rd := by
  rcases txBody_cases p s with ⟨-, e⟩ | ⟨hne, e⟩ <;> rw [e]
  · exact hroom
  · exact succ_mod_ne h.wr_lt h.rd_lt hne

/-- A store that is not yet published and a transmit service may change places: the service reads the slot at `rd` and the
cursors, the store writes the slot at `wr` (R60, R62). -/
theorem txBody_store (p : Params) (s : State) (b : Byte) :
    txBody p (s.setOut (s.outCh.store b)) = (txBody p s).setOut ((txBody p s).outCh.store b) := by
  by_cases h : s.outCh.wr = s.outCh.rd
  · rw [txBody_of_empty h, txBody_of_empty (s := s.setOut (s.outCh.store b)) h]; rfl
  · rw [txBody_of_nonempty h, txBody_of_nonempty (s := s.setOut (s.outCh.store b)) h, State.setOut_outCh,
      Channel.store_oldest h]
    rfl

/-- Settles O32: the store moves past the service, and with room an enqueue is the store and the publication. -/
theorem transmitInsideEnqueueLinearises : Obligations.TransmitInsideEnqueueLinearises := by
  intro s b hrange hfull
  have hroom := txBody_not_full hrange ((Channel.full_eq_false_iff _ _).mp hfull)
  refine ⟨(Channel.full_eq_false_iff _ _).mpr hroom, ?_⟩
  rw [State.pushOut, Channel.push_eq_publishWr_store hroom, txBody_store]
  rfl

/-! ## The program (R64) -/

/-- A scan tick writes the scanner and appends to `fg_out`, nothing else (R162). -/
theorem State.tick_frame (p : Params) (s : State) (cols : Word) : ∃ k rs,
    s.tick p cols = { s with scan := k, out := { s.out with fgOut := rs } } := by
  obtain ⟨ks, e, -⟩ := (s.selectRow ((s.scan.row + 1) % p.rows)).updateCols_spec p s.scan.row cols p.cols
  rw [State.tick, State.updateRow, e]
  exact ⟨_, _, rfl⟩

/-- Everything a step can be: in the state as it is or with a turn used up, nothing, the answer to an illegal word, the
reset input or an operation (R6, R93, R261). -/
theorem step_cases {s t : State} (h : step s = .next t) : ∃ u, (u = s ∨ ∃ ts, u = s.setTurns ts) ∧
    (t = u ∨ t = u.illegalCommand ∨ t = u.afterReset ∨ ∃ i, exec i u = .next t) := by
  have hfg {u : State} (hu : stepFg u = .next t) : t = u ∨ t = u.illegalCommand ∨ ∃ i, exec i u = .next t := by
    unfold stepFg at hu
    split at hu
    · cases hu; exact .inl rfl
    · split at hu
      · exact .inr (.inr ⟨_, hu⟩)
      · cases hu; exact .inr (.inl rfl)
  cases hturns : s.env.turns with
  | nil =>
    have := hfg ((step_of_fgMovesIn (.inl ⟨hturns, rfl⟩)).symm.trans h)
    exact ⟨s, .inl rfl, by tauto⟩
  | cons turn ts =>
    rw [step_of_turns_cons hturns] at h
    refine ⟨s.setTurns ts, .inr ⟨ts, rfl⟩, ?_⟩
    cases turn with
    | fg => have := hfg h; tauto
    | event w =>
      simp only [stepTurn] at h
      split at h
      · exact .inr (.inr (.inr ⟨_, h⟩))
      · cases h; exact .inl rfl
    | spuriousRx => exact .inr (.inr (.inr ⟨_, (stepTurn_spuriousRx _).symm.trans h⟩))
    | reset => cases h; exact .inr (.inr (.inl rfl))

theorem State.decodeOne_fg (p : Params) (s : State) : (s.decodeOne p).fg = s.fg := by
  rcases s.decodeOne_cases p with ⟨-, e⟩ | ⟨-, e⟩ <;> rw [e]

theorem State.delayStep_prog (p : Params) (s : State) (poll : Bool) (left : Nat) :
    (s.delayStep p poll left).fg.prog = s.fg.prog := by
  have hbody : (s.delayBody p poll).fg = s.fg := by
    cases poll with
    | false => rfl
    | true => exact s.decodeOne_fg p
  rcases s.delayStep_cases p poll left with ⟨-, e⟩ | ⟨-, e⟩ | ⟨n, -, e⟩ <;> rw [e]
  · rfl
  · rw [State.complete_prog, hbody]
  · rw [State.setPhase_prog, hbody]

/-- No operation writes the program: a command moves FG's position at most, a service not even that (R64, R236). -/
theorem exec_keeps_prog (i : Instr) (s : State) : ∃ t, exec i s = .next t ∧ t.fg.prog = s.fg.prog := by
  cases i with
  | chInit ch => exact ⟨_, rfl, by rw [State.complete_prog, State.setChan_fg]⟩
  | rxPop =>
    rcases rxPop_cases Config.params s with e | ⟨x, e⟩
    · exact ⟨_, e, rfl⟩
    · exact ⟨_, e, rfl⟩
  | decPoll => exact ⟨_, rfl, by rw [State.complete_prog, State.decodeOne_fg]⟩
  | encSend cmd note vel =>
    obtain ⟨b, ⟨ph, e⟩ | ⟨x, e⟩⟩ := encSend_cases Config.params cmd note vel s
    · exact ⟨_, e, rfl⟩
    · exact ⟨_, e, rfl⟩
  | scanTick =>
    obtain ⟨k, rs, e⟩ := s.afterColsDraw.tick_frame Config.params s.colsDraw
    exact ⟨_, rfl, by rw [State.complete_prog, e, State.afterColsDraw_fg]⟩
  | delay ms poll =>
    obtain ⟨u, left, hu, e⟩ := delay_cases Config.params ms poll s
    have hfg : u.fg = s.fg := by rcases hu with rfl | rfl <;> simp
    exact ⟨_, e, by rw [State.delayStep_prog, hfg]⟩
  | irqTx =>
    obtain ⟨tx, htx⟩ := txBody_serviceExtends Config.params s
    exact ⟨_, rfl, congrArg Foreground.prog htx.fg⟩
  | _ => exact ⟨_, rfl, rfl⟩

/-- Settles O8: of all that a step can be, nothing writes the program; the reset input only sets FG back to its start. -/
theorem noStepModifiesTheProgram : Obligations.NoStepModifiesTheProgram := by
  intro s t ht
  obtain ⟨u, hu, hstep⟩ := step_cases ht
  have hprog : u.fg.prog = s.fg.prog := by rcases hu with rfl | ⟨ts, rfl⟩ <;> rfl
  rw [← hprog]
  rcases hstep with rfl | rfl | rfl | ⟨i, hi⟩
  · rfl
  · rfl
  · rfl
  · obtain ⟨t', ht', hkeep⟩ := exec_keeps_prog i u
    obtain rfl : t' = t := Host.Outcome.next.inj (ht'.symm.trans hi)
    exact hkeep

/-! ## Services beside commands on foreground-owned state (R62) -/

/-- The parts of the machine that the event services write. -/
structure ServiceParts where
  inCh : Channel
  outCh : Channel
  dirty : Option Nat
  txOut : List Byte
  ledOut : List Byte

/-- The parts that commands on foreground-owned state write. The colours of the frame store are in neither list: the flush
service and FS_GET only read them. -/
structure FgParts where
  dec : Decoder
  hnd : Handlers
  scan : Scanner
  fgOut : List FgRecord
  responses : List Response
  fg : Foreground
  env : Environment

/-- What the services can write, read off the machine. -/
def State.serviceParts (s : State) : ServiceParts := ⟨s.inCh, s.outCh, s.fs.dirty, s.out.txOut, s.out.ledOut⟩

/-- Replace what the services can write. -/
def State.setServiceParts (s : State) (v : ServiceParts) : State :=
  { s with
    inCh := v.inCh, outCh := v.outCh, fs := { s.fs with dirty := v.dirty }
    out := { s.out with txOut := v.txOut, ledOut := v.ledOut } }

/-- What commands on foreground-owned state can write, read off the machine. -/
def State.fgParts (s : State) : FgParts := ⟨s.dec, s.hnd, s.scan, s.out.fgOut, s.out.responses, s.fg, s.env⟩

/-- Replace what commands on foreground-owned state can write. -/
def State.setFgParts (s : State) (w : FgParts) : State :=
  { s with
    dec := w.dec, hnd := w.hnd, scan := w.scan, out := { s.out with fgOut := w.fgOut, responses := w.responses }
    fg := w.fg, env := w.env }

@[simp] theorem State.setServiceParts_serviceParts (s : State) : s.setServiceParts s.serviceParts = s := rfl
@[simp] theorem State.setFgParts_fgParts (s : State) : s.setFgParts s.fgParts = s := rfl

/-- The two sets of parts are disjoint. -/
theorem State.setFgParts_setServiceParts (s : State) (v : ServiceParts) (w : FgParts) :
    (s.setFgParts w).setServiceParts v = (s.setServiceParts v).setFgParts w := rfl

/-- The transmit service on other foreground parts leaves the same `OUT` and `tx_out` (R122). -/
theorem txBody_setFgParts (p : Params) (s : State) (w : FgParts) :
    txBody p (s.setFgParts w) = (s.setFgParts w).setServiceParts (txBody p s).serviceParts := by
  by_cases h : s.outCh.wr = s.outCh.rd
  · rw [txBody_of_empty h, txBody_of_empty (s := s.setFgParts w) h]; rfl
  · rw [txBody_of_nonempty h, txBody_of_nonempty (s := s.setFgParts w) h]; rfl

/-- An event service writes its own parts only, with values that do not depend on the foreground's. -/
theorem exec_service_writes {e : Instr} (he : e.isCommand = false) (s : State) :
    ∃ v, ∀ w, exec e (s.setFgParts w) = .next ((s.setFgParts w).setServiceParts v) := by
  cases e with
  | irqFlush => exact ⟨(flushBody s).serviceParts, fun _ => rfl⟩
  | irqRx avail b pe fe oe => exact ⟨(rxBody Config.params avail b pe fe oe s).serviceParts, fun _ => rfl⟩
  | irqTx =>
    exact ⟨(txBody Config.params s).serviceParts, fun w => congrArg Host.Outcome.next (txBody_setFgParts _ s w)⟩
  | _ => cases he

/-- A draw of columns writes the environment's inputs only (R7). -/
theorem State.afterColsDraw_eq_setEnv (s : State) : s.afterColsDraw = s.setEnv s.afterColsDraw.env := by
  unfold State.afterColsDraw
  cases s.env.cols <;> rfl

theorem State.afterColsDraw_setServiceParts (s : State) (v : ServiceParts) :
    (s.setServiceParts v).afterColsDraw = s.afterColsDraw.setServiceParts v := by
  have henv : (s.setServiceParts v).env = s.env := rfl
  simp only [State.afterColsDraw, henv]
  cases s.env.cols <;> rfl

/-- A scan tick and a change of the services' parts may change places: each column's update does not read them (R163). -/
theorem State.tick_setServiceParts (p : Params) (s : State) (v : ServiceParts) (cols : Word) :
    (s.setServiceParts v).tick p cols = (s.tick p cols).setServiceParts v := by
  unfold State.tick State.updateRow
  exact List.foldl_hom (init := s.selectRow ((s.scan.row + 1) % p.rows)) (State.setServiceParts · v) fun _ _ => rfl

/-- SCAN_TICK writes the foreground's parts only, with values that do not depend on the services'. -/
theorem scanTick_writes (p : Params) (s : State) :
    ∃ w, ∀ v, scanTick p (s.setServiceParts v) = .next ((s.setServiceParts v).setFgParts w) := by
  obtain ⟨k, rs, htick⟩ := s.afterColsDraw.tick_frame p s.colsDraw
  refine ⟨((s.afterColsDraw.tick p s.colsDraw).complete 0).fgParts, fun v => ?_⟩
  have hcols : (s.setServiceParts v).colsDraw = s.colsDraw := rfl
  rw [scanTick, hcols, State.afterColsDraw_setServiceParts, State.tick_setServiceParts, htick,
    s.afterColsDraw_eq_setEnv]
  rfl

/-- A command on foreground-owned state writes the foreground's parts only, with values that do not depend on the
services'. -/
theorem exec_fgOwned_writes {i : Instr} (hi : i = .decInit ∨ i = .scanInit ∨ i = .scanTick ∨
    (∃ sel en, i = .hndSet sel en) ∨ ∃ x, i = .fsGet x) (s : State) :
    ∃ w, ∀ v, exec i (s.setServiceParts v) = .next ((s.setServiceParts v).setFgParts w) := by
  rcases hi with rfl | rfl | rfl | ⟨sel, en, rfl⟩ | ⟨x, rfl⟩
  · exact ⟨((s.setDec Decoder.reset).complete 0).fgParts, fun _ => rfl⟩
  · exact ⟨(((s.setScan { s.scan with key := Memory.clear Config.params.keys s.scan.key }).selectRow 0).complete
      0).fgParts, fun _ => rfl⟩
  · exact scanTick_writes Config.params s
  · exact ⟨((s.setHnd (s.hnd.set sel en)).complete 0).fgParts, fun _ => rfl⟩
  · exact ⟨(s.complete (if Config.params.ledInRange x then (s.fs.ledAt x.toNat).toWord else 0)).fgParts, fun _ => rfl⟩

/-- Settles O30: service and command write disjoint parts, and neither reads what the other writes. -/
theorem eventsCommuteWithForegroundOwnedCommands : Obligations.EventsCommuteWithForegroundOwnedCommands := by
  intro s i e he hi
  obtain ⟨v, hservice⟩ := exec_service_writes he s
  obtain ⟨w, hcommand⟩ := exec_fgOwned_writes hi s
  refine ⟨s.setFgParts w, s.setServiceParts v, (s.setServiceParts v).setFgParts w, ?_, ?_, ?_, hcommand v⟩
  · simpa using hcommand s.serviceParts
  · rw [hservice w, State.setFgParts_setServiceParts]
  · simpa using hservice s.fgParts

end Sys2Proof.Machine
end

section
/-! PROOFS. Encoding (spec/30_encoding.md R87 to R99): the decoder and the encoder invert each other, the opcode map's
masks select what the decoder reads, a step on a word that spells nothing, and the packed debounce byte. -/

namespace Sys2Proof

/-! ## The formats (R90): which fields a format reads as an operation -/

theorem Chan.ofCode_eq_some_iff {x : Half} {ch : Chan} :
    Chan.ofCode x.toNat = some ch ↔ x = BitVec.ofNat 16 ch.code := by
  refine ⟨fun h => by simp [Chan.code_of_ofCode h], ?_⟩
  rintro rfl
  cases ch <;> rfl

theorem StatSel.ofCode_eq_some_iff {b : Byte} {sel : StatSel} :
    StatSel.ofCode b.toNat = some sel ↔ b = BitVec.ofNat 8 sel.code := by
  refine ⟨fun h => by simp [StatSel.code_of_ofCode h], ?_⟩
  rintro rfl
  cases sel <;> rfl

theorem HndSel.ofCode_eq_some_iff {x : Half} {sel : HndSel} :
    HndSel.ofCode x.toNat = some sel ↔ x = BitVec.ofNat 16 sel.code := by
  refine ⟨fun h => by simp [HndSel.code_of_ofCode h], ?_⟩
  rintro rfl
  cases sel <;> rfl

theorem bitOfCode_eq_some_iff {b : Byte} {en : Bool} :
    bitOfCode b.toNat = some en ↔ b = BitVec.ofNat 8 (bitCode en) := by
  refine ⟨fun h => by simp [bitCode_of_bitOfCode h], ?_⟩
  rintro rfl
  cases en <;> rfl

theorem orReserved_eq_ok_iff {o : Option Instr} {i : Instr} : orReserved o = .ok i ↔ o = some i := by
  cases o <;> simp [orReserved]

/-- A check passed with an operation: the check holds. -/
theorem ite_error_eq_ok_iff {c : Prop} [Decidable c] {r : Except DecodeError Instr} {e : DecodeError} {i : Instr} :
    (if c then r else .error e) = .ok i ↔ c ∧ r = .ok i := by
  split <;> simp_all

namespace Fields
variable {f : Fields} {i : Instr}

theorem formatN_eq_ok_iff {j : Instr} :
    f.formatN j = .ok i ↔ (f.x = 0 ∧ f.b0 = 0 ∧ f.b1 = 0 ∧ f.b2 = 0) ∧ j = i := by
  rw [formatN, ite_error_eq_ok_iff, Except.ok.injEq]

theorem formatC_eq_ok_iff {mk : Chan → Instr} : f.formatC mk = .ok i ↔
    (f.b0 = 0 ∧ f.b1 = 0 ∧ f.b2 = 0) ∧ ∃ ch, f.x = BitVec.ofNat 16 ch.code ∧ mk ch = i := by
  simp only [formatC, ite_error_eq_ok_iff, orReserved_eq_ok_iff, Option.map_eq_some_iff, Chan.ofCode_eq_some_iff]

theorem formatB_eq_ok_iff {mk : Byte → Instr} :
    f.formatB mk = .ok i ↔ (f.x = 0 ∧ f.b1 = 0 ∧ f.b2 = 0) ∧ mk f.b0 = i := by
  rw [formatB, ite_error_eq_ok_iff, Except.ok.injEq]

/-- The check of the bits above the select goes without saying: the code of a counter is below 6. -/
theorem formatCS_eq_ok_iff {mk : Chan → StatSel → Instr} : f.formatCS mk = .ok i ↔ (f.b1 = 0 ∧ f.b2 = 0) ∧
    ∃ ch sel, f.x = BitVec.ofNat 16 ch.code ∧ f.b0 = BitVec.ofNat 8 sel.code ∧ mk ch sel = i := by
  simp only [formatCS, ite_error_eq_ok_iff, ← Chan.ofCode_eq_some_iff, ← StatSel.ofCode_eq_some_iff]
  constructor
  · rintro ⟨⟨h1, h2, -⟩, h⟩
    split at h
    · contradiction
    · contradiction
    · exact ⟨⟨h1, h2⟩, _, _, ‹_›, ‹_›, Except.ok.inj h⟩
  · rintro ⟨⟨h1, h2⟩, ch, sel, hch, hsel, rfl⟩
    have hlt : f.b0.toNat < 8 := by rw [← StatSel.code_of_ofCode hsel]; cases sel <;> decide
    simp [h1, h2, hlt, hch, hsel]

theorem formatT_eq_ok_iff {mk : Byte → Byte → Byte → Instr} :
    f.formatT mk = .ok i ↔ f.x = 0 ∧ mk f.b0 f.b1 f.b2 = i := by
  rw [formatT, ite_error_eq_ok_iff, Except.ok.injEq]

theorem formatHS_eq_ok_iff {mk : HndSel → Bool → Instr} : f.formatHS mk = .ok i ↔ (f.b1 = 0 ∧ f.b2 = 0) ∧
    ∃ sel en, f.x = BitVec.ofNat 16 sel.code ∧ f.b0 = BitVec.ofNat 8 (bitCode en) ∧ mk sel en = i := by
  simp only [formatHS, ite_error_eq_ok_iff, ← HndSel.ofCode_eq_some_iff, ← bitOfCode_eq_some_iff]
  cases HndSel.ofCode f.x.toNat <;> cases bitOfCode f.b0.toNat <;> simp

theorem formatXT_eq_ok_iff {mk : Half → Byte → Byte → Byte → Instr} :
    f.formatXT mk = .ok i ↔ mk f.x f.b0 f.b1 f.b2 = i := by
  rw [formatXT, Except.ok.injEq]

theorem formatX_eq_ok_iff {mk : Half → Instr} :
    f.formatX mk = .ok i ↔ (f.b0 = 0 ∧ f.b1 = 0 ∧ f.b2 = 0) ∧ mk f.x = i := by
  rw [formatX, ite_error_eq_ok_iff, Except.ok.injEq]

theorem formatXP_eq_ok_iff {mk : Half → Bool → Instr} : f.formatXP mk = .ok i ↔
    (f.b1 = 0 ∧ f.b2 = 0) ∧ ∃ p, f.b0 = BitVec.ofNat 8 (bitCode p) ∧ mk f.x p = i := by
  simp only [formatXP, ite_error_eq_ok_iff, orReserved_eq_ok_iff, Option.map_eq_some_iff, bitOfCode_eq_some_iff]

end Fields

/-! ## Commands: the opcode map read in both directions (R91) -/

theorem Byte.eq_ofNat_of_toNat {b : Byte} {n : Nat} (h : b.toNat = n) : b = BitVec.ofNat 8 n := by simp [← h]

theorem fields_of_decodeCommand {f : Fields} {i : Instr} (h : decodeCommand f = .ok i) : i.fields = some f := by
  obtain ⟨op, x, b0, b1, b2⟩ := f
  unfold decodeCommand at h
  split at h <;> rename_i hop
  case h_17 => contradiction
  all_goals obtain rfl := Byte.eq_ofNat_of_toNat hop
  case h_1 | h_3 => obtain ⟨⟨rfl, rfl, rfl⟩, ch, rfl, rfl⟩ := Fields.formatC_eq_ok_iff.1 h; rfl
  case h_4 => obtain ⟨⟨rfl, rfl, rfl⟩, rfl⟩ := Fields.formatB_eq_ok_iff.1 h; rfl
  case h_5 => obtain ⟨⟨rfl, rfl⟩, ch, sel, rfl, rfl, rfl⟩ := Fields.formatCS_eq_ok_iff.1 h; rfl
  case h_8 => obtain ⟨rfl, rfl⟩ := Fields.formatT_eq_ok_iff.1 h; rfl
  case h_9 => obtain ⟨⟨rfl, rfl⟩, sel, en, rfl, rfl, rfl⟩ := Fields.formatHS_eq_ok_iff.1 h; rfl
  case h_13 => obtain rfl := Fields.formatXT_eq_ok_iff.1 h; rfl
  case h_15 => obtain ⟨⟨rfl, rfl, rfl⟩, rfl⟩ := Fields.formatX_eq_ok_iff.1 h; rfl
  case h_16 => obtain ⟨⟨rfl, rfl⟩, p, rfl, rfl⟩ := Fields.formatXP_eq_ok_iff.1 h; rfl
  all_goals obtain ⟨⟨rfl, rfl, rfl, rfl⟩, rfl⟩ := Fields.formatN_eq_ok_iff.1 h; rfl

theorem decodeCommand_of_fields {f : Fields} {i : Instr} (h : i.fields = some f) : decodeCommand f = .ok i := by
  cases i with
  | chInit ch => cases h; exact Fields.formatC_eq_ok_iff.2 ⟨⟨rfl, rfl, rfl⟩, ch, rfl, rfl⟩
  | chHas ch => cases h; exact Fields.formatC_eq_ok_iff.2 ⟨⟨rfl, rfl, rfl⟩, ch, rfl, rfl⟩
  | txPush b => cases h; exact Fields.formatB_eq_ok_iff.2 ⟨⟨rfl, rfl, rfl⟩, rfl⟩
  | statRd ch sel => cases h; exact Fields.formatCS_eq_ok_iff.2 ⟨⟨rfl, rfl⟩, ch, sel, rfl, rfl, rfl⟩
  | encSend => cases h; exact Fields.formatT_eq_ok_iff.2 ⟨rfl, rfl⟩
  | hndSet sel en => cases h; exact Fields.formatHS_eq_ok_iff.2 ⟨⟨rfl, rfl⟩, sel, en, rfl, rfl, rfl⟩
  | fsGet idx => cases h; exact Fields.formatX_eq_ok_iff.2 ⟨⟨rfl, rfl, rfl⟩, rfl⟩
  | delay ms p => cases h; exact Fields.formatXP_eq_ok_iff.2 ⟨⟨rfl, rfl⟩, p, rfl, rfl⟩
  | irqFlush | irqRx | irqTx => cases h
  | _ => cases h; rfl

theorem decodeCommand_eq_ok_iff {f : Fields} {i : Instr} : decodeCommand f = .ok i ↔ i.fields = some f :=
  ⟨fields_of_decodeCommand, decodeCommand_of_fields⟩

/-! ## Events (R94) -/

theorem bitCode_getLsbD {n : Nat} (b : BitVec n) (k : Nat) : bitCode (b.getLsbD k) = b.toNat / 2 ^ k % 2 := by
  rw [BitVec.getLsbD, Nat.testBit_eq_decide_div_mod_eq, bitCode]
  split <;> simp_all

/-- The high byte of a receive event's word is read back from its three flags. -/
theorem rxHigh_getLsbD {hi : Byte} (h : hi.toNat / 8 = 8) :
    BitVec.ofNat 8 (0x40 + 4 * bitCode (hi.getLsbD 2) + 2 * bitCode (hi.getLsbD 1) + bitCode (hi.getLsbD 0)) = hi := by
  apply BitVec.eq_of_toNat_eq
  simp only [bitCode_getLsbD, BitVec.toNat_ofNat]
  omega

theorem rxHigh_toNat (pe fe oe : Bool) :
    (BitVec.ofNat 8 (0x40 + 4 * bitCode oe + 2 * bitCode fe + bitCode pe)).toNat / 8 = 8 := by
  cases pe <;> cases fe <;> cases oe <;> rfl

theorem decodeEvent_eq_ok_iff {hi lo : Byte} {i : Instr} :
    decodeEvent hi lo = .ok i ↔ i.wellFormed = true ∧ i.eventBytes = [hi, lo] := by
  constructor
  · intro h
    unfold decodeEvent at h
    split at h
    next =>
      obtain ⟨⟨hhi, rfl⟩, hi⟩ := ite_error_eq_ok_iff.1 h
      cases hi
      exact ⟨rfl, by rw [Byte.eq_ofNat_of_toNat hhi]; rfl⟩
    next hid =>
      obtain ⟨hlt, hi⟩ := ite_error_eq_ok_iff.1 h
      cases hi
      exact ⟨rfl, by rw [Instr.eventBytes, rxHigh_getLsbD (by omega)]⟩
    next =>
      obtain ⟨⟨hhi, rfl⟩, hi⟩ := ite_error_eq_ok_iff.1 h
      cases hi
      exact ⟨rfl, by rw [Byte.eq_ofNat_of_toNat hhi]; rfl⟩
    next => contradiction
  · rintro ⟨hwf, hb⟩
    cases i with
    | irqFlush => cases hb; rfl
    | irqTx => cases hb; rfl
    | irqRx avail data pe fe oe =>
      cases (hwf : avail = true)
      cases hb
      cases pe <;> cases fe <;> cases oe <;> rfl
    | _ => cases hb

/-! ## Byte strings -/

theorem encode_of_fields {i : Instr} {f : Fields} (h : i.fields = some f) : encode i = f.bytes := by simp [encode, h]

/-- An event service has no fields (R89, R94). -/
theorem encode_of_fields_eq_none {i : Instr} (h : i.fields = none) : encode i = i.eventBytes := by simp [encode, h]

/-- The operations that have fields are the commands. -/
theorem fields_isSome (i : Instr) : i.fields.isSome = i.isCommand := by cases i <;> rfl

theorem isCommand_of_fields {i : Instr} {f : Fields} (h : i.fields = some f) : i.isCommand = true := by
  rw [← fields_isSome, h, Option.isSome_some]

theorem fields_eq_none_of_eventBytes {i : Instr} {b : Byte} {bs : List Byte} (h : i.eventBytes = b :: bs) :
    i.fields = none := by
  cases i with
  | irqFlush | irqRx | irqTx => rfl
  | _ => cases h

theorem wellFormed_of_fields {i : Instr} {f : Fields} (h : i.fields = some f) : i.wellFormed = true := by
  cases i with
  | irqRx => cases h
  | _ => rfl

/-- The bytes that spell an operation are its encoding and no others. -/
theorem decode_eq_ok_iff {bs : List Byte} {i : Instr} : decode bs = .ok i ↔ i.wellFormed = true ∧ encode i = bs := by
  constructor
  · intro h
    unfold decode at h
    split at h
    next op xh xl b0 b1 b2 =>
      have hf := fields_of_decodeCommand h
      obtain ⟨hxh, hxl⟩ := Half.hi_lo_ofBytes xh xl
      exact ⟨wellFormed_of_fields hf, by rw [encode_of_fields hf, Fields.bytes, hxh, hxl]⟩
    next hi lo =>
      obtain ⟨hwf, hb⟩ := decodeEvent_eq_ok_iff.1 h
      exact ⟨hwf, by rw [encode_of_fields_eq_none (fields_eq_none_of_eventBytes hb), hb]⟩
    next => contradiction
  · rintro ⟨hwf, rfl⟩
    cases hf : i.fields with
    | some f => rw [encode_of_fields hf, decode_fields_bytes, decodeCommand_of_fields hf]
    | none =>
      have hlen := encode_length i hwf
      rw [← fields_isSome, hf] at hlen
      obtain ⟨hi, lo, hb⟩ := List.length_eq_two.1 hlen
      rw [hb]
      exact decodeEvent_eq_ok_iff.2 ⟨hwf, by rw [← encode_of_fields_eq_none hf, hb]⟩

/-- The word of an operation, numbered as the opcode table numbers it, has the bytes of its encoding. -/
theorem decodeTableWord_encodeWord {i : Instr} (hwf : i.wellFormed = true) :
    decodeTableWord (encodeBits i) (encodeWord i) = some i := by
  have hbits : encodeBits i = 48 ∨ encodeBits i = 16 := by
    rw [encodeBits, encode_length i hwf]
    cases i.isCommand
    · exact .inr rfl
    · exact .inl rfl
  have hcount : encodeBits i / 8 = (encode i).length := by unfold encodeBits; omega
  rw [decodeTableWord, if_pos hbits, hcount, encodeWord, bytesOfWord_wordOfBytes, decode_eq_ok_iff.2 ⟨hwf, rfl⟩]

/-- Settles O1: each format reads back the operands it writes. -/
theorem decodeInvertsEncode : Obligations.DecodeInvertsEncode := fun _ hwf =>
  ⟨decode_eq_ok_iff.2 ⟨hwf, rfl⟩, decodeTableWord_encodeWord hwf⟩

/-- Settles O2: each format reads no field it does not write, and refuses every other bit. -/
theorem encodeInvertsDecode : Obligations.EncodeInvertsDecode := fun _ _ => decode_eq_ok_iff.1

/-! ## Words as fields (R89) -/

/-- The five fields of a command word, at the bits of R89. -/
def Fields.ofWord (w : CommandWord) : Fields :=
  ⟨w.extractLsb' 40 8, w.extractLsb' 24 16, w.extractLsb' 16 8, w.extractLsb' 8 8, w.extractLsb' 0 8⟩

/-- The bitwise conjunction, field by field. -/
def Fields.and (f g : Fields) : Fields := ⟨f.op &&& g.op, f.x &&& g.x, f.b0 &&& g.b0, f.b1 &&& g.b1, f.b2 &&& g.b2⟩

theorem Fields.bytes_ofWord (w : CommandWord) : (Fields.ofWord w).bytes = bytesOfWord 6 w.toNat := by
  have h := w.isLt
  simp only [Fields.bytes, Fields.ofWord, bytesOfWord, Half.hi, Half.lo, List.cons.injEq, and_true, ← BitVec.toNat_inj,
    BitVec.extractLsb'_toNat, BitVec.toNat_ofNat, Nat.shiftRight_eq_div_pow]
  omega

theorem Machine.decodeCommandWord_eq (w : CommandWord) : decodeCommandWord w = decodeCommand (Fields.ofWord w) := by
  rw [decodeCommandWord, ← Fields.bytes_ofWord, decode_fields_bytes]

theorem Fields.ofWord_and (w m : CommandWord) : ofWord (w &&& m) = (ofWord w).and (ofWord m) := by
  simp only [ofWord, Fields.and, BitVec.extractLsb'_and]

theorem Fields.ofWord_injective : Function.Injective ofWord := by
  intro v w h
  have hv := v.isLt
  have hw := w.isLt
  simp only [ofWord, Fields.mk.injEq, ← BitVec.toNat_inj, BitVec.extractLsb'_toNat, Nat.shiftRight_eq_div_pow] at h
  apply BitVec.eq_of_toNat_eq
  omega

theorem Machine.decodeEventWord_eq (w : EventWord) : decodeEventWord w = decodeEvent (Half.hi w) (Half.lo w) := by
  simp [decodeEventWord, bytesOfWord, decode, Half.hi, Half.lo]

/-! ## Masks (R91, R94) -/

theorem toNat_and_highMask {n : Nat} (x : BitVec n) (k : Nat) :
    (x &&& (BitVec.allOnes n <<< k)).toNat = x.toNat / 2 ^ k * 2 ^ k := by
  have hle : x.toNat / 2 ^ k * 2 ^ k < 2 ^ n := Nat.lt_of_le_of_lt (Nat.div_mul_le_self _ _) x.isLt
  rw [← BitVec.shiftLeft_ushiftRight, BitVec.toNat_shiftLeft, BitVec.toNat_ushiftRight, Nat.shiftRight_eq_div_pow,
    Nat.shiftLeft_eq, Nat.mod_eq_of_lt hle]

/-- A field whose bits from `k` on are reserved, and clear, holds a value of `k` bits. -/
theorem lt_of_and_highMask {n k : Nat} {x : BitVec n} (h : x &&& (BitVec.allOnes n <<< k) = 0) : x.toNat < 2 ^ k := by
  have hdiv := toNat_and_highMask x k
  rw [h, BitVec.ofNat_eq_ofNat, BitVec.toNat_ofNat, Nat.zero_mod, eq_comm, Nat.mul_eq_zero] at hdiv
  exact (Nat.div_eq_zero_iff_lt (Nat.two_pow_pos k)).1 (hdiv.resolve_right (Nat.two_pow_pos k).ne')

theorem Chan.exists_code_of_and {x : Half} (h : x &&& 0xFFFE#16 = 0#16) : ∃ ch : Chan, x = BitVec.ofNat 16 ch.code := by
  have hlt : x.toNat < 2 := lt_of_and_highMask (k := 1) h
  simp only [← Chan.ofCode_eq_some_iff]
  interval_cases x.toNat
  · exact ⟨.inbound, rfl⟩
  · exact ⟨.outbound, rfl⟩

theorem HndSel.exists_code_of_and {x : Half} (h : x &&& 0xFFFC#16 = 0#16) :
    ∃ sel : HndSel, x = BitVec.ofNat 16 sel.code := by
  have hlt : x.toNat < 4 := lt_of_and_highMask (k := 2) h
  simp only [← HndSel.ofCode_eq_some_iff]
  interval_cases x.toNat
  · exact ⟨.noteOn, rfl⟩
  · exact ⟨.noteOff, rfl⟩
  · exact ⟨.keyDown, rfl⟩
  · exact ⟨.keyUp, rfl⟩

theorem exists_bitCode_of_and {b : Byte} (h : b &&& 0xFE#8 = 0#8) : ∃ en : Bool, b = BitVec.ofNat 8 (bitCode en) := by
  have hlt : b.toNat < 2 := lt_of_and_highMask (k := 1) h
  simp only [← bitOfCode_eq_some_iff]
  interval_cases b.toNat
  · exact ⟨false, rfl⟩
  · exact ⟨true, rfl⟩

/-- A clear reserved part leaves select 0 to 7; 6 and 7 name no counter (R93 (c)). -/
theorem StatSel.exists_code_of_and {b : Byte} (h : b &&& 0xF8#8 = 0#8) (hsel : b.toNat % 8 < 6) :
    ∃ sel : StatSel, b = BitVec.ofNat 8 sel.code := by
  have hlt : b.toNat < 8 := lt_of_and_highMask (k := 3) h
  rw [Nat.mod_eq_of_lt hlt] at hsel
  simp only [← StatSel.ofCode_eq_some_iff]
  interval_cases b.toNat
  · exact ⟨.ints, rfl⟩
  · exact ⟨.bytes, rfl⟩
  · exact ⟨.parity, rfl⟩
  · exact ⟨.framing, rfl⟩
  · exact ⟨.overrun, rfl⟩
  · exact ⟨.overflow, rfl⟩

theorem Byte.and_ones (b : Byte) : b &&& 0xFF#8 = b := BitVec.and_allOnes

theorem Half.and_ones (x : Half) : x &&& 0xFFFF#16 = x := BitVec.and_allOnes

/-- The match of a command's row, field by field: the operation code and nothing else (R91).
An event service has no such row (`Fields.ofWord_pattern` is about commands). -/
def Instr.matchFields : Instr → Fields
  | .chInit _ => ⟨0x01, 0, 0, 0, 0⟩
  | .rxPop => ⟨0x02, 0, 0, 0, 0⟩
  | .chHas _ => ⟨0x03, 0, 0, 0, 0⟩
  | .txPush _ => ⟨0x04, 0, 0, 0, 0⟩
  | .statRd _ _ => ⟨0x05, 0, 0, 0, 0⟩
  | .decInit => ⟨0x10, 0, 0, 0, 0⟩
  | .decPoll => ⟨0x11, 0, 0, 0, 0⟩
  | .encSend _ _ _ => ⟨0x12, 0, 0, 0, 0⟩
  | .hndSet _ _ => ⟨0x13, 0, 0, 0, 0⟩
  | .scanInit => ⟨0x20, 0, 0, 0, 0⟩
  | .scanTick => ⟨0x21, 0, 0, 0, 0⟩
  | .fsInit => ⟨0x30, 0, 0, 0, 0⟩
  | .fsSet _ _ _ _ => ⟨0x31, 0, 0, 0, 0⟩
  | .fsClr => ⟨0x32, 0, 0, 0, 0⟩
  | .fsGet _ => ⟨0x33, 0, 0, 0, 0⟩
  | .delay _ _ => ⟨0x40, 0, 0, 0, 0⟩
  | .irqFlush => ⟨0, 0, 0, 0, 0⟩
  | .irqRx _ _ _ _ _ => ⟨0, 0, 0, 0, 0⟩
  | .irqTx => ⟨0, 0, 0, 0, 0⟩

/-- The mask of a command's format, field by field: the bits that carry no operand (R90). -/
def Instr.maskFields : Instr → Fields
  | .chInit _ => ⟨0xFF, 0xFFFE, 0xFF, 0xFF, 0xFF⟩
  | .chHas _ => ⟨0xFF, 0xFFFE, 0xFF, 0xFF, 0xFF⟩
  | .txPush _ => ⟨0xFF, 0xFFFF, 0x00, 0xFF, 0xFF⟩
  | .statRd _ _ => ⟨0xFF, 0xFFFE, 0xF8, 0xFF, 0xFF⟩
  | .encSend _ _ _ => ⟨0xFF, 0xFFFF, 0x00, 0x00, 0x00⟩
  | .hndSet _ _ => ⟨0xFF, 0xFFFC, 0xFE, 0xFF, 0xFF⟩
  | .fsSet _ _ _ _ => ⟨0xFF, 0x0000, 0x00, 0x00, 0x00⟩
  | .fsGet _ => ⟨0xFF, 0x0000, 0xFF, 0xFF, 0xFF⟩
  | .delay _ _ => ⟨0xFF, 0x0000, 0xFE, 0xFF, 0xFF⟩
  | _ => ⟨0xFF, 0xFFFF, 0xFF, 0xFF, 0xFF⟩

theorem Fields.ofWord_mask {i : Instr} (hi : i.isCommand = true) :
    ofWord (BitVec.ofNat 48 i.row.mask) = i.maskFields := by
  cases i with
  | irqFlush | irqRx | irqTx => cases hi
  | _ => simp only [Instr.row, Instr.maskFields]; rfl

theorem Fields.ofWord_pattern {i : Instr} (hi : i.isCommand = true) :
    ofWord (BitVec.ofNat 48 i.row.pattern) = i.matchFields := by
  cases i with
  | irqFlush | irqRx | irqTx => cases hi
  | _ => simp only [Instr.row, Instr.matchFields]; rfl

/-- The fields agree with a command's row: its operation code, and every bit clear that carries no operand. -/
def Fields.MatchesRow (f : Fields) (i : Instr) : Prop := f.and i.maskFields = i.matchFields

theorem Fields.ofWord_matchesRow_iff {w : CommandWord} {i : Instr} (hi : i.isCommand = true) :
    (ofWord w).MatchesRow i ↔ w &&& BitVec.ofNat 48 i.row.mask = BitVec.ofNat 48 i.row.pattern := by
  rw [MatchesRow, ← ofWord_mask hi, ← ofWord_pattern hi, ← ofWord_and, ofWord_injective.eq_iff]

theorem matchesRow_of_fields {j : Instr} {f : Fields} (h : j.fields = some f) : f.MatchesRow j := by
  cases j with
  | irqFlush | irqRx | irqTx => cases h
  | chInit ch | chHas ch =>
    cases h
    cases ch <;> simp [Fields.MatchesRow, Fields.and, Instr.maskFields, Instr.matchFields, Chan.code]
  | statRd ch sel =>
    cases h
    cases ch <;> cases sel <;>
      simp [Fields.MatchesRow, Fields.and, Instr.maskFields, Instr.matchFields, Chan.code, StatSel.code]
  | hndSet sel en =>
    cases h
    cases sel <;> cases en <;>
      simp [Fields.MatchesRow, Fields.and, Instr.maskFields, Instr.matchFields, HndSel.code, bitCode]
  | delay ms p =>
    cases h
    cases p <;> simp [Fields.MatchesRow, Fields.and, Instr.maskFields, Instr.matchFields, bitCode]
  | _ => cases h; simp [Fields.MatchesRow, Fields.and, Instr.maskFields, Instr.matchFields]

theorem statSelect_lt_of_fields {j : Instr} {f : Fields} (h : j.fields = some f)
    (hrow : j.row.pattern = 0x050000000000) : f.b0.toNat % 8 < 6 := by
  cases j with
  | statRd ch sel => cases h; cases ch <;> cases sel <;> decide
  | _ => simp [Instr.row] at hrow

theorem exists_fields_of_matchesRow {i : Instr} {f : Fields} (hi : i.isCommand = true) (h : f.MatchesRow i)
    (hsel : i.row.pattern = 0x050000000000 → f.b0.toNat % 8 < 6) : ∃ j : Instr, j.fields = some f ∧ j.row = i.row := by
  obtain ⟨op, x, b0, b1, b2⟩ := f
  cases i <;>
    simp [Fields.MatchesRow, Fields.and, Instr.maskFields, Instr.matchFields, Byte.and_ones, Half.and_ones] at h
  case irqFlush | irqRx | irqTx => cases hi
  case chInit =>
    obtain ⟨rfl, hx, rfl, rfl, rfl⟩ := h
    obtain ⟨ch, rfl⟩ := Chan.exists_code_of_and hx
    exact ⟨.chInit ch, rfl, rfl⟩
  case chHas =>
    obtain ⟨rfl, hx, rfl, rfl, rfl⟩ := h
    obtain ⟨ch, rfl⟩ := Chan.exists_code_of_and hx
    exact ⟨.chHas ch, rfl, rfl⟩
  case statRd =>
    obtain ⟨rfl, hx, h0, rfl, rfl⟩ := h
    obtain ⟨ch, rfl⟩ := Chan.exists_code_of_and hx
    obtain ⟨sel, rfl⟩ := StatSel.exists_code_of_and h0 (hsel rfl)
    exact ⟨.statRd ch sel, rfl, rfl⟩
  case hndSet =>
    obtain ⟨rfl, hx, h0, rfl, rfl⟩ := h
    obtain ⟨sel, rfl⟩ := HndSel.exists_code_of_and hx
    obtain ⟨en, rfl⟩ := exists_bitCode_of_and h0
    exact ⟨.hndSet sel en, rfl, rfl⟩
  case delay =>
    obtain ⟨rfl, h0, rfl, rfl⟩ := h
    obtain ⟨p, rfl⟩ := exists_bitCode_of_and h0
    exact ⟨.delay x p, rfl, rfl⟩
  case txPush => obtain ⟨rfl, rfl, rfl, rfl⟩ := h; exact ⟨.txPush b0, rfl, rfl⟩
  case encSend => obtain ⟨rfl, rfl⟩ := h; exact ⟨.encSend b0 b1 b2, rfl, rfl⟩
  case fsSet => obtain rfl := h; exact ⟨.fsSet x b0 b1 b2, rfl, rfl⟩
  case fsGet => obtain ⟨rfl, rfl, rfl, rfl⟩ := h; exact ⟨.fsGet x, rfl, rfl⟩
  case rxPop | decInit | decPoll | scanInit | scanTick | fsInit | fsClr =>
    obtain ⟨rfl, rfl, rfl, rfl, rfl⟩ := h
    refine ⟨_, ?_, rfl⟩
    rfl

/-- The select of STAT_RD is the low three bits of `b0`. -/
theorem Fields.ofWord_select (w : CommandWord) : (w.extractLsb' 16 3).toNat = (ofWord w).b0.toNat % 8 := by
  simp only [ofWord, BitVec.extractLsb'_toNat]
  omega

/-! ## Event rows (R94) -/

theorem irqRx_row_selects_iff {w : EventWord} : w &&& 0xF800#16 = 0x4000#16 ↔ (Half.hi w).toNat / 8 = 8 := by
  have hmask : (w &&& 0xF800#16).toNat = w.toNat / 2048 * 2048 := toNat_and_highMask w 11
  have hw := w.isLt
  rw [← BitVec.toNat_inj, hmask, Half.hi, BitVec.toNat_ofNat, BitVec.toNat_ofNat]
  omega

theorem Half.eq_ofBytes {x : Half} {h l : Byte} (hb : [h, l] = [hi x, lo x]) : x = ofBytes h l := by
  obtain ⟨rfl, rfl⟩ : h = hi x ∧ l = lo x := by simpa using hb
  exact (ofBytes_hi_lo x).symm

theorem event_row_selects_of_eventBytes {j : Instr} {w : EventWord} (hwf : j.wellFormed = true)
    (hb : j.eventBytes = [Half.hi w, Half.lo w]) :
    w &&& BitVec.ofNat 16 j.row.mask = BitVec.ofNat 16 j.row.pattern := by
  cases j with
  | irqFlush => obtain rfl := Half.eq_ofBytes hb; decide
  | irqTx => obtain rfl := Half.eq_ofBytes hb; decide
  | irqRx avail data pe fe oe =>
    obtain rfl : avail = true := hwf
    refine irqRx_row_selects_iff.2 ?_
    obtain ⟨hhi, -⟩ := List.cons.inj hb
    rw [← hhi, rxHigh_toNat]
  | _ => cases hb

theorem exists_eventBytes_of_row_selects {i : Instr} {w : EventWord} (hi : i.isCommand = false)
    (h : w &&& BitVec.ofNat 16 i.row.mask = BitVec.ofNat 16 i.row.pattern) :
    ∃ j : Instr, (j.wellFormed = true ∧ j.eventBytes = [Half.hi w, Half.lo w]) ∧ j.row = i.row := by
  cases i with
  | irqFlush =>
    obtain rfl := (Half.and_ones w).symm.trans h
    exact ⟨.irqFlush, ⟨rfl, rfl⟩, rfl⟩
  | irqTx =>
    obtain rfl := (Half.and_ones w).symm.trans h
    exact ⟨.irqTx, ⟨rfl, rfl⟩, rfl⟩
  | irqRx =>
    have hhi := irqRx_row_selects_iff.1 h
    exact ⟨.irqRx true (Half.lo w) ((Half.hi w).getLsbD 0) ((Half.hi w).getLsbD 1) ((Half.hi w).getLsbD 2),
      ⟨rfl, by rw [Instr.eventBytes, rxHigh_getLsbD hhi]⟩, rfl⟩
  | _ => cases hi

/-- Settles O3: field by field, a mask leaves the bits of the operands free, and every value of them but STAT_RD's
selects 6 and 7 is an operand. -/
theorem wordsSelectedByMatchAndMask : Obligations.WordsSelectedByMatchAndMask := by
  refine ⟨fun w i hi => ?_, fun w i hi => ?_⟩
  · simp only [Machine.decodeCommandWord_eq, decodeCommand_eq_ok_iff, Fields.ofWord_select]
    constructor
    · rintro ⟨j, hj, hrow⟩
      rw [← hrow]
      exact ⟨(Fields.ofWord_matchesRow_iff (isCommand_of_fields hj)).1 (matchesRow_of_fields hj),
        statSelect_lt_of_fields hj⟩
    · rintro ⟨hmatch, hsel⟩
      exact exists_fields_of_matchesRow hi ((Fields.ofWord_matchesRow_iff hi).2 hmatch) hsel
  · simp only [Machine.decodeEventWord_eq, decodeEvent_eq_ok_iff]
    constructor
    · rintro ⟨j, ⟨hwf, hb⟩, hrow⟩
      rw [← hrow]
      exact event_row_selects_of_eventBytes hwf hb
    · exact exists_eventBytes_of_row_selects hi

end Sys2Proof

namespace Sys2Proof.Machine

/-! ## The worked encodings (R97, R99) -/

/-- A line whose operation has the printed word: the word decodes to the operation, as every encoded word does. -/
theorem worked_encoding {line : String} {bits w : Nat} (i : Instr)
    (hasm : assemble Config.params line = .ok (some ⟨i, none⟩)) (hwf : i.wellFormed = true)
    (hbits : encodeBits i = bits) (hw : encodeWord i = w) :
    ∃ i, assemble Config.params line = .ok (some ⟨i, none⟩) ∧ encodeBits i = bits ∧ encodeWord i = w ∧
      decodeTableWord bits w = some i :=
  ⟨i, hasm, hbits, hw, by rw [← hbits, ← hw, decodeTableWord_encodeWord hwf]⟩

/-- Settles O4: each line is assembled and encoded; `decodeTableWord_encodeWord` gives the way back. -/
theorem workedEncodings : Obligations.WorkedEncodings := by
  simp only [Obligations.WorkedEncodings, List.forall_mem_cons, List.not_mem_nil, false_implies, implies_true, and_true]
  exact ⟨worked_encoding (.fsSet 2 1 2 3) (by decide) rfl rfl rfl, worked_encoding (.fsGet 2) (by decide) rfl rfl rfl,
    worked_encoding .fsClr (by decide) rfl rfl rfl, worked_encoding (.txPush 0x90) (by decide) rfl rfl rfl,
    worked_encoding (.encSend 0x90 0x3C 0x64) (by decide) rfl rfl rfl,
    worked_encoding (.chHas .outbound) (by decide) rfl rfl rfl,
    worked_encoding (.statRd .inbound .overflow) (by decide) rfl rfl rfl,
    worked_encoding (.hndSet .keyDown true) (by decide) rfl rfl rfl,
    worked_encoding (.delay 250 true) (by decide) rfl rfl rfl,
    worked_encoding (.irqRx true 0x3C false false false) (by decide) rfl rfl rfl,
    worked_encoding (.irqRx true 0x3C true true false) (by decide) rfl rfl rfl,
    worked_encoding .irqTx (by decide) rfl rfl rfl, worked_encoding .irqFlush (by decide) rfl rfl rfl⟩

/-! ## Words that spell nothing (R93, R94) -/

theorem stepFg_of_decode_error {s : State} {w : CommandWord} {e : DecodeError} (hf : s.fetchCommand = some w)
    (hd : decodeCommandWord w = .error e) : stepFg s = .next s.illegalCommand := by
  simp [stepFg, hf, hd]

theorem stepTurn_event_of_decode_error {w : EventWord} {e : DecodeError} (hd : decodeEventWord w = .error e)
    (s : State) : stepTurn (.event w) s = .next s := by
  simp [stepTurn, hd]

theorem State.illegalCommand_unchangedBut (s : State) : UnchangedBut [.responses, .fg] s s.illegalCommand := by
  intro q hq
  cases q <;> simp_all [Part.Same]

theorem State.setTurns_unchangedBut (s : State) (ts : List Turn) : UnchangedBut [.env] s (s.setTurns ts) := by
  intro q hq
  cases q <;> simp_all [Part.Same]

/-- Settles O5: the step is the answer ILLEGAL in the state with FG's turn used up. -/
theorem illegalCommandAnswersIllegal : Obligations.IllegalCommandAnswersIllegal := by
  intro s u w e hfg hfetch hdec
  refine ⟨u.illegalCommand, ?_, u.illegalCommand_responses, rfl, u.illegalCommand_unchangedBut⟩
  rw [step_of_fgMovesIn hfg, stepFg_of_decode_error hfetch hdec]

/-- Settles O60: the step is the use of the turn and nothing more. -/
theorem illegalEventWordIsDropped : Obligations.IllegalEventWordIsDropped := by
  intro s w ts e hturns hdec
  refine ⟨s.setTurns ts, ?_, rfl, s.setTurns_unchangedBut ts⟩
  rw [step_of_turns_cons hturns, stepTurn_event_of_decode_error hdec]

/-! ## The packed debounce byte (R87) -/

theorem Key.pack_toNat (k : Key) : k.pack.toNat = k.st.code.toNat * 32 + k.count.toNat := by
  rw [Key.pack, BitVec.toNat_append, ← Nat.shiftLeft_add_eq_or_of_lt k.count.isLt, Nat.shiftLeft_eq]

theorem KeyState.ofCode_code (st : KeyState) : KeyState.ofCode st.code = some st := by cases st <;> rfl

theorem KeyState.ofCode_eq_none_iff {c : BitVec 3} : KeyState.ofCode c = none ↔ 5 ≤ c.toNat := by
  unfold KeyState.ofCode
  split <;> simp_all
  omega

theorem Key.unpack_pack (k : Key) : Key.unpack k.pack = some k := by
  have hst : k.pack.extractLsb' 5 3 = k.st.code := BitVec.extractLsb'_append_eq_left
  have hcount : k.pack.extractLsb' 0 5 = k.count := BitVec.extractLsb'_append_eq_right
  rw [Key.unpack, hst, hcount, KeyState.ofCode_code, Option.map_some]

/-- The state code of a byte is its value divided by 32, so codes 5 to 7 are the bytes from 0xA0 up. -/
theorem Key.unpack_eq_none_iff {b : Byte} : Key.unpack b = none ↔ 0xA0 ≤ b.toNat := by
  have hb := b.isLt
  rw [Key.unpack, Option.map_eq_none_iff, KeyState.ofCode_eq_none_iff, BitVec.extractLsb'_toNat,
    Nat.shiftRight_eq_div_pow]
  omega

/-- Settles O48: a packed byte is 32 times the state code plus the counter. -/
theorem packedKeyByteLayout : Obligations.PackedKeyByteLayout := by
  refine ⟨fun c => ?_, Key.unpack_pack, fun b => Key.unpack_eq_none_iff⟩
  simp [Key.pack_toNat, KeyState.code]

end Sys2Proof.Machine
end

section
/-! PROOFS. The byte channel (spec/40_byte_channel.md R110 to R123): what each command and service of a channel does, what
lifts RX_POP's hold, and the ring as a bounded queue. -/

namespace Sys2Proof.Machine

/-! ## Frames of an update and of a completion -/

theorem UnchangedBut.refl (s : State) : UnchangedBut [] s s := by
  intro q _
  cases q <;> rfl

theorem State.setChan_unchangedBut (s : State) (ch : Chan) (c : Channel) :
    UnchangedBut [chanPart ch] s (s.setChan ch c) := by
  intro q hq
  cases ch <;> cases q <;> simp_all [chanPart, Part.Same]

@[simp] theorem State.setChan_chan (s : State) (ch : Chan) (c : Channel) : (s.setChan ch c).chan ch = c := by
  cases ch <;> rfl

@[simp] theorem State.complete_chan (s : State) (x : Word) (ch : Chan) : (s.complete x).chan ch = s.chan ch := by
  cases ch <;> rfl

/-- Completing a command writes the responses and FG's position besides what the command wrote. -/
theorem UnchangedBut.complete {parts : List Part} {s t : State} (h : UnchangedBut parts s t) (x : Word) :
    UnchangedBut (parts ++ [.responses, .fg]) s (t.complete x) := by
  intro q hq
  obtain ⟨hparts, hcompletion⟩ : q ∉ parts ∧ q ∉ [Part.responses, Part.fg] := by simpa using hq
  have hsame := h q hparts
  cases q <;> simp_all [Part.Same]

/-- A command that has written no stream and left FG in place completes with one response. -/
theorem Completed.of_complete {s t : State} (hout : t.out = s.out) (hfg : t.fg = s.fg) (x : Word) :
    Completed s (t.complete x) x := by
  simp [Completed, hout, hfg]

/-! ## CH_INIT and CH_HAS (R116, R117, R119) -/

/-- Initialisation zeroes the slots of the buffer and no index beyond them. -/
theorem Channel.init_byteAt (size : Nat) (c : Channel) (j : Nat) :
    (c.init size).byteAt j = if j < size then 0 else c.byteAt j :=
  Memory.read_clear 0 size c.buf j

theorem Stats.zero_get (sel : StatSel) : Stats.zero.get sel = 0 := by cases sel <;> rfl

/-- Settles O14: the channel is initialised and the command completes with 0. -/
theorem chInitRestoresTheChannel : Obligations.ChInitRestoresTheChannel := by
  intro ch s
  refine ⟨_, rfl, .of_complete (s.setChan_out ..) (s.setChan_fg ..) 0, (s.setChan_unchangedBut ch _).complete 0, ?_⟩
  rw [State.complete_chan, State.setChan_chan]
  refine ⟨rfl, rfl, fun j hj => ?_, fun j hj => ?_, Stats.zero_get⟩
  · rw [Channel.init_byteAt, if_pos hj]
  · rw [Channel.init_byteAt, if_neg (Nat.not_lt.mpr hj)]

/-- Settles O18: the command completes with the cursor test and has written nothing. -/
theorem chHasReportsDifferingCursors : Obligations.ChHasReportsDifferingCursors := by
  intro ch s
  have hdata : boolWord (s.chan ch).has = if (s.chan ch).wr = (s.chan ch).rd then 0 else 1 := by
    simp [boolWord]
  exact ⟨_, rfl, hdata ▸ .of_complete rfl rfl _, (UnchangedBut.refl s).complete _⟩

/-! ## RX_POP (R115, R118) -/

theorem rxPop_of_nonempty {s : State} (h : s.inCh.wr ≠ s.inCh.rd) (p : Params) :
    rxPop p s = .next ((s.setIn (s.inCh.pop p.sizeIn)).complete (byteWord s.inCh.oldest)) :=
  if_pos ((Channel.has_iff _).mpr h)

theorem rxPop_of_empty {s : State} (h : s.inCh.wr = s.inCh.rd) (p : Params) : rxPop p s = .next s :=
  if_neg (by simpa using h)

/-- Settles O15: with data the command is a dequeue that completes with the oldest byte. -/
theorem rxPopReturnsTheOldestByte : Obligations.RxPopReturnsTheOldestByte := fun s hdata =>
  ⟨_, rxPop_of_nonempty hdata Config.params, .of_complete rfl rfl _, (s.setChan_unchangedBut .inbound _).complete _, rfl⟩

/-- Settles O16: without data the turn passes. -/
theorem rxPopHoldsWhileInIsEmpty : Obligations.RxPopHoldsWhileInIsEmpty := fun _ hempty =>
  rxPop_of_empty hempty Config.params

/-! ## What lifts the hold (R118) -/

theorem State.decodeOne_of_empty {s : State} (h : s.inCh.wr = s.inCh.rd) (p : Params) : s.decodeOne p = s := by
  obtain ⟨-, e⟩ | ⟨hne, -⟩ := s.decodeOne_cases p
  · exact e
  · exact absurd h hne

/-- A delay's polls find nothing in an empty `IN` (R148, R216). -/
theorem State.delayStep_inCh_of_empty {s : State} (h : s.inCh.wr = s.inCh.rd) (p : Params) (poll : Bool) (left : Nat) :
    (s.delayStep p poll left).inCh = s.inCh := by
  have hbody : s.delayBody p poll = s := by
    cases poll with
    | false => rfl
    | true => exact State.decodeOne_of_empty h p
  rcases s.delayStep_cases p poll left with ⟨-, e⟩ | ⟨-, e⟩ | ⟨n, -, e⟩ <;> simp [e, hbody]

/-- The operations that write `IN.rd` leave an empty `IN` empty: dequeues are guarded by HAS, and CH_INIT makes the cursors
equal. -/
theorem inCh_empty_of_exec_writer_of_rd {i : Instr} {s t : State} (ht : exec i s = .next t)
    (hi : i = .rxPop ∨ i = .decPoll ∨ (∃ ms, i = .delay ms true) ∨ i = .chInit .inbound)
    (hempty : s.inCh.wr = s.inCh.rd) : t.inCh.wr = t.inCh.rd := by
  rcases hi with rfl | rfl | ⟨ms, rfl⟩ | rfl
  · cases (rxPop_of_empty hempty Config.params).symm.trans ht
    exact hempty
  · cases ht
    rw [State.complete_inCh, State.decodeOne_of_empty hempty]
    exact hempty
  · obtain ⟨u, left, hu, e⟩ := delay_cases Config.params ms true s
    have hin : u.inCh = s.inCh := by rcases hu with rfl | rfl <;> simp
    cases e.symm.trans ht
    rw [State.delayStep_inCh_of_empty (by rw [hin, hempty]), hin, hempty]
  · cases ht
    rfl

/-- Settles O17: a cursor of `IN` has moved, and of its writers only the receive service leaves the cursors different. -/
theorem onlyReceiveLiftsTheHold : Obligations.OnlyReceiveLiftsTheHold := by
  intro i s t ht hempty hdata
  rw [Channel.has_eq_false_iff] at hempty
  rw [Channel.has_iff] at hdata
  obtain ⟨hwr, hrd, -, -⟩ := eachCursorHasOneWriter i s t ht
  have hwriters : (∃ b, i = .irqRx true b false false false) ∨
      (i = .rxPop ∨ i = .decPoll ∨ (∃ ms, i = .delay ms true) ∨ i = .chInit .inbound) := by
    by_cases hmoved : t.inCh.wr = s.inCh.wr
    · exact .inr (hrd fun hstill => hdata (by rw [hmoved, hstill, hempty]))
    · exact (hwr (.inl hmoved)).imp_right fun hinit => .inr (.inr (.inr hinit))
  obtain hrx | hother := hwriters
  · exact hrx
  · exact absurd (inCh_empty_of_exec_writer_of_rd ht hother hempty) hdata

/-! ## TX_PUSH (R114, R121) -/

/-- Settles O19: the command is one enqueue attempt that completes with its result. -/
theorem txPushEnqueuesOrCounts : Obligations.TxPushEnqueuesOrCounts := by
  intro b s
  have hdone := Completed.of_complete (t := s.pushOut Config.params b) rfl rfl
    (boolWord (s.outCh.accepts Config.params.sizeOut))
  refine ⟨_, rfl, (s.setChan_unchangedBut .outbound _).complete _, fun hfull => ?_, fun hroom => ?_⟩
  · obtain ⟨hpush, hrefused⟩ := Channel.push_of_full hfull b
    rw [hrefused] at hdone ⊢
    exact ⟨hdone, hpush⟩
  · obtain ⟨hpush, haccepted⟩ := Channel.push_of_not_full hroom b
    rw [haccepted] at hdone ⊢
    refine ⟨hdone, ?_⟩
    rw [State.complete_outCh, State.pushOut_outCh]
    exact ⟨by rw [hpush], by rw [hpush], by rw [hpush], Channel.push_byteAt hroom b⟩

/-! ## IRQ_RX (R120) -/

theorem lineError_eq_false_iff {pe fe oe : Bool} :
    lineError pe fe oe = false ↔ pe = false ∧ fe = false ∧ oe = false := by
  simp [lineError, and_assoc]

/-- An unflagged byte meeting a full `IN` is dropped and counted. -/
theorem rxChannel_of_full {size : Nat} {c : Channel} (hfull : (c.wr + 1) % size = c.rd) (b : Byte) :
    rxChannel size true b false false false c = (c.tally .ints).tally .overflow := by
  rcases rxChannel_cases size true b false false false c with ⟨h, -⟩ | ⟨-, h, -⟩ | ⟨-, -, -, e⟩ | ⟨-, -, hroom, -⟩
  · cases h
  · cases h
  · exact e
  · exact absurd hfull hroom

/-- An unflagged byte meeting a free slot is enqueued and counted. -/
theorem rxChannel_of_room {size : Nat} {c : Channel} (hroom : (c.wr + 1) % size ≠ c.rd) (b : Byte) :
    rxChannel size true b false false false c = (((c.tally .ints).store b).publishWr size).tally .bytes := by
  rcases rxChannel_cases size true b false false false c with ⟨h, -⟩ | ⟨-, h, -⟩ | ⟨-, -, hfull, -⟩ | ⟨-, -, -, e⟩
  · cases h
  · cases h
  · exact absurd hfull hroom
  · rw [e, Channel.push_eq_publishWr_store (c := c.tally .ints) hroom]

/-- The receive service counts itself and each set flag of an available byte, whatever becomes of the byte. -/
theorem rxChannel_service_and_flag_counters (size : Nat) (avail : Bool) (b : Byte) (pe fe oe : Bool) (c : Channel) :
    (rxChannel size avail b pe fe oe c).stat.ints = c.stat.ints + 1 ∧
    (rxChannel size avail b pe fe oe c).stat.parity = c.stat.parity + (if avail && pe then 1 else 0) ∧
    (rxChannel size avail b pe fe oe c).stat.framing = c.stat.framing + (if avail && fe then 1 else 0) ∧
    (rxChannel size avail b pe fe oe c).stat.overrun = c.stat.overrun + (if avail && oe then 1 else 0) := by
  rcases rxChannel_cases size avail b pe fe oe c with
    ⟨rfl, e⟩ | ⟨rfl, -, e⟩ | ⟨rfl, hflags, hfull, -⟩ | ⟨rfl, hflags, hroom, -⟩
  · rw [e]; exact ⟨rfl, rfl, rfl, rfl⟩
  · rw [e]; cases pe <;> cases fe <;> cases oe <;> exact ⟨rfl, rfl, rfl, rfl⟩
  · obtain ⟨rfl, rfl, rfl⟩ := lineError_eq_false_iff.mp hflags
    rw [rxChannel_of_full hfull]; exact ⟨rfl, rfl, rfl, rfl⟩
  · obtain ⟨rfl, rfl, rfl⟩ := lineError_eq_false_iff.mp hflags
    rw [rxChannel_of_room hroom]; exact ⟨rfl, rfl, rfl, rfl⟩

/-- With no byte available or a flagged one, the buffer, `wr`, and the counts of bytes and of overflows stay. -/
theorem rxChannel_of_discarded {avail : Bool} {pe fe oe : Bool}
    (h : avail = false ∨ pe = true ∨ fe = true ∨ oe = true) (size : Nat) (b : Byte) (c : Channel) :
    (rxChannel size avail b pe fe oe c).buf = c.buf ∧ (rxChannel size avail b pe fe oe c).wr = c.wr ∧
    (rxChannel size avail b pe fe oe c).stat.bytes = c.stat.bytes ∧
    (rxChannel size avail b pe fe oe c).stat.overflow = c.stat.overflow := by
  have hkept : ¬ (avail = true ∧ lineError pe fe oe = false) := by
    rw [lineError_eq_false_iff]
    rintro ⟨rfl, rfl, rfl, rfl⟩
    simp at h
  rcases rxChannel_cases size avail b pe fe oe c with ⟨-, e⟩ | ⟨-, -, e⟩ | ⟨havail, hflags, -⟩ | ⟨havail, hflags, -⟩
  · rw [e]; exact ⟨rfl, rfl, rfl, rfl⟩
  · rw [e]; cases pe <;> cases fe <;> cases oe <;> exact ⟨rfl, rfl, rfl, rfl⟩
  · exact absurd ⟨havail, hflags⟩ hkept
  · exact absurd ⟨havail, hflags⟩ hkept

/-- Settles O20: the service replaces `IN` by what the handler makes of it, read clause by clause. -/
theorem receiveServiceCountsOrEnqueues : Obligations.ReceiveServiceCountsOrEnqueues := by
  intro avail b pe fe oe s
  obtain ⟨hints, hparity, hframing, hoverrun⟩ :=
    rxChannel_service_and_flag_counters Config.params.sizeIn avail b pe fe oe s.inCh
  refine ⟨_, rfl, s.setChan_unchangedBut .inbound _, rxChannel_rd .., hints, hparity, hframing, hoverrun,
    fun hdiscard => rxChannel_of_discarded hdiscard _ b s.inCh, ?_, ?_⟩
  · rintro ⟨rfl, rfl, rfl, rfl, hfull⟩
    simp only [irqReturn_eq, irqEntry_eq, rxBody, State.setIn_inCh, rxChannel_of_full hfull]
    exact ⟨rfl, rfl, rfl, rfl⟩
  · rintro ⟨rfl, rfl, rfl, rfl, hroom⟩
    simp only [irqReturn_eq, irqEntry_eq, rxBody, State.setIn_inCh, rxChannel_of_room hroom]
    exact ⟨Memory.read_write 0 s.inCh.buf s.inCh.wr b, rfl, rfl, rfl⟩

/-! ## IRQ_TX (R122) -/

/-- The transmit service writes `OUT` and `tx_out` only. -/
theorem txBody_unchangedBut (p : Params) (s : State) : UnchangedBut [.outCh, .txOut] s (txBody p s) := by
  intro q hq
  rcases txBody_cases p s with ⟨-, e⟩ | ⟨-, e⟩ <;> rw [e] <;> cases q <;> simp_all [Part.Same]

/-- Settles O21: the service's body on a non-empty and on an empty `OUT`. -/
theorem transmitServiceSendsTheOldestByte : Obligations.TransmitServiceSendsTheOldestByte := by
  intro s
  refine ⟨txBody Config.params s, rfl, txBody_unchangedBut _ s, fun hdata => ?_, fun hempty => ?_⟩
  · rw [txBody_of_nonempty hdata]
    exact ⟨rfl, rfl⟩
  · rw [txBody_of_empty hempty]
    exact ⟨rfl, rfl⟩

/-! ## The ring is a bounded queue (R111, R123 (b), (d)) -/

section Ring

variable {size : Nat} {c : Channel}

theorem ringStep_push_of_full (hfull : (c.wr + 1) % size = c.rd) (b : Byte) : ringStep size c (.push b) =
    ({ c with stat := { c.stat with overflow := c.stat.overflow + 1 } }, .pushed false) := by
  simp [ringStep, Channel.push_of_full hfull b]

theorem ringStep_push_of_room (hroom : (c.wr + 1) % size ≠ c.rd) (b : Byte) :
    ringStep size c (.push b) = ((c.store b).publishWr size, .pushed true) := by
  simp [ringStep, Channel.push_eq_publishWr_store hroom b, (Channel.push_of_not_full hroom b).2]

theorem ringStep_pop_of_empty (hempty : c.wr = c.rd) : ringStep size c .pop = (c, .popped none) :=
  if_neg (by simpa using hempty)

theorem ringStep_pop_of_data (hdata : c.wr ≠ c.rd) : ringStep size c .pop = (c.pop size, .popped (some c.oldest)) :=
  if_pos ((Channel.has_iff c).mpr hdata)

theorem ringStep_inRange (h : c.InRange size) (op : ChanOp) : (ringStep size c op).1.InRange size := by
  cases op with
  | push b => exact h.push b
  | pop =>
    by_cases hempty : c.wr = c.rd
    · rw [ringStep_pop_of_empty hempty]; exact h
    · rw [ringStep_pop_of_data hempty]; exact h.pop

theorem Channel.InRange.fifo_eq_nil (h : c.InRange size) (hempty : c.wr = c.rd) : c.fifo size = [] := by
  rw [← List.length_eq_zero_iff, Channel.fifo_length, h.count_eq_zero_iff, hempty]

/-- The queue has room exactly when the cursor test says that the ring has. -/
theorem Channel.InRange.fifo_length_lt_iff (h : c.InRange size) :
    (c.fifo size).length < size - 1 ↔ (c.wr + 1) % size ≠ c.rd := by
  rw [Channel.fifo_length, Ne, h.succ_wr_eq_rd_iff]
  exact h.count_le.lt_iff_ne

/-- One operation of the ring is the queue's operation on the buffered bytes, with the same result. -/
theorem queueStep_fifo (h : c.InRange size) (op : ChanOp) :
    queueStep (size - 1) (c.fifo size) op = ((ringStep size c op).1.fifo size, (ringStep size c op).2) := by
  cases op with
  | push b =>
    by_cases hfull : (c.wr + 1) % size = c.rd
    · rw [queueStep, if_neg (mt h.fifo_length_lt_iff.mp (not_not.mpr hfull)), ringStep_push_of_full hfull]
      rfl
    · rw [queueStep, if_pos (h.fifo_length_lt_iff.mpr hfull), ringStep_push_of_room hfull, ← Channel.fifo_push h hfull,
        Channel.push_eq_publishWr_store hfull]
  | pop =>
    by_cases hempty : c.wr = c.rd
    · rw [ringStep_pop_of_empty hempty, h.fifo_eq_nil hempty, queueStep]
    · rw [ringStep_pop_of_data hempty, Channel.fifo_pop h hempty, queueStep]

/-- One operation of the ring counts an overflow exactly when it is a refused push. -/
theorem ringStep_stat (size : Nat) (c : Channel) (op : ChanOp) : (ringStep size c op).1.stat =
    { c.stat with overflow := c.stat.overflow + refusals [(ringStep size c op).2] } := by
  cases op with
  | push b =>
    by_cases hfull : (c.wr + 1) % size = c.rd
    · rw [ringStep_push_of_full hfull]; rfl
    · rw [ringStep_push_of_room hfull]; rfl
  | pop =>
    by_cases hempty : c.wr = c.rd
    · rw [ringStep_pop_of_empty hempty]; rfl
    · rw [ringStep_pop_of_data hempty]; rfl

theorem refusals_cons (r : ChanResult) (rs : List ChanResult) : refusals (r :: rs) = refusals [r] + refusals rs := by
  rw [refusals, ← List.singleton_append, List.count_append]
  rfl

end Ring

/-- A predicate that every operation keeps holds after any sequence of operations. -/
theorem runOps_keeps {σ : Type} {f : σ → ChanOp → σ × ChanResult} {P : σ → Prop}
    (keeps : ∀ x op, P x → P (f x op).1) {x : σ} (hx : P x) (ops : List ChanOp) : P (runOps f x ops).1 := by
  induction ops generalizing x with
  | nil => exact hx
  | cons op ops ih => exact ih (keeps x op hx)

/-- Step by step simulation under an invariant: runs from related states stay related and give the same results. -/
theorem runOps_simulates {σ τ : Type} {f : σ → ChanOp → σ × ChanResult} {g : τ → ChanOp → τ × ChanResult}
    {P : σ → Prop} {abs : σ → τ} (keeps : ∀ x op, P x → P (f x op).1)
    (simulates : ∀ x op, P x → g (abs x) op = (abs (f x op).1, (f x op).2)) {x : σ} (hx : P x) (ops : List ChanOp) :
    runOps g (abs x) ops = (abs (runOps f x ops).1, (runOps f x ops).2) := by
  induction ops generalizing x with
  | nil => rfl
  | cons op ops ih => simp only [runOps, simulates x op hx, ih (keeps x op hx)]

/-- A run of the ring is the run of a queue of `size - 1` bytes from the buffered ones. -/
theorem runOps_queueStep_fifo {size : Nat} {c : Channel} (h : c.InRange size) (ops : List ChanOp) :
    runOps (queueStep (size - 1)) (c.fifo size) ops =
      ((runOps (ringStep size) c ops).1.fifo size, (runOps (ringStep size) c ops).2) :=
  runOps_simulates (abs := Channel.fifo size) (fun _ op h => ringStep_inRange h op) (fun _ op h => queueStep_fifo h op)
    h ops

/-- A run of the ring counts its refused pushes as overflows and nothing else. -/
theorem runOps_ringStep_stat (size : Nat) (c : Channel) (ops : List ChanOp) : (runOps (ringStep size) c ops).1.stat =
    { c.stat with overflow := c.stat.overflow + refusals (runOps (ringStep size) c ops).2 } := by
  induction ops generalizing c with
  | nil => rfl
  | cons op ops ih => simp only [runOps, ih, ringStep_stat size c op, refusals_cons _ (runOps _ _ ops).2, Nat.add_assoc]

/-- Settles O24: the ring of any size simulates the queue, at `2^k` slots. -/
theorem ringRefinesBoundedQueue : Obligations.RingRefinesBoundedQueue := by
  intro k c ops _ h
  have hqueue := runOps_queueStep_fifo h ops
  have hrange : (runOps (ringStep (2 ^ k)) c ops).1.InRange (2 ^ k) :=
    runOps_keeps (P := Channel.InRange (2 ^ k)) (fun _ op h => ringStep_inRange h op) h ops
  exact ⟨by rw [hqueue], by rw [hqueue], hrange, runOps_ringStep_stat _ c ops⟩

/-! ## One enqueue more than `CAP` (R123 (c)) -/

theorem runOps_append {σ : Type} (f : σ → ChanOp → σ × ChanResult) (x : σ) (ops ops' : List ChanOp) :
    runOps f x (ops ++ ops') =
      ((runOps f (runOps f x ops).1 ops').1, (runOps f x ops).2 ++ (runOps f (runOps f x ops).1 ops').2) := by
  induction ops generalizing x with
  | nil => rfl
  | cons op ops ih => simp only [List.cons_append, runOps, ih]

/-- A queue accepts every byte there is room for. -/
theorem runOps_queueStep_push {cap : Nat} {q bs : List Byte} (h : q.length + bs.length ≤ cap) :
    runOps (queueStep cap) q (bs.map .push) = (q ++ bs, List.replicate bs.length (.pushed true)) := by
  induction bs generalizing q with
  | nil => simp [runOps]
  | cons b bs ih =>
    rw [List.length_cons] at h
    have hroom : q.length < cap := by omega
    have hrest : (q ++ [b]).length + bs.length ≤ cap := by simp; omega
    simp [runOps, queueStep, hroom, ih hrest, List.replicate_succ]

/-- As many pops as a queue has bytes return them all, oldest first. -/
theorem runOps_queueStep_pop (cap : Nat) (q : List Byte) : runOps (queueStep cap) q (List.replicate q.length .pop) =
    ([], q.map fun x => .popped (some x)) := by
  induction q with
  | nil => rfl
  | cons b q ih => simp [List.replicate_succ, runOps, queueStep, ih]

/-- `cap` bytes pushed into an empty queue, one more refused, and the bytes popped in order. -/
theorem runOps_queueStep_fill_overflow_drain {cap : Nat} {bs : List Byte} (h : bs.length = cap) (b : Byte) :
    runOps (queueStep cap) [] (bs.map .push ++ [.push b] ++ List.replicate cap .pop) =
      ([], List.replicate cap (.pushed true) ++ [.pushed false] ++ bs.map fun x => .popped (some x)) := by
  subst h
  have hfill : runOps (queueStep bs.length) [] (bs.map .push) = (bs, List.replicate bs.length (.pushed true)) :=
    runOps_queueStep_push (q := []) (by simp)
  have hrefused : runOps (queueStep bs.length) bs [.push b] = (bs, [.pushed false]) := by simp [runOps, queueStep]
  simp only [runOps_append, hfill, hrefused, runOps_queueStep_pop]

theorem refusals_fill_overflow_drain (n : Nat) (bs : List Byte) :
    refusals (List.replicate n (.pushed true) ++ [.pushed false] ++ bs.map fun x => .popped (some x)) = 1 := by
  have hpopped : (bs.map fun x => ChanResult.popped (some x)).count (.pushed false) = 0 := by
    simp [List.count_eq_zero]
  simp [refusals, List.count_append, List.count_replicate, hpopped]

/-- Settles O25: the ring's results are the queue's, and the one refusal among them is the one overflow. -/
theorem overflowKeepsBufferedBytes : Obligations.OverflowKeepsBufferedBytes := by
  intro k c bs b _ h hempty hlen
  have hqueue := runOps_queueStep_fifo h (bs.map .push ++ [.push b] ++ List.replicate (2 ^ k - 1) .pop)
  rw [h.fifo_eq_nil hempty, runOps_queueStep_fill_overflow_drain hlen b] at hqueue
  have hresults := (congrArg Prod.snd hqueue).symm
  refine ⟨hresults, ?_⟩
  rw [runOps_ringStep_stat, hresults, refusals_fill_overflow_drain]

end Sys2Proof.Machine
end

section
/-! PROOFS. The protocol framer (spec/41_protocol_framer.md R140 to R152): the decoder's rows, the message grammar it
recognises, the commands on it, and the encoder that mirrors it. -/

namespace Sys2Proof.Machine

/-! ## The decoder's rows (R142 to R147) -/

section Rows

variable {p : Params} {d : Decoder} {b : Byte}

theorem decNext_of_command (hs : d.state = .awaitingCommand) (hb : isCmd p b = true) :
    decNext p d b = ⟨.awaitingNote, b, d.note⟩ := by
  simp [decNext, hs, hb]

theorem decNext_of_discard (hs : d.state = .awaitingCommand) (hb : isCmd p b = false) : decNext p d b = d := by
  simp [decNext, hs, hb]

theorem decNext_of_note (hs : d.state = .awaitingNote) (hb : isData b = true) :
    decNext p d b = ⟨.awaitingVelocity, d.cmd, b⟩ := by
  simp [decNext, hs, hb]

theorem decNext_of_status_for_note (hs : d.state = .awaitingNote) (hb : isData b = false) :
    decNext p d b = ⟨.awaitingCommand, d.cmd, d.note⟩ := by
  simp [decNext, hs, hb]

theorem decNext_of_velocity (hs : d.state = .awaitingVelocity) (p : Params) (b : Byte) :
    decNext p d b = ⟨.awaitingCommand, d.cmd, d.note⟩ := by
  simp [decNext, hs]

theorem decRecords_of_not_velocity (hs : d.state ≠ .awaitingVelocity) (h : Handlers) (b : Byte) :
    decRecords h d b = [] := by
  cases hst : d.state with
  | awaitingCommand => simp [decRecords, hst]
  | awaitingNote => simp [decRecords, hst]
  | awaitingVelocity => exact absurd hst hs

theorem decRecords_of_velocity (hs : d.state = .awaitingVelocity) (h : Handlers) (b : Byte) :
    decRecords h d b = if isData b then noteRecords h d.cmd d.note b else [] := by
  simp [decRecords, hs]

end Rows

theorem isData_eq_false_iff {b : Byte} : isData b = false ↔ 0x80 ≤ b.toNat := by
  rw [← Bool.not_eq_true, isData_iff, Nat.not_lt]

theorem isCmd_iff {p : Params} {b : Byte} :
    isCmd p b = true ↔ b.extractLsb' 4 4 = 0x9#4 ∨ b.extractLsb' 4 4 = p.noteOff := by
  simp [isCmd, isNoteOn, topNibble, noteOnNibble]

/-- DISPATCH with the note-on test written as the top nibble (R151, R82). -/
theorem noteRecords_eq (h : Handlers) (cmd note vel : Byte) : noteRecords h cmd note vel =
    if cmd.extractLsb' 4 4 = 0x9#4 then (if h.noteOn then [.noteOn note vel] else [])
    else (if h.noteOff then [.noteOff note vel] else []) := by
  simp [noteRecords, isNoteOn, topNibble, noteOnNibble]

/-- Settles O33: a row of the table for each state and class of the byte. -/
theorem decoderFollowsItsTable : Obligations.DecoderFollowsItsTable := by
  intro d h b
  have hquiet {st : DecState} (hs : d.state = st) (hst : st ≠ .awaitingVelocity) : decRecords h d b = [] :=
    decRecords_of_not_velocity (hs.trans_ne hst) h b
  refine ⟨fun hs hb => ⟨decNext_of_command hs (isCmd_iff.mpr hb), hquiet hs nofun⟩,
    fun hs hb => ⟨decNext_of_discard hs (Bool.eq_false_iff.mpr (mt isCmd_iff.mp hb)), hquiet hs nofun⟩,
    fun hs hb => ⟨decNext_of_note hs ((isData_iff b).mpr hb), hquiet hs nofun⟩,
    fun hs hb => ⟨decNext_of_status_for_note hs (isData_eq_false_iff.mpr hb), hquiet hs nofun⟩,
    fun hs hb => ⟨decNext_of_velocity hs _ b, ?_⟩,
    fun hs hb => ⟨decNext_of_velocity hs _ b, ?_⟩⟩
  · rw [decRecords_of_velocity hs, if_pos ((isData_iff b).mpr hb), noteRecords_eq]
  · rw [decRecords_of_velocity hs, isData_eq_false_iff.mpr hb]
    rfl

/-! ## Messages, from a message boundary (R152) -/

section Messages

variable {p : Params} {d : Decoder} {c n : Byte}

/-- A byte that is no command is skipped. -/
theorem feedBytes_discard (hs : d.state = .awaitingCommand) (hc : isCmd p c = false) (h : Handlers) (bs : List Byte) :
    feedBytes p h d (c :: bs) = feedBytes p h d bs := by
  simp [feedBytes, decNext_of_discard hs hc, decRecords_of_not_velocity (d := d) (by simp [hs])]

/-- A command byte alone latches it and emits nothing. -/
theorem feedBytes_command (hs : d.state = .awaitingCommand) (hc : isCmd p c = true) (h : Handlers) (bs : List Byte) :
    feedBytes p h d (c :: bs) = feedBytes p h ⟨.awaitingNote, c, d.note⟩ bs := by
  simp [feedBytes, decNext_of_command hs hc, decRecords_of_not_velocity (d := d) (by simp [hs])]

/-- A status byte in the note's place is swallowed with the command (R145). -/
theorem feedBytes_broken (hs : d.state = .awaitingCommand) (hc : isCmd p c = true) (hn : isData n = false)
    (h : Handlers) (bs : List Byte) :
    feedBytes p h d (c :: n :: bs) = feedBytes p h ⟨.awaitingCommand, c, d.note⟩ bs := by
  rw [feedBytes_command hs hc]
  simp [feedBytes, decNext_of_status_for_note (d := ⟨.awaitingNote, c, d.note⟩) rfl hn, decRecords_of_not_velocity]

/-- Command and note latch both and emit nothing. -/
theorem feedBytes_command_note (hs : d.state = .awaitingCommand) (hc : isCmd p c = true) (hn : isData n = true)
    (h : Handlers) (bs : List Byte) :
    feedBytes p h d (c :: n :: bs) = feedBytes p h ⟨.awaitingVelocity, c, n⟩ bs := by
  rw [feedBytes_command hs hc]
  simp [feedBytes, decNext_of_note (d := ⟨.awaitingNote, c, d.note⟩) rfl hn, decRecords_of_not_velocity]

/-- Command, note and a third byte end the message; a data byte dispatches the event, a status byte is swallowed
(R146, R147). -/
theorem feedBytes_message (hs : d.state = .awaitingCommand) (hc : isCmd p c = true) (hn : isData n = true)
    (h : Handlers) (v : Byte) (bs : List Byte) :
    feedBytes p h d (c :: n :: v :: bs) = ((feedBytes p h ⟨.awaitingCommand, c, n⟩ bs).1,
      (if isData v then noteRecords h c n v else []) ++ (feedBytes p h ⟨.awaitingCommand, c, n⟩ bs).2) := by
  rw [feedBytes_command_note hs hc hn]
  simp [feedBytes, decNext_of_velocity, decRecords_of_velocity]

end Messages

/-- The decoder at a message boundary reads what the grammar reads, whatever bytes it still holds. -/
theorem feedBytes_records {p : Params} {d : Decoder} (hs : d.state = .awaitingCommand) (h : Handlers)
    (bs : List Byte) : (feedBytes p h d bs).2 = parseMessages p h bs := by
  fun_induction parseMessages p h bs generalizing d with
  | case1 => rfl
  | case2 c hc => rw [feedBytes_command hs hc]; rfl
  | case3 c hc n hn => rw [feedBytes_command_note hs hc hn]; rfl
  | case4 c hc n hn v bs ih => rw [feedBytes_message hs hc hn, ih rfl]
  | case5 c hc n bs hn ih => rw [feedBytes_broken hs hc (Bool.eq_false_iff.mpr hn), ih rfl]
  | case6 c bs hc ih => rw [feedBytes_discard hs (Bool.eq_false_iff.mpr hc), ih hs]

/-- Settles O38: the reading by messages, for the machine's note-off nibble. -/
theorem decoderRecognisesTheMessageGrammar : Obligations.DecoderRecognisesTheMessageGrammar :=
  fun h _ bs hs => feedBytes_records hs h bs

/-! ## Resynchronisation (R152) -/

/-- A data byte is no command (R82). -/
theorem isCmd_of_isData {p : Params} (hp : p.Valid) {b : Byte} (hb : isData b = true) : isCmd p b = false :=
  Bool.eq_false_iff.mpr fun hc => by simp [isData, isStatus_of_isCmd hp hc] at hb

theorem isCmd_noteOn (p : Params) : isCmd p 0x90 = true := isCmd_iff.mpr (.inl (by decide))

/-- A status byte ends a message that has begun; only at a message boundary can it begin one. -/
theorem decNext_of_status {d : Decoder} {b : Byte} (hb : isData b = false) (p : Params) :
    (decNext p d b).state = .awaitingCommand ∨
      ((decNext p d b).state = .awaitingNote ∧ d.state = .awaitingCommand) := by
  cases hs : d.state with
  | awaitingCommand =>
    cases hc : isCmd p b with
    | true => exact .inr ⟨by rw [decNext_of_command hs hc], rfl⟩
    | false => exact .inl (by rw [decNext_of_discard hs hc, hs])
  | awaitingNote => exact .inl (by rw [decNext_of_status_for_note hs hb])
  | awaitingVelocity => exact .inl (by rw [decNext_of_velocity hs])

/-- Settles O39: the four sequences read as messages, and what a status byte leads to. -/
theorem decoderResynchronises : Obligations.DecoderResynchronises := by
  refine ⟨fun d h hs hon => ?_, fun d b hb => decNext_of_status (isData_eq_false_iff.mpr hb) _⟩
  have hcmd := isCmd_noteOn Config.params
  have hnote : isData 0x3C = true := by decide
  have hvel : isData 0x64 = true := by decide
  have hstatus : isData 0xFF = false := by decide
  have hbroken (bs : List Byte) := feedBytes_broken hs hcmd hstatus h bs
  have hskipped : feedBytes Config.params h d [0x90, 0xFF, 0x3C, 0x64] = (⟨.awaitingCommand, 0x90, d.note⟩, []) := by
    rw [hbroken, feedBytes_discard rfl (isCmd_of_isData Config.params_valid hnote),
      feedBytes_discard rfl (isCmd_of_isData Config.params_valid hvel)]
    rfl
  rw [feedBytes_message hs hcmd hnote, feedBytes_message hs hcmd hnote, hbroken, hskipped, if_pos hvel, hstatus,
    noteRecords_eq, if_pos (by decide), if_pos hon]
  exact ⟨rfl, rfl, rfl, rfl, rfl, rfl, rfl⟩

/-! ## DEC_INIT and DEC_POLL (R148, R149) -/

theorem State.setDec_unchangedBut (s : State) (d : Decoder) : UnchangedBut [.dec] s (s.setDec d) := by
  intro q hq
  cases q <;> simp_all [Part.Same]

/-- Settles O35: the decoder record is replaced by its reset value and the command completes with 0. -/
theorem decInitRestoresTheDecoder : Obligations.DecInitRestoresTheDecoder := fun s =>
  ⟨_, rfl, .of_complete rfl rfl 0, (s.setDec_unchangedBut _).complete 0, rfl, rfl, rfl⟩

/-- A decode poll writes `IN`, the decoder and `fg_out` only. -/
theorem State.decodeOne_unchangedBut (p : Params) (s : State) :
    UnchangedBut [.inCh, .dec, .fgOut] s (s.decodeOne p) := by
  intro q hq
  rcases s.decodeOne_cases p with ⟨-, e⟩ | ⟨-, e⟩ <;> rw [e] <;> cases q <;> simp_all [Part.Same]

theorem State.decodeOne_of_data {s : State} (h : s.inCh.wr ≠ s.inCh.rd) (p : Params) :
    s.decodeOne p = (s.setIn (s.inCh.pop p.sizeIn)).decStep p s.inCh.oldest :=
  if_pos ((Channel.has_iff _).mpr h)

theorem State.decodeOne_responses (p : Params) (s : State) : (s.decodeOne p).out.responses = s.out.responses :=
  s.decodeOne_unchangedBut p .responses (by decide)

theorem decPoll_completed (p : Params) (s : State) (x : Word) : Completed s ((s.decodeOne p).complete x) x := by
  simp [Completed, State.decodeOne_responses, State.decodeOne_fg]

/-- Settles O34: the poll's body with and without a byte, and the response that tells which. -/
theorem decPollDecodesOnePendingByte : Obligations.DecPollDecodesOnePendingByte := by
  intro s
  refine ⟨_, rfl, (s.decodeOne_unchangedBut Config.params).complete _, fun hdata => ?_, fun hempty => ?_⟩
  · have hhas : s.inCh.has = true := (Channel.has_iff _).mpr hdata
    refine ⟨hhas ▸ decPoll_completed Config.params s 1, ?_⟩
    rw [State.decodeOne_of_data hdata]
    exact ⟨rfl, rfl, rfl⟩
  · have hhas : s.inCh.has = false := (Channel.has_eq_false_iff _).mpr hempty
    refine ⟨hhas ▸ decPoll_completed Config.params s 0, ?_⟩
    rw [State.decodeOne_of_empty hempty]
    exact ⟨rfl, rfl, rfl⟩

/-! ## ENC_SEND, a turn at a time (R150) -/

section EncSend

variable {s : State} (cmd note vel : Byte)

theorem exec_encSend_of_idle (h : s.fg.phase = .idle) : exec (.encSend cmd note vel) s = .next
    ((s.pushOut Config.params cmd).setPhase (.encNote (s.outCh.accepts Config.params.sizeOut))) := by
  simp [exec, execEncSend, encSend, h]

theorem exec_encSend_of_encNote {a0 : Bool} (h : s.fg.phase = .encNote a0) : exec (.encSend cmd note vel) s = .next
    ((s.pushOut Config.params (mask7 note)).setPhase (.encVel a0 (s.outCh.accepts Config.params.sizeOut))) := by
  simp [exec, execEncSend, encSend, h]

theorem exec_encSend_of_encVel {a0 a1 : Bool} (h : s.fg.phase = .encVel a0 a1) :
    exec (.encSend cmd note vel) s = .next ((s.pushOut Config.params (mask7 vel)).complete
      (acceptWord a0 a1 (s.outCh.accepts Config.params.sizeOut))) := by
  simp [exec, execEncSend, encSend, h]

end EncSend

/-- An enqueue attempt as ENC_SEND's turns make it (R114). -/
theorem encPush_of_push {s t : State} {b : Byte} (h : t.outCh = s.outCh.push Config.params.sizeOut b) :
    EncPush s t b (s.outCh.accepts Config.params.sizeOut) := by
  refine ⟨fun hfull => ?_, fun hroom => ?_⟩
  · obtain ⟨hpush, hrefused⟩ := Channel.push_of_full hfull b
    exact ⟨hrefused, h.trans hpush⟩
  · obtain ⟨hpush, haccepted⟩ := Channel.push_of_not_full hroom b
    rw [h]
    exact ⟨haccepted, by rw [hpush], by rw [hpush], by rw [hpush], Channel.push_byteAt hroom b⟩

theorem State.pushOut_unchangedBut (p : Params) (s : State) (b : Byte) : UnchangedBut [.outCh] s (s.pushOut p b) :=
  s.setChan_unchangedBut .outbound _

/-- Moving FG inside its command writes FG's position besides what the turn wrote. -/
theorem UnchangedBut.setPhase {parts : List Part} {s t : State} (h : UnchangedBut parts s t) (ph : Phase) :
    UnchangedBut (parts ++ [.fg]) s (t.setPhase ph) := by
  intro q hq
  obtain ⟨hparts, hfg⟩ : q ∉ parts ∧ q ≠ .fg := by simpa using hq
  have hsame := h q hparts
  cases q <;> simp_all [Part.Same]

/-- The accept bits in the response, as a number. -/
theorem acceptWord_toNat (a0 a1 a2 : Bool) : (acceptWord a0 a1 a2).toNat = a0.toNat + 2 * a1.toNat + 4 * a2.toNat := by
  revert a0 a1 a2; decide

/-- Settles O36: one enqueue attempt at each place inside the command. -/
theorem encSendPushesThreeBytes : Obligations.EncSendPushesThreeBytes := by
  intro cmd note vel s
  have hframe (b : Byte) := s.pushOut_unchangedBut Config.params b
  exact ⟨fun h => ⟨_, _, exec_encSend_of_idle cmd note vel h, (hframe _).setPhase _, rfl, encPush_of_push rfl⟩,
    fun a0 h => ⟨_, _, exec_encSend_of_encNote cmd note vel h, (hframe _).setPhase _, rfl, encPush_of_push rfl⟩,
    fun a0 a1 h => ⟨_, _, _, exec_encSend_of_encVel cmd note vel h, (hframe _).complete _, encPush_of_push rfl,
      .of_complete rfl rfl _, acceptWord_toNat ..⟩⟩

/-! ## The decoder mirrors the encoder (R150, R151) -/

/-- What ENC_SEND sends is one message: a command byte and two bytes masked to data bytes. -/
theorem decodesAsSent_of_isCmd {d : Decoder} {cmd : Byte} (hs : d.state = .awaitingCommand)
    (hc : isCmd Config.params cmd = true) (h : Handlers) (note vel : Byte) :
    DecodesAsSent d h cmd note vel [cmd, mask7 note, mask7 vel] := by
  rw [DecodesAsSent, feedBytes_message hs hc (isData_mask7 note), if_pos (isData_mask7 vel), noteRecords_eq]
  exact ⟨rfl, List.append_nil _⟩

/-- With a free slot an enqueue is accepted, and its byte is the youngest of the queue. -/
theorem Channel.InRange.push_of_count_lt {size : Nat} {c : Channel} (h : c.InRange size)
    (hfree : c.count size < size - 1) (b : Byte) : c.accepts size = true ∧
      (c.push size b).fifo size = c.fifo size ++ [b] ∧ (c.push size b).count size = c.count size + 1 := by
  have hroom : (c.wr + 1) % size ≠ c.rd := fun hfull => hfree.ne (h.succ_wr_eq_rd_iff.mp hfull)
  have hfifo := Channel.fifo_push h hroom b
  exact ⟨(Channel.push_of_not_full hroom b).2, hfifo, by simpa using congrArg List.length hfifo⟩

/-- Three turns with three slots free append the three bytes and complete with every accept bit set. -/
theorem executes_encSend_of_free {s : State} (cmd note vel : Byte) (hidle : s.fg.phase = .idle)
    (h : s.outCh.InRange Config.params.sizeOut)
    (hfree : s.outCh.count Config.params.sizeOut + 3 ≤ Config.params.cap .outbound) :
    ∃ t, Executes s (List.replicate 3 (.encSend cmd note vel)) t ∧
      t.outCh.fifo Config.params.sizeOut = s.outCh.fifo Config.params.sizeOut ++ [cmd, mask7 note, mask7 vel] ∧
      t.out.responses = s.out.responses ++ [⟨.ok, 7⟩] := by
  rw [Params.cap, Params.size] at hfree
  obtain ⟨hok0, hfifo0, hcount0⟩ := h.push_of_count_lt (by omega) cmd
  obtain ⟨hok1, hfifo1, hcount1⟩ := (h.push cmd).push_of_count_lt (by omega) (mask7 note)
  obtain ⟨hok2, hfifo2, -⟩ := ((h.push cmd).push (mask7 note)).push_of_count_lt (by omega) (mask7 vel)
  refine ⟨_, .next (exec_encSend_of_idle cmd note vel hidle) (.next (exec_encSend_of_encNote cmd note vel rfl)
    (.next (exec_encSend_of_encVel cmd note vel rfl) (.done _))), ?_, ?_⟩
  · simp [hfifo0, hfifo1, hfifo2]
  · simp [hok0, hok1, hok2, acceptWord, boolWord]

theorem Channel.InRange.empty_of_fifo_eq_nil {size : Nat} {c : Channel} (h : c.InRange size)
    (hnil : c.fifo size = []) : c.wr = c.rd :=
  h.count_eq_zero_iff.mp (by rw [← Channel.fifo_length, hnil, List.length_nil])

/-- `OUT` is in range and holds nothing. -/
structure State.OutEmpty (s : State) : Prop where
  inRange : s.outCh.InRange Config.params.sizeOut
  empty : s.outCh.wr = s.outCh.rd

/-- An empty `OUT` of any legal size has a free slot (R10). -/
theorem State.OutEmpty.count_lt {s : State} (h : s.OutEmpty) :
    s.outCh.count Config.params.sizeOut < Config.params.sizeOut - 1 := by
  obtain ⟨-, hk, -⟩ := Config.params_valid
  have hsize : 2 ^ 1 ≤ Config.params.sizeOut := Nat.pow_le_pow_right (by decide) hk
  have hzero := h.inRange.count_eq_zero_iff.mpr h.empty
  omega

theorem State.OutEmpty.accepts {s : State} (h : s.OutEmpty) : s.outCh.accepts Config.params.sizeOut = true :=
  (h.inRange.push_of_count_lt h.count_lt 0).1

/-- The byte that a turn enqueues into an empty `OUT` is handed to the transmitter by the transmit service that follows,
which leaves `OUT` empty again (R114, R122). -/
theorem State.OutEmpty.relay {s u : State} {i : Instr} {b : Byte} (h : s.OutEmpty) (hexec : exec i s = .next u)
    (hpush : u.outCh = s.outCh.push Config.params.sizeOut b) :
    ∃ t, (∀ {is v}, Executes t is v → Executes s (i :: .irqTx :: is) v) ∧ t.OutEmpty ∧
      t.out.txOut = u.out.txOut ++ [b] ∧ t.out.responses = u.out.responses ∧ t.fg = u.fg := by
  obtain ⟨-, hqueue, -⟩ := h.inRange.push_of_count_lt h.count_lt b
  have hrange := h.inRange.push b
  rw [← hpush] at hqueue hrange
  rw [h.inRange.fifo_eq_nil h.empty, List.nil_append] at hqueue
  have hdata : u.outCh.wr ≠ u.outCh.rd := fun hempty => by simp [hrange.fifo_eq_nil hempty] at hqueue
  obtain ⟨holdest, hrest⟩ := List.cons.inj ((Channel.fifo_pop hrange hdata).symm.trans hqueue)
  refine ⟨txBody Config.params u, fun hrun => .next hexec (.next rfl hrun), ?_⟩
  rw [txBody_of_nonempty hdata, holdest]
  exact ⟨⟨((hrange.tally _).pop).tally _, hrange.pop.empty_of_fifo_eq_nil hrest⟩, rfl, rfl, rfl⟩

/-- The three turns, each followed by a transmit service, hand the three bytes to the transmitter. -/
theorem executes_encSend_relayed {s : State} (cmd note vel : Byte) (hidle : s.fg.phase = .idle) (h : s.OutEmpty) :
    ∃ t, Executes s
        [.encSend cmd note vel, .irqTx, .encSend cmd note vel, .irqTx, .encSend cmd note vel, .irqTx] t ∧
      t.out.txOut = s.out.txOut ++ [cmd, mask7 note, mask7 vel] ∧ t.OutEmpty ∧
      t.out.responses = s.out.responses ++ [⟨.ok, 7⟩] := by
  obtain ⟨t0, run0, h0, htx0, hresp0, hfg0⟩ := h.relay (exec_encSend_of_idle cmd note vel hidle) rfl
  have hphase0 : t0.fg.phase = .encNote true := by rw [hfg0, h.accepts]; rfl
  obtain ⟨t1, run1, h1, htx1, hresp1, hfg1⟩ := h0.relay (exec_encSend_of_encNote cmd note vel hphase0) rfl
  have hphase1 : t1.fg.phase = .encVel true true := by rw [hfg1, h0.accepts]; rfl
  obtain ⟨t2, run2, h2, htx2, hresp2, -⟩ := h1.relay (exec_encSend_of_encVel cmd note vel hphase1) rfl
  refine ⟨t2, run0 (run1 (run2 (.done _))), ?_, h2, ?_⟩
  · simp [htx2, htx1, htx0]
  · simp [hresp2, hresp1, hresp0, h1.accepts, acceptWord, boolWord]

/-- Settles O40: both ways the bytes leave ENC_SEND, they are the one message that decodes as sent. -/
theorem decoderMirrorsEncoder : Obligations.DecoderMirrorsEncoder := by
  intro d h cmd note vel s hs hc hidle hrange
  have hdecodes := decodesAsSent_of_isCmd hs hc h note vel
  refine ⟨fun hfree => ?_, fun hempty => ?_⟩
  · obtain ⟨t, hrun, hfifo, hresponse⟩ := executes_encSend_of_free cmd note vel hidle hrange hfree
    exact ⟨t, _, hrun, hfifo, hresponse, hdecodes⟩
  · obtain ⟨t, hrun, htx, hout, hresponse⟩ := executes_encSend_relayed cmd note vel hidle ⟨hrange, hempty⟩
    exact ⟨t, _, hrun, htx, hout.empty, hresponse, hdecodes⟩

end Sys2Proof.Machine
end

section
/-! PROOFS. The debounced matrix scanner (spec/42_debounce_scanner.md R160 to R172): the debounce table read as a logical level
and a run length, what every run of samples confirms, and the two commands on the scanner. -/

namespace Sys2Proof.Machine

/-! ## The debounce table (R163 to R168) -/

theorem confirmDown_eq (nDown n : Nat) :
    confirmDown nDown n = if nDown ≤ n then (⟨.down, 0⟩, some .down) else (⟨.awaitingDown, BitVec.ofNat 5 n⟩, none) := by
  rcases confirmDown_cases nDown n with ⟨h, e⟩ | ⟨h, e⟩
  · rw [e, if_pos h]
  · rw [e, if_neg (Nat.not_le.mpr h)]

theorem confirmUp_eq (nUp n : Nat) :
    confirmUp nUp n = if nUp ≤ n then (⟨.up, 0⟩, some .up) else (⟨.awaitingUp, BitVec.ofNat 5 n⟩, none) := by
  rcases confirmUp_cases nUp n with ⟨h, e⟩ | ⟨h, e⟩
  · rw [e, if_pos h]
  · rw [e, if_neg (Nat.not_le.mpr h)]

theorem ofNat_toNat_succ (c : BitVec 5) : BitVec.ofNat 5 (c.toNat + 1) = c + 1 := by
  simp [BitVec.ofNat_add]

/-- Settles O41: six rows as they are written in the table, and the four that confirm. -/
theorem debounceFollowsItsTable : Obligations.DebounceFollowsItsTable := by
  intro nDown nUp c
  have hdown : keyNext nDown nUp ⟨.awaitingDown, c⟩ true = _ := confirmDown_eq nDown (c.toNat + 1)
  have hup : keyNext nDown nUp ⟨.awaitingUp, c⟩ false = _ := confirmUp_eq nUp (c.toNat + 1)
  rw [ofNat_toNat_succ] at hdown hup
  exact ⟨rfl, rfl, rfl, confirmDown_eq nDown 1, hdown, rfl, rfl, confirmUp_eq nUp 1, hup, rfl⟩

/-! ## The table on logical levels and run lengths (R171) -/

/-- What of a key decides the transitions it confirms: its logical level and its run length. -/
def Key.view (k : Key) : Option Bool × Nat := (k.level, k.runLength)

/-- The transition to a level, `true` = down. -/
def edgeTo (x : Bool) : Edge := if x then .down else .up

/-- The number of consecutive samples `x` that confirms level `x` (R163). -/
def thresholdOf (nDown nUp : Nat) (x : Bool) : Nat := if x then nDown else nUp

/-- One sample on a level and a run length: the first sample sets the level, an agreeing one ends the run, a disagreeing
one lengthens it or, at the threshold, changes the level. The run length is a 5-bit number (R30). -/
def viewNext (nDown nUp : Nat) (v : Option Bool × Nat) (x : Bool) : (Option Bool × Nat) × Option Edge :=
  match v with
  | (none, _) => ((some x, 0), none)
  | (some l, n) =>
    if x = l then ((some l, 0), none)
    else if thresholdOf nDown nUp x ≤ n + 1 then ((some x, 0), some (edgeTo x))
    else ((some l, (n + 1) % 2 ^ 5), none)

theorem confirmDown_view (nDown nUp n : Nat) :
    ((confirmDown nDown (n + 1)).1.view, (confirmDown nDown (n + 1)).2) = viewNext nDown nUp (some false, n) true := by
  rw [confirmDown_eq]
  by_cases h : nDown ≤ n + 1
  · simp [h, viewNext, thresholdOf, edgeTo, Key.view, Key.level, Key.runLength]
  · simp [h, viewNext, thresholdOf, Key.view, Key.level, Key.runLength]

theorem confirmUp_view (nDown nUp n : Nat) :
    ((confirmUp nUp (n + 1)).1.view, (confirmUp nUp (n + 1)).2) = viewNext nDown nUp (some true, n) false := by
  rw [confirmUp_eq]
  by_cases h : nUp ≤ n + 1
  · simp [h, viewNext, thresholdOf, edgeTo, Key.view, Key.level, Key.runLength]
  · simp [h, viewNext, thresholdOf, Key.view, Key.level, Key.runLength]

/-- Every table of R171 acts on the level and the run length in the one way of `viewNext`. -/
theorem keyNextOpen_view (restartDown flipUp : Bool) (nDown nUp : Nat) (k : Key) (x : Bool) :
    ((keyNextOpen restartDown flipUp nDown nUp k x).1.view, (keyNextOpen restartDown flipUp nDown nUp k x).2) =
      viewNext nDown nUp k.view x := by
  obtain ⟨st, c⟩ := k
  cases st with
  | unknown => cases x <;> rfl
  | up =>
    cases x with
    | false => rfl
    | true => exact confirmDown_view nDown nUp 0
  | awaitingDown =>
    cases x with
    | false => cases restartDown <;> rfl
    | true => exact confirmDown_view nDown nUp c.toNat
  | down =>
    cases x with
    | false => exact confirmUp_view nDown nUp 0
    | true => rfl
  | awaitingUp =>
    cases x with
    | false => exact confirmUp_view nDown nUp c.toNat
    | true => cases flipUp <;> rfl

/-- The model's table is the one that flips back in AwaitingDown and restarts the count in AwaitingUp. -/
theorem keyNextOpen_false_false (nDown nUp : Nat) : keyNextOpen false false nDown nUp = keyNext nDown nUp := by
  funext k x
  obtain ⟨st, c⟩ := k
  cases st <;> cases x <;> rfl

theorem keyNext_view (nDown nUp : Nat) (k : Key) (x : Bool) :
    ((keyNext nDown nUp k x).1.view, (keyNext nDown nUp k x).2) = viewNext nDown nUp k.view x := by
  rw [← keyNextOpen_false_false]
  exact keyNextOpen_view false false nDown nUp k x

/-- Two tables that act alike on views confirm the same transitions and end with the same view, from keys of one view. -/
theorem feedSamples_congr_of_view {f g : Key → Bool → Key × Option Edge}
    {next : Option Bool × Nat → Bool → (Option Bool × Nat) × Option Edge}
    (hf : ∀ k x, ((f k x).1.view, (f k x).2) = next k.view x) (hg : ∀ k x, ((g k x).1.view, (g k x).2) = next k.view x)
    (xs : List Bool) {k k' : Key} (hview : k.view = k'.view) :
    (feedSamples f k xs).2 = (feedSamples g k' xs).2 ∧ (feedSamples f k xs).1.view = (feedSamples g k' xs).1.view := by
  induction xs generalizing k k' with
  | nil => exact ⟨rfl, hview⟩
  | cons x xs ih =>
    have hstep : ((f k x).1.view, (f k x).2) = ((g k' x).1.view, (g k' x).2) := by rw [hf, hg, hview]
    obtain ⟨hnext, hedge⟩ := Prod.mk.inj hstep
    obtain ⟨hedges, hfinal⟩ := ih hnext
    exact ⟨by rw [feedSamples, feedSamples, hedge, hedges], hfinal⟩

/-- Settles O47: the four tables act alike on views. -/
theorem openDebounceChoicesAreInvisible : Obligations.OpenDebounceChoicesAreInvisible := by
  intro restartDown flipUp nDown nUp k xs
  obtain ⟨hedges, hview⟩ := feedSamples_congr_of_view (keyNextOpen_view restartDown flipUp nDown nUp)
    (keyNext_view nDown nUp) xs (rfl : k.view = k.view)
  obtain ⟨hlevel, hrun⟩ := Prod.mk.inj hview
  exact ⟨hedges, hlevel, hrun⟩

/-! ## One sample of the model's table, by how it stands to the level (R164 to R168) -/

section Samples

variable {nDown nUp : Nat} {k : Key} {l : Bool}

/-- The first sample is no transition (R164). -/
theorem keyNext_of_unobserved (nDown nUp : Nat) (hk : k.level = none) (x : Bool) :
    (keyNext nDown nUp k x).1.level = some x ∧ (keyNext nDown nUp k x).2 = none := by
  have h := keyNext_view nDown nUp k x
  simp only [Key.view, hk, viewNext, Prod.mk.injEq] at h
  obtain ⟨⟨hlevel, -⟩, hedge⟩ := h
  exact ⟨hlevel, hedge⟩

theorem keyNext_of_agreeing (nDown nUp : Nat) (hk : k.level = some l) :
    (keyNext nDown nUp k l).1.view = (some l, 0) ∧ (keyNext nDown nUp k l).2 = none := by
  have h := keyNext_view nDown nUp k l
  simpa [Key.view, hk, viewNext] using h

theorem keyNext_of_confirming (hk : k.level = some l) (hn : thresholdOf nDown nUp (!l) ≤ k.runLength + 1) :
    (keyNext nDown nUp k (!l)).1.view = (some (!l), 0) ∧ (keyNext nDown nUp k (!l)).2 = some (edgeTo (!l)) := by
  have h := keyNext_view nDown nUp k (!l)
  simpa [Key.view, hk, viewNext, hn] using h

theorem keyNext_of_counting (hk : k.level = some l) (hn : k.runLength + 1 < thresholdOf nDown nUp (!l)) :
    (keyNext nDown nUp k (!l)).1.view = (some l, (k.runLength + 1) % 2 ^ 5) ∧ (keyNext nDown nUp k (!l)).2 = none := by
  have h := keyNext_view nDown nUp k (!l)
  simpa [Key.view, hk, viewNext, Nat.not_le.mpr hn] using h

end Samples

/-! ## Runs of samples (R172) -/

theorem Key.level_eq_of_view {k : Key} {v : Option Bool} {n : Nat} (h : k.view = (v, n)) : k.level = v :=
  congrArg Prod.fst h

theorem Key.runLength_eq_of_view {k : Key} {v : Option Bool} {n : Nat} (h : k.view = (v, n)) : k.runLength = n :=
  congrArg Prod.snd h

section Runs

variable {nDown nUp : Nat} {l : Bool}

/-- Samples that agree with the level confirm nothing. -/
theorem feedSamples_agreeing (m : Nat) {k : Key} (hk : k.level = some l) :
    (feedSamples (keyNext nDown nUp) k (List.replicate m l)).2 = [] := by
  induction m generalizing k with
  | zero => rfl
  | succ m ih =>
    obtain ⟨hview, hedge⟩ := keyNext_of_agreeing nDown nUp hk
    rw [List.replicate_succ, feedSamples, hedge, ih (Key.level_eq_of_view hview)]
    rfl

/-- Fewer disagreeing samples than the threshold are counted and confirm nothing; a 5-bit count is wide enough for them. -/
theorem feedSamples_counting (hthreshold : thresholdOf nDown nUp (!l) ≤ 31) (m : Nat) {k : Key} (hk : k.level = some l)
    (hn : k.runLength + m < thresholdOf nDown nUp (!l)) :
    (feedSamples (keyNext nDown nUp) k (List.replicate m (!l))).1.view = (some l, k.runLength + m) ∧
      (feedSamples (keyNext nDown nUp) k (List.replicate m (!l))).2 = [] := by
  induction m generalizing k with
  | zero => exact ⟨by rw [← hk]; rfl, rfl⟩
  | succ m ih =>
    obtain ⟨hview, hedge⟩ := keyNext_of_counting (nDown := nDown) (nUp := nUp) hk (by omega)
    rw [Nat.mod_eq_of_lt (by omega)] at hview
    have hcount := Key.runLength_eq_of_view hview
    obtain ⟨hfinal, hedges⟩ := ih (Key.level_eq_of_view hview) (by omega)
    rw [List.replicate_succ, feedSamples, hedge, hedges]
    exact ⟨by rw [hfinal, hcount, Nat.add_right_comm, Nat.add_assoc], rfl⟩

/-- A run of disagreeing samples confirms one transition when it reaches the threshold: it is counted to one short of it,
confirmed, and agrees with the new level from then on. -/
theorem feedSamples_disagreeing (hpos : 1 ≤ thresholdOf nDown nUp (!l)) (hthreshold : thresholdOf nDown nUp (!l) ≤ 31)
    (m : Nat) {k : Key} (hk : k.view = (some l, 0)) :
    (feedSamples (keyNext nDown nUp) k (List.replicate m (!l))).2 =
      if thresholdOf nDown nUp (!l) ≤ m then [edgeTo (!l)] else [] := by
  have hlevel := Key.level_eq_of_view hk
  have hzero := Key.runLength_eq_of_view hk
  by_cases hm : thresholdOf nDown nUp (!l) ≤ m
  · obtain ⟨j, rfl⟩ : ∃ j, m = (thresholdOf nDown nUp (!l) - 1) + (j + 1) :=
      ⟨m - thresholdOf nDown nUp (!l), by omega⟩
    obtain ⟨hcounted, hsilent⟩ :=
      feedSamples_counting hthreshold (thresholdOf nDown nUp (!l) - 1) hlevel (by omega)
    obtain ⟨hnew, hedge⟩ := keyNext_of_confirming (nDown := nDown) (nUp := nUp) (Key.level_eq_of_view hcounted)
      (by rw [Key.runLength_eq_of_view hcounted]; omega)
    rw [if_pos hm, List.replicate_add, List.replicate_succ, feedSamples_append, hsilent, feedSamples, hedge,
      feedSamples_agreeing j (Key.level_eq_of_view hnew)]
    rfl
  · rw [if_neg hm]
    exact (feedSamples_counting hthreshold m hlevel (by omega)).2

end Runs

/-- Settles O44: down samples disagree with Up. -/
theorem pressConfirmsExactlyOnce : Obligations.PressConfirmsExactlyOnce :=
  fun _ _ m hpos hle => feedSamples_disagreeing (l := false) hpos hle m rfl

/-- Settles O45: the up samples are only counted, and the down sample ends their run. -/
theorem shortReleaseIsSilent : Obligations.ShortReleaseIsSilent := by
  intro nDown nUp m hle hm
  obtain ⟨hcounted, hsilent⟩ := feedSamples_counting (nDown := nDown) (nUp := nUp) (l := true) hle m
    (k := ⟨.down, 0⟩) rfl (show 0 + m < nUp by omega)
  obtain ⟨hview, hedge⟩ := keyNext_of_agreeing nDown nUp (Key.level_eq_of_view hcounted)
  rw [Bool.not_true] at hview hedge hsilent
  rw [feedSamples_append, hsilent, feedSamples, feedSamples, hedge]
  exact ⟨rfl, Key.level_eq_of_view hview, Key.runLength_eq_of_view hview⟩

/-! ## Transitions alternate (R172 (c)) -/

/-- The transitions leave the levels `l`, not `l`, `l`, ... in turn. -/
def AlternatesFrom : Bool → List Edge → Prop
  | _, [] => True
  | l, e :: es => e = edgeTo (!l) ∧ AlternatesFrom (!l) es

theorem edgeTo_not (l : Bool) : edgeTo (!l) = if l then .up else .down := by cases l <;> rfl

theorem edgeTo_ne_not (l : Bool) : edgeTo l ≠ edgeTo (!l) := by cases l <;> decide

theorem AlternatesFrom.head {l : Bool} {es : List Edge} (h : AlternatesFrom l es) {e : Edge} {rest : List Edge}
    (hcons : es = e :: rest) : e = edgeTo (!l) := by
  subst hcons
  obtain ⟨hfirst, -⟩ := h
  exact hfirst

theorem AlternatesFrom.alternating : ∀ {l : Bool} {es : List Edge}, AlternatesFrom l es → Alternating es
  | _, [], _ => trivial
  | _, [_], _ => trivial
  | l, _ :: _ :: _, ⟨hfirst, hrest⟩ => by
    refine ⟨?_, hrest.alternating⟩
    rw [hfirst, hrest.head rfl]
    exact edgeTo_ne_not (!l)

/-- Each confirmed transition leaves the level before it, and no other sample changes the level. -/
theorem feedSamples_alternatesFrom (nDown nUp : Nat) (xs : List Bool) {k : Key} {l : Bool}
    (hk : k.level = some l) : AlternatesFrom l (feedSamples (keyNext nDown nUp) k xs).2 := by
  induction xs generalizing k l with
  | nil => trivial
  | cons x xs ih =>
    rw [feedSamples]
    by_cases hx : x = l
    · subst hx
      obtain ⟨hview, hedge⟩ := keyNext_of_agreeing nDown nUp hk
      rw [hedge]
      exact ih (Key.level_eq_of_view hview)
    · obtain rfl : x = !l := Bool.eq_not_of_ne hx
      by_cases hn : thresholdOf nDown nUp (!l) ≤ k.runLength + 1
      · obtain ⟨hview, hedge⟩ := keyNext_of_confirming hk hn
        rw [hedge]
        exact ⟨rfl, ih (Key.level_eq_of_view hview)⟩
      · obtain ⟨hview, hedge⟩ := keyNext_of_counting hk (Nat.not_le.mp hn)
        rw [hedge]
        exact ih (Key.level_eq_of_view hview)

/-- Settles O46: the first sample confirms nothing and sets the level that the transitions leave in turn. -/
theorem transitionsAlternate : Obligations.TransitionsAlternate := by
  intro nDown nUp x xs
  obtain ⟨hlevel, hsilent⟩ := keyNext_of_unobserved nDown nUp (k := ⟨.unknown, 0⟩) rfl x
  have halt := feedSamples_alternatesFrom nDown nUp xs hlevel
  rw [feedSamples, hsilent]
  exact ⟨halt.alternating, fun e rest hcons => (halt.head hcons).trans (edgeTo_not x)⟩

/-! ## SCAN_INIT and SCAN_TICK (R161, R162) -/

theorem UnchangedBut.mono {parts more : List Part} {s t : State} (h : UnchangedBut parts s t) (hsub : parts ⊆ more) :
    UnchangedBut more s t :=
  fun q hq => h q fun hmem => hq (hsub hmem)

theorem State.scan_unchangedBut (s : State) (k : Scanner) (rs : List FgRecord) :
    UnchangedBut [.scan, .fgOut] s { s with scan := k, out := { s.out with fgOut := rs } } := by
  intro q hq
  cases q <;> simp_all [Part.Same]

theorem State.afterColsDraw_unchangedBut (s : State) : UnchangedBut [.env] s s.afterColsDraw := by
  intro q hq
  cases q <;> simp_all [Part.Same]

theorem UnchangedBut.trans {parts more : List Part} {s t u : State} (h : UnchangedBut parts s t)
    (h' : UnchangedBut more t u) : UnchangedBut (parts ++ more) s u := by
  intro q hq
  obtain ⟨hparts, hmore⟩ : q ∉ parts ∧ q ∉ more := by simpa using hq
  have hfirst := h q hparts
  have hsecond := h' q hmore
  cases q <;> exact hsecond.trans hfirst

/-- A command that has written no response and left FG in place completes with one response. -/
theorem UnchangedBut.completed {parts : List Part} {s t : State} (h : UnchangedBut parts s t)
    (hresponses : .responses ∉ parts) (hfg : .fg ∉ parts) (x : Word) : Completed s (t.complete x) x := by
  have hsame : t.out.responses = s.out.responses := h .responses hresponses
  have hplace : t.fg = s.fg := h .fg hfg
  simp [Completed, hsame, hplace]

/-- Settles O43: row 0 is selected with every input zeroed, and the command completes with 0. -/
theorem scanInitRestoresTheScanner : Obligations.ScanInitRestoresTheScanner := by
  intro s
  have hframe := s.scan_unchangedBut ⟨0, Memory.clear Config.params.keys s.scan.key⟩ (s.out.fgOut ++ [.rowSelect 0])
  refine ⟨_, rfl, hframe.completed (by decide) (by decide) 0, hframe.complete 0, rfl, rfl, fun i hi => ?_, fun i hi => ?_⟩
  · exact (Memory.read_clear ..).trans (if_pos hi)
  · exact (Memory.read_clear ..).trans (if_neg (Nat.not_lt.mpr hi))

theorem State.tick_unchangedBut (p : Params) (s : State) (cols : Word) :
    UnchangedBut [.scan, .fgOut] s (s.tick p cols) := by
  obtain ⟨k, rs, e⟩ := s.tick_frame p cols
  rw [e]
  exact s.scan_unchangedBut k rs

/-- A tick selects and records the next row, then advances the inputs of the row selected on entry, each by its bit. -/
theorem State.tick_spec (p : Params) (s : State) (cols : Word) : ∃ ks : Memory Key,
    s.tick p cols = { s with
      scan := ⟨(s.scan.row + 1) % p.rows, ks⟩
      out := { s.out with
        fgOut := s.out.fgOut ++ .rowSelect ((s.scan.row + 1) % p.rows) :: (List.range p.cols).flatMap fun c =>
          edgeRecords s.hnd (flatIndex p s.scan.row c)
            (keyNext p.nDown p.nUp (s.scan.keyAt (flatIndex p s.scan.row c)) (sampleBit cols c)).2 } } ∧
    (∀ c, c < p.cols → Memory.read Key.zero ks (flatIndex p s.scan.row c) =
      (keyNext p.nDown p.nUp (s.scan.keyAt (flatIndex p s.scan.row c)) (sampleBit cols c)).1) ∧
    ∀ j, (∀ c, c < p.cols → j ≠ flatIndex p s.scan.row c) → Memory.read Key.zero ks j = s.scan.keyAt j := by
  obtain ⟨ks, e, hrow, hother, -⟩ :=
    (s.selectRow ((s.scan.row + 1) % p.rows)).updateCols_spec p s.scan.row cols p.cols
  refine ⟨ks, ?_, hrow, hother⟩
  rw [State.tick, State.updateRow, e, List.append_cons]
  rfl

/-- Settles O42: the draw uses up the sample, the tick does the rest, and the command completes with 0. -/
theorem scanTickSamplesTheEntryRow : Obligations.ScanTickSamplesTheEntryRow := by
  intro s
  obtain ⟨ks, e, hrow, hother⟩ := s.afterColsDraw.tick_spec Config.params s.colsDraw
  have hframe := s.afterColsDraw_unchangedBut.trans (s.afterColsDraw.tick_unchangedBut Config.params s.colsDraw)
  simp only [State.afterColsDraw_scan, State.afterColsDraw_hnd, State.afterColsDraw_out] at e hrow hother
  refine ⟨_, rfl, hframe.completed (by decide) (by decide) 0, (hframe.complete 0).mono (by decide), ?_⟩
  rw [e]
  exact ⟨rfl, rfl, hrow, hother, rfl⟩

end Sys2Proof.Machine
end

section
/-! PROOFS. The actuator frame store (spec/43_frame_store.md R190 to R197): what each command and the flush do, the
dirty mark as the largest position mutated, and the strip behind the store. -/

namespace Sys2Proof.Machine

/-! ## The commands on the frame store (R191 to R194) -/

theorem State.setFs_unchangedBut (s : State) (f : FrameStore) : UnchangedBut [.fs] s (s.setFs f) := by
  intro q hq
  cases q <;> simp_all [Part.Same]

/-- What every command that writes the frame store does besides: it completes with 0 and writes nothing else. -/
theorem State.setFs_complete_spec (s : State) (f : FrameStore) :
    Completed s ((s.setFs f).complete 0) 0 ∧ UnchangedBut [.fs, .responses, .fg] s ((s.setFs f).complete 0) :=
  ⟨.of_complete rfl rfl 0, (s.setFs_unchangedBut f).complete 0⟩

theorem ledInRange_of_lt {p : Params} {idx : Half} (h : idx.toNat < p.nLeds) : p.ledInRange idx = true :=
  decide_eq_true h

theorem ledInRange_of_le {p : Params} {idx : Half} (h : p.nLeds ≤ idx.toNat) : p.ledInRange idx = false :=
  decide_eq_false (Nat.not_lt.mpr h)

theorem exec_fsSet_of_lt {idx : Half} (h : idx.toNat < Config.params.nLeds) (c : Colour) (s : State) :
    exec (.fsSet idx c.c0 c.c1 c.c2) s = .next ((s.setFs (s.fs.set idx.toNat c)).complete 0) := by
  simp [exec, execFsSet, fsSet, ledInRange_of_lt h]

theorem exec_fsSet_of_le {idx : Half} (h : Config.params.nLeds ≤ idx.toNat) (c : Colour) (s : State) :
    exec (.fsSet idx c.c0 c.c1 c.c2) s = .next (s.complete 0) := by
  simp only [exec, execFsSet, fsSet, ledInRange_of_le h]
  rfl

/-- Settles O49: in range a position is written and the mark raised, out of range the command only completes. -/
theorem fsSetWritesAndRaisesTheMark : Obligations.FsSetWritesAndRaisesTheMark := by
  intro idx c0 c1 c2 s
  rcases Nat.lt_or_ge idx.toNat Config.params.nLeds with hlt | hle
  · obtain ⟨hdone, hframe⟩ := s.setFs_complete_spec (s.fs.set idx.toNat ⟨c0, c1, c2⟩)
    refine ⟨_, exec_fsSet_of_lt hlt ⟨c0, c1, c2⟩ s, hdone, hframe, fun hle => absurd hlt (Nat.not_lt.mpr hle),
      fun _ => ⟨s.fs.set_ledAt _ _, fun hnone => ?_, fun d hd => ?_⟩⟩
    · rw [State.complete_fs, State.setFs_fs, FrameStore.set_dirty, hnone, raiseDirty_none]
    · rw [State.complete_fs, State.setFs_fs, FrameStore.set_dirty, hd, raiseDirty_some]
  · obtain ⟨hdone, hframe⟩ := s.setFs_complete_spec s.fs
    exact ⟨_, exec_fsSet_of_le hle ⟨c0, c1, c2⟩ s, hdone, hframe, fun _ => rfl,
      fun hlt => absurd hlt (Nat.not_lt.mpr hle)⟩

/-- Blackening the store with a new mark, which is FS_INIT and FS_CLR but for the mark (R191, R193). -/
theorem State.clearLeds_complete_spec (s : State) (n : Nat) (dirty : Option Nat) :
    let t := (s.setFs ⟨Memory.clear n s.fs.led, dirty⟩).complete 0
    Completed s t 0 ∧ UnchangedBut [.fs, .responses, .fg] s t ∧ t.fs.dirty = dirty ∧
      (∀ i, i < n → t.fs.ledAt i = ⟨0, 0, 0⟩) ∧ ∀ i, n ≤ i → t.fs.ledAt i = s.fs.ledAt i := by
  obtain ⟨hdone, hframe⟩ := s.setFs_complete_spec ⟨Memory.clear n s.fs.led, dirty⟩
  refine ⟨hdone, hframe, rfl, fun i hi => ?_, fun i hi => ?_⟩
  · exact (s.fs.clear_ledAt n dirty i).trans (if_pos hi)
  · exact (s.fs.clear_ledAt n dirty i).trans (if_neg (Nat.not_lt.mpr hi))

/-- Settles O50: the store is blackened with the mark at its last position. -/
theorem fsClrBlackensAndMarksAll : Obligations.FsClrBlackensAndMarksAll :=
  fun s => ⟨_, rfl, s.clearLeds_complete_spec _ _⟩

/-- Settles O51: the store is blackened with nothing marked. -/
theorem fsInitBlackensAndMarksNone : Obligations.FsInitBlackensAndMarksNone :=
  fun s => ⟨_, rfl, s.clearLeds_complete_spec _ _⟩

/-- Settles O52: the command completes with the stored colour's word, or 0, and has written nothing. -/
theorem fsGetReturnsTheStoredColour : Obligations.FsGetReturnsTheStoredColour := by
  intro idx s
  refine ⟨_, _, rfl, .of_complete rfl rfl _, (UnchangedBut.refl s).complete _, fun hle => ?_, fun hlt => ?_⟩
  · rw [ledInRange_of_le hle, if_neg Bool.false_ne_true]
  · rw [ledInRange_of_lt hlt, if_pos rfl, Colour.toWord_toNat]

/-! ## IRQ_FLUSH (R195) -/

theorem FrameStore.flushBytes_of_none {f : FrameStore} (h : f.dirty = none) : f.flushBytes = [] := by
  simp [FrameStore.flushBytes, h]

theorem FrameStore.flushBytes_of_some {f : FrameStore} {d : Nat} (h : f.dirty = some d) :
    f.flushBytes = (List.range (d + 1)).flatMap fun i => (f.ledAt i).components := by
  simp [FrameStore.flushBytes, h]

/-- A flush sends the positions up to the mark, each with its components in its place. -/
theorem FrameStore.flushBytes_prefixBytes {f : FrameStore} {d : Nat} (h : f.dirty = some d) :
    PrefixBytes f d f.flushBytes := by
  rw [FrameStore.flushBytes_of_some h]
  exact ⟨flatMap_components_length .., fun i hi => flatMap_components_getElem? _ _ i (Nat.lt_succ_of_le hi)⟩

theorem exec_irqFlush (s : State) : exec .irqFlush s = .next (flushBody s) := rfl

@[simp] theorem flushBody_fs (s : State) : (flushBody s).fs = { s.fs with dirty := none } := rfl

@[simp] theorem flushBody_ledOut (s : State) : (flushBody s).out.ledOut = s.out.ledOut ++ s.fs.flushBytes := rfl

theorem flushBody_unchangedBut (s : State) : UnchangedBut [.fs, .ledOut] s (flushBody s) := by
  intro q hq
  cases q <;> simp_all [Part.Same, flushBody, State.emitLed]

/-- Settles O53: the bytes a flush sends are none, or those of the positions up to the mark. -/
theorem flushSendsTheDirtyPrefix : Obligations.FlushSendsTheDirtyPrefix := by
  intro s
  refine ⟨_, exec_irqFlush s, flushBody_unchangedBut s, rfl, rfl, fun hnone => ?_, fun d hd => ?_⟩
  · rw [flushBody_ledOut, FrameStore.flushBytes_of_none hnone, List.append_nil]
  · exact ⟨_, flushBody_ledOut s, FrameStore.flushBytes_prefixBytes hd⟩

/-! ## What a flush sends after FS_SET and after FS_CLR (R197) -/

/-- A store that is black up to its mark, with a colour then written to position 0, flushes the colour and zeros. -/
theorem FrameStore.flushBytes_set_zero_of_black {f : FrameStore} {d : Nat} (h : f.dirty = some d)
    (hblack : ∀ i, i ≤ d → f.ledAt i = Colour.zero) (c : Colour) :
    (f.set 0 c).flushBytes = c.components ++ List.replicate (3 * d) 0 := by
  have hmark : (f.set 0 c).dirty = some d := by rw [FrameStore.set_dirty, h, raiseDirty_some, Nat.max_zero]
  rw [FrameStore.flushBytes_of_some hmark, List.range_succ_eq_map, List.flatMap_cons, List.flatMap_map,
    FrameStore.set_ledAt, if_pos rfl]
  congr 1
  refine List.eq_replicate_iff.mpr ⟨flatMap_components_length (fun i => (f.set 0 c).ledAt (i + 1)) d, fun b hb => ?_⟩
  obtain ⟨i, hi, hb⟩ := List.mem_flatMap.mp hb
  rw [FrameStore.set_ledAt, if_neg i.succ_ne_zero, hblack (i + 1) (List.mem_range.mp hi)] at hb
  simpa [Colour.components, Colour.zero] using hb

/-- Settles O54: (a) the mark is the position written; (b) the mark stays at the last position and all between is black. -/
theorem flushFollowsThePrefixPolicy : Obligations.FlushFollowsThePrefixPolicy := by
  refine ⟨fun s k c hnone hk => ?_, fun s c => ?_⟩
  · have hmark : (s.fs.set k.toNat c).dirty = some k.toNat := by rw [FrameStore.set_dirty, hnone, raiseDirty_none]
    exact ⟨_, _, _, exec_fsSet_of_lt hk c s, exec_irqFlush _, rfl, FrameStore.flushBytes_prefixBytes hmark,
      (s.fs.set_ledAt ..).trans (if_pos rfl)⟩
  · obtain ⟨-, -, hdirty, hzero, -⟩ :=
      s.clearLeds_complete_spec Config.params.nLeds (some (Config.params.nLeds - 1))
    have hlast := Config.params_valid.lastLed_lt
    have hzeroLt : (0 : Half).toNat < Config.params.nLeds := Nat.zero_lt_of_lt hlast
    exact ⟨_, _, _, _, rfl, exec_fsSet_of_lt hzeroLt c _, exec_irqFlush _, rfl,
      FrameStore.flushBytes_set_zero_of_black hdirty (fun i hi => hzero i (Nat.lt_of_le_of_lt hi hlast)) c⟩

/-! ## The mark and the positions mutated (R196) -/

/-- The mark is the largest of a set of positions, NONE when the set is empty. -/
def MarksLargest (positions : Set Nat) : Option Nat → Prop
  | none => positions = ∅
  | some d => IsGreatest positions d

/-- Raising the mark to a new position is adding the position to those mutated. -/
theorem MarksLargest.raise {positions : Set Nat} {dirty : Option Nat} (h : MarksLargest positions dirty) (i : Nat) :
    MarksLargest (positions ∪ {i}) (raiseDirty dirty i) := by
  cases dirty with
  | none =>
    have hempty : positions = ∅ := h
    rw [hempty, Set.empty_union]
    exact isGreatest_singleton
  | some d =>
    rw [raiseDirty_some]
    exact IsGreatest.union h isGreatest_singleton

/-- The positions that some of a list of operations mutates. -/
def mutated (p : Params) (ops : List FrameOp) : Set Nat := {i | ∃ op ∈ ops, op.Touches p i}

theorem mutated_nil (p : Params) : mutated p [] = ∅ := by simp [mutated]

theorem mutated_cons (p : Params) (op : FrameOp) (ops : List FrameOp) :
    mutated p (op :: ops) = {i | op.Touches p i} ∪ mutated p ops := by
  ext i
  simp [mutated]

theorem FrameOp.Touches.lt {p : Params} {i : Nat} {op : FrameOp} (h : op.Touches p i) : i < p.nLeds := by
  cases op with
  | set idx c => exact And.right h
  | clr => exact h

/-- A mutation keeps the mark at the largest position mutated, all of them being positions of the store. -/
theorem exec_frameOp_marksLargest (op : FrameOp) {s : State} {before : Set Nat}
    (hbefore : ∀ i ∈ before, i < Config.params.nLeds) (h : MarksLargest before s.fs.dirty) :
    ∃ t, exec op.instr s = .next t ∧ MarksLargest (before ∪ {i | op.Touches Config.params i}) t.fs.dirty := by
  cases op with
  | clr =>
    have hall : before ∪ {i | FrameOp.clr.Touches Config.params i} = {i | i < Config.params.nLeds} :=
      Set.union_eq_right.mpr hbefore
    refine ⟨_, rfl, ?_⟩
    rw [hall]
    exact ⟨Config.params_valid.lastLed_lt, fun i hi => Nat.le_sub_one_of_lt hi⟩
  | set idx c =>
    rcases Nat.lt_or_ge idx.toNat Config.params.nLeds with hlt | hle
    · have hone : {i | (FrameOp.set idx c).Touches Config.params i} = {idx.toNat} := by
        ext i
        exact ⟨fun hi => hi.1.symm, fun hi => ⟨hi.symm, hi ▸ hlt⟩⟩
      exact ⟨_, exec_fsSet_of_lt hlt c s, hone ▸ h.raise idx.toNat⟩
    · have hnone : {i | (FrameOp.set idx c).Touches Config.params i} = ∅ :=
        Set.eq_empty_of_forall_notMem fun i hi => Nat.not_lt.mpr hle (hi.1 ▸ hi.2)
      exact ⟨_, exec_fsSet_of_le hle c s, by rwa [hnone, Set.union_empty]⟩

/-- The same for a sequence of mutations, by induction on it with the positions mutated before it. -/
theorem executes_frameOps_marksLargest (ops : List FrameOp) {s : State} {before : Set Nat}
    (hbefore : ∀ i ∈ before, i < Config.params.nLeds) (h : MarksLargest before s.fs.dirty) :
    ∃ t, Executes s (ops.map FrameOp.instr) t ∧ MarksLargest (before ∪ mutated Config.params ops) t.fs.dirty := by
  induction ops generalizing s before with
  | nil => exact ⟨s, .done s, by rwa [mutated_nil, Set.union_empty]⟩
  | cons op ops ih =>
    obtain ⟨t, hexec, hmark⟩ := exec_frameOp_marksLargest op hbefore h
    obtain ⟨u, hrest, hlargest⟩ := ih (fun i hi => hi.elim (hbefore i) FrameOp.Touches.lt) hmark
    exact ⟨u, .next hexec hrest, by rwa [mutated_cons, ← Set.union_assoc]⟩

/-- Settles O55: nothing is mutated at first, and the mark is the largest of the positions the sequence mutates. -/
theorem dirtyMarkIsTheLargestMutatedIndex : Obligations.DirtyMarkIsTheLargestMutatedIndex := by
  intro s ops hnone
  have hstart : MarksLargest ∅ s.fs.dirty := by rw [hnone]; rfl
  obtain ⟨t, hrun, hmark⟩ := executes_frameOps_marksLargest ops (fun i hi => absurd hi (Set.notMem_empty i)) hstart
  rw [Set.empty_union] at hmark
  refine ⟨t, hrun, ?_⟩
  cases hdirty : t.fs.dirty with
  | none =>
    rw [hdirty] at hmark
    have hempty : mutated Config.params ops = ∅ := hmark
    exact ⟨iff_of_true rfl fun op hop i hi => (hempty ▸ ⟨op, hop, hi⟩ : i ∈ (∅ : Set Nat)), nofun⟩
  | some d =>
    rw [hdirty] at hmark
    obtain ⟨⟨op, hop, htouch⟩, hlargest⟩ : IsGreatest (mutated Config.params ops) d := hmark
    refine ⟨iff_of_false nofun fun hnever => hnever op hop d htouch, fun e he => ?_⟩
    cases he
    exact ⟨⟨op, hop, htouch⟩, fun op' hop' i hi => hlargest ⟨op', hop', hi⟩⟩

/-! ## What an operation does to the frame store (R191 to R195) -/

/-- Everything an operation can make of the frame store. -/
inductive FrameStore.StepTo (f : FrameStore) (p : Params) : Instr → FrameStore → Prop where
  | kept {i : Instr} (hi : i ≠ .irqFlush) : FrameStore.StepTo f p i f
  | init : FrameStore.StepTo f p .fsInit ⟨Memory.clear p.nLeds f.led, none⟩
  | set {idx : Half} (hidx : idx.toNat < p.nLeds) (c : Colour) :
    FrameStore.StepTo f p (.fsSet idx c.c0 c.c1 c.c2) (f.set idx.toNat c)
  | clr : FrameStore.StepTo f p .fsClr ⟨Memory.clear p.nLeds f.led, some (p.nLeds - 1)⟩
  | flush : FrameStore.StepTo f p .irqFlush { f with dirty := none }

theorem FrameStore.StepTo.of_eq {f g : FrameStore} {p : Params} {i : Instr} (h : g = f) (hi : i ≠ .irqFlush) :
    f.StepTo p i g :=
  h ▸ .kept hi

theorem State.delayStep_fs (p : Params) (s : State) (poll : Bool) (left : Nat) :
    (s.delayStep p poll left).fs = s.fs := by
  obtain ⟨-, -, -, hbody, -⟩ := s.delayBody_frame p poll
  rcases s.delayStep_cases p poll left with ⟨-, e⟩ | ⟨-, e⟩ | ⟨n, -, e⟩ <;> rw [e]
  · rfl
  · exact hbody
  · exact hbody

/-- Every operation answers a state with one of these frame stores; only four operations write it (R191 to R195). -/
theorem exec_fsStepTo (i : Instr) (s : State) : ∃ t, exec i s = .next t ∧ s.fs.StepTo Config.params i t.fs := by
  cases i with
  | fsInit => exact ⟨_, rfl, .init⟩
  | fsSet idx c0 c1 c2 =>
    rcases Nat.lt_or_ge idx.toNat Config.params.nLeds with hlt | hle
    · exact ⟨_, exec_fsSet_of_lt hlt ⟨c0, c1, c2⟩ s, .set hlt ⟨c0, c1, c2⟩⟩
    · exact ⟨_, exec_fsSet_of_le hle ⟨c0, c1, c2⟩ s, .kept nofun⟩
  | fsClr => exact ⟨_, rfl, .clr⟩
  | irqFlush => exact ⟨_, exec_irqFlush s, .flush⟩
  | chInit ch => exact ⟨_, rfl, .of_eq (s.setChan_fs ..) nofun⟩
  | rxPop =>
    rcases rxPop_cases Config.params s with e | ⟨x, e⟩
    · exact ⟨_, e, .kept nofun⟩
    · exact ⟨_, e, .kept nofun⟩
  | decPoll => exact ⟨_, rfl, .of_eq (s.decodeOne_unchangedBut Config.params .fs (by decide)) nofun⟩
  | encSend cmd note vel =>
    obtain ⟨b, ⟨ph, e⟩ | ⟨x, e⟩⟩ := encSend_cases Config.params cmd note vel s
    · exact ⟨_, e, .kept nofun⟩
    · exact ⟨_, e, .kept nofun⟩
  | scanTick =>
    have htick := s.afterColsDraw.tick_unchangedBut Config.params s.colsDraw .fs (by decide)
    exact ⟨_, rfl, .of_eq (htick.trans s.afterColsDraw_fs) nofun⟩
  | delay ms poll =>
    obtain ⟨u, left, hu, e⟩ := delay_cases Config.params ms poll s
    have hsame : u.fs = s.fs := by rcases hu with rfl | rfl <;> simp
    exact ⟨_, e, .of_eq ((u.delayStep_fs ..).trans hsame) nofun⟩
  | irqTx => exact ⟨_, rfl, .of_eq (txBody_unchangedBut Config.params s .fs (by decide)) nofun⟩
  | _ => exact ⟨_, rfl, .kept nofun⟩

theorem fsStepTo_of_exec {i : Instr} {s t : State} (h : exec i s = .next t) : s.fs.StepTo Config.params i t.fs := by
  obtain ⟨t', ht', hstep⟩ := exec_fsStepTo i s
  obtain rfl : t' = t := Host.Outcome.next.inj (ht'.symm.trans h)
  exact hstep

/-! ## The strip behind the store (R196, R34 (b)) -/

theorem stripAfter_nil (strip : Nat → Colour) : stripAfter strip [] = strip := rfl

/-- The bytes of the positions up to `d` paint those positions and no other (R190). -/
theorem stripAfter_of_prefixBytes {f : FrameStore} {d : Nat} {bytes : List Byte} (h : PrefixBytes f d bytes)
    (strip : Nat → Colour) (i : Nat) : stripAfter strip bytes i = if i ≤ d then f.ledAt i else strip i := by
  obtain ⟨hlength, hbytes⟩ := h
  unfold stripAfter
  by_cases hi : i ≤ d
  · obtain ⟨h0, h1, h2⟩ := hbytes i hi
    rw [if_pos (by omega), if_pos hi]
    simp only [List.getD_eq_getElem?_getD, h0, h1, h2, Option.getD_some]
  · rw [if_neg (by omega), if_neg hi]

/-- A flush makes the strip agree with the store everywhere: up to the mark by what it sends, above it as before. -/
theorem StripAgrees.stripAfter_flushBytes {p : Params} {strip : Nat → Colour} {f : FrameStore} (h : StripAgrees p strip f)
    {i : Nat} (hi : i < p.nLeds) : stripAfter strip f.flushBytes i = f.ledAt i := by
  cases hdirty : f.dirty with
  | none =>
    rw [FrameStore.flushBytes_of_none hdirty, stripAfter_nil]
    exact h i hi (by simp [hdirty])
  | some d =>
    rw [stripAfter_of_prefixBytes (FrameStore.flushBytes_prefixBytes hdirty)]
    split
    · rfl
    · next hgt => exact h i hi (by simpa [hdirty] using hgt)

/-- A position is above the raised mark only if it is another one, above the mark as it was. -/
theorem above_of_above_raiseDirty {dirty : Option Nat} {idx i : Nat} (h : ∀ d, raiseDirty dirty idx = some d → d < i) :
    idx < i ∧ ∀ d, dirty = some d → d < i := by
  cases dirty with
  | none => exact ⟨h idx rfl, nofun⟩
  | some d =>
    obtain ⟨hd, hidx⟩ := max_lt_iff.mp (h _ (raiseDirty_some d idx))
    exact ⟨hidx, fun e he => Option.some.inj he ▸ hd⟩

/-- A write to a position raises the mark to it, so above the mark nothing changes. -/
theorem StripAgrees.set {p : Params} {strip : Nat → Colour} {f : FrameStore} (h : StripAgrees p strip f) (idx : Nat)
    (c : Colour) : StripAgrees p strip (f.set idx c) := by
  intro i hi habove
  obtain ⟨hidx, hold⟩ := above_of_above_raiseDirty habove
  rw [FrameStore.set_ledAt, if_neg hidx.ne']
  exact h i hi hold

/-- No position is above a mark at the last one. -/
theorem StripAgrees.of_dirty_last {p : Params} (strip : Nat → Colour) {f : FrameStore}
    (hlast : f.dirty = some (p.nLeds - 1)) : StripAgrees p strip f := by
  intro i hi habove
  have := habove _ hlast
  omega

/-- All that an operation other than FS_INIT or a flush makes of the store agrees with an unchanged strip. -/
theorem FrameStore.StepTo.stripAgrees {p : Params} {f g : FrameStore} {i : Instr} {strip : Nat → Colour}
    (hstep : f.StepTo p i g) (h : StripAgrees p strip f) (hinit : i ≠ .fsInit) (hflush : i ≠ .irqFlush) :
    StripAgrees p strip g := by
  cases hstep with
  | kept => exact h
  | init => exact absurd rfl hinit
  | set hidx c => exact h.set _ c
  | clr => exact .of_dirty_last strip rfl
  | flush => exact absurd rfl hflush

/-- Settles O56: a flush paints the positions up to the mark; any other operation sends nothing and keeps the strip. -/
theorem stripAgreesAboveTheMark : Obligations.StripAgreesAboveTheMark := by
  intro s t i strip hagree ht hinit
  by_cases hflush : i = .irqFlush
  · subst hflush
    obtain rfl : flushBody s = t := Host.Outcome.next.inj ((exec_irqFlush s).symm.trans ht)
    have hpaint (j : Nat) (hj : j < Config.params.nLeds) :
        stripAfter strip s.fs.flushBytes j = (flushBody s).fs.ledAt j := hagree.stripAfter_flushBytes hj
    exact ⟨_, flushBody_ledOut s, fun j hj _ => hpaint j hj, fun _ => hpaint⟩
  · obtain ⟨-, -, -, -, -, -, hled⟩ := streamsGrowByTheirOwnAgent i s t ht
    refine ⟨[], by rw [hled hflush, List.append_nil], ?_, fun h => absurd h hflush⟩
    rw [stripAfter_nil]
    exact (fsStepTo_of_exec ht).stripAgrees hagree hinit hflush

end Sys2Proof.Machine
end

section
/-! PROOFS. System operations (spec/44_system.md R212, R214, R216): handler registration, reading a counter, and the
turns of a delay. -/

namespace Sys2Proof.Machine

/-! ## STAT_RD and HND_SET (R212, R214) -/

/-- Settles O22: the command completes with the counter's word and has written nothing. -/
theorem statRdReturnsTheCounter : Obligations.StatRdReturnsTheCounter := fun _ _ s =>
  ⟨_, rfl, ⟨_, .of_complete rfl rfl _, BitVec.toNat_ofNat ..⟩, (UnchangedBut.refl s).complete _⟩

theorem State.setHnd_unchangedBut (s : State) (h : Handlers) : UnchangedBut [.hnd] s (s.setHnd h) := by
  intro q hq
  cases q <;> simp_all [Part.Same]

/-- Registration gives the named bit the value and keeps the three others. -/
theorem Handlers.set_bits (h : Handlers) (sel : HndSel) (en : Bool) :
    (h.set sel en).noteOn = (if sel = .noteOn then en else h.noteOn) ∧
      (h.set sel en).noteOff = (if sel = .noteOff then en else h.noteOff) ∧
      (h.set sel en).keyDown = (if sel = .keyDown then en else h.keyDown) ∧
      (h.set sel en).keyUp = (if sel = .keyUp then en else h.keyUp) := by
  cases sel <;> exact ⟨rfl, rfl, rfl, rfl⟩

/-- Settles O37: the named bit is written and the command completes with 0. -/
theorem hndSetWritesOneBit : Obligations.HndSetWritesOneBit := fun sel en s =>
  ⟨_, rfl, .of_complete rfl rfl 0, (s.setHnd_unchangedBut _).complete 0, s.hnd.set_bits sel en⟩

/-! ## One iteration of a DELAY (R216) -/

theorem State.delayBody_unchangedBut (p : Params) (s : State) (poll : Bool) :
    UnchangedBut [.inCh, .dec, .fgOut] s (s.delayBody p poll) := by
  cases poll with
  | false => exact (UnchangedBut.refl s).mono (List.nil_subset _)
  | true => exact s.decodeOne_unchangedBut p

/-- A decode poll reads `IN`, the decoder, the handler bits and `fg_out` only. -/
theorem State.decodeOne_congr {s u : State} (hin : u.inCh = s.inCh) (hdec : u.dec = s.dec) (hhnd : u.hnd = s.hnd)
    (hfgOut : u.out.fgOut = s.out.fgOut) (p : Params) :
    (u.decodeOne p).inCh = (s.decodeOne p).inCh ∧ (u.decodeOne p).dec = (s.decodeOne p).dec ∧
      (u.decodeOne p).out.fgOut = (s.decodeOne p).out.fgOut := by
  by_cases hempty : s.inCh.wr = s.inCh.rd
  · rw [State.decodeOne_of_empty hempty, State.decodeOne_of_empty (s := u) (hin ▸ hempty)]
    exact ⟨hin, hdec, hfgOut⟩
  · rw [State.decodeOne_of_data hempty, State.decodeOne_of_data (s := u) (hin ▸ hempty)]
    simp [State.decStep_eq, hin, hdec, hhnd, hfgOut]

/-- The effect of an iteration is what the iteration leaves in the parts a poll can write. -/
theorem delayIterationEffect_iff {poll : Bool} {s t : State} : DelayIterationEffect poll s t ↔
    t.inCh = (s.delayBody Config.params poll).inCh ∧ t.dec = (s.delayBody Config.params poll).dec ∧
      t.out.fgOut = (s.delayBody Config.params poll).out.fgOut := by
  cases poll with
  | false => exact ⟨fun h => h.2 rfl, fun h => ⟨nofun, fun _ => h⟩⟩
  | true =>
    refine ⟨fun h => ?_, fun h => ⟨fun _ => ⟨_, rfl, h⟩, nofun⟩⟩
    obtain ⟨u, hu, heffect⟩ := h.1 rfl
    cases hu
    exact heffect

/-- The draw of the iteration count changes nothing an iteration reads. -/
theorem delayIterationEffect_of_afterItersDraw {poll : Bool} {s t : State}
    (h : DelayIterationEffect poll s.afterItersDraw t) : DelayIterationEffect poll s t := by
  rw [delayIterationEffect_iff] at h ⊢
  cases poll with
  | false => simpa using h
  | true =>
    obtain ⟨hin, hdec, hfgOut⟩ := State.decodeOne_congr s.afterItersDraw_inCh s.afterItersDraw_dec
      s.afterItersDraw_hnd (congrArg Streams.fgOut s.afterItersDraw_out) Config.params
    simpa [hin, hdec, hfgOut] using h

/-! ## One turn of a DELAY (R216) -/

section Turns

variable (ms : Half) (poll : Bool)

theorem exec_delay_of_idle {s : State} (h : s.fg.phase = .idle) :
    exec (.delay ms poll) s = .next (s.afterItersDraw.delayStep Config.params poll s.itersDraw) := by
  simp [exec, execDelay, delay, h]

theorem exec_delay_of_delaying {s : State} {left : Nat} (h : s.fg.phase = .delaying left) :
    exec (.delay ms poll) s = .next (s.delayStep Config.params poll left) := by
  simp [exec, execDelay, delay, h]

/-- A turn with iterations to go makes one; the last completes the command, another leaves FG waiting with one less. -/
theorem State.delayStep_succ_spec (s : State) (n : Nat) :
    let t := s.delayStep Config.params poll (n + 1)
    DelayIterationEffect poll s t ∧ UnchangedBut [.inCh, .dec, .fgOut, .responses, .fg] s t ∧
      (n = 0 → Completed s t 0) ∧
      (0 < n → t.out.responses = s.out.responses ∧ t.fg = { s.fg with phase := .delaying n }) := by
  have hbody := s.delayBody_unchangedBut Config.params poll
  cases n with
  | zero =>
    exact ⟨delayIterationEffect_iff.mpr ⟨rfl, rfl, rfl⟩, hbody.complete 0,
      fun _ => hbody.completed (by decide) (by decide) 0, fun hpos => absurd hpos (Nat.lt_irrefl 0)⟩
  | succ n =>
    have hresponses := hbody .responses (by decide)
    have hfg := hbody .fg (by decide)
    exact ⟨delayIterationEffect_iff.mpr ⟨rfl, rfl, rfl⟩, (hbody.setPhase _).mono (by decide), nofun,
      fun _ => ⟨hresponses, congrArg (fun g : Foreground => { g with phase := .delaying (n + 1) }) hfg⟩⟩

end Turns

theorem State.afterItersDraw_unchangedBut (s : State) : UnchangedBut [.env] s s.afterItersDraw := by
  intro q hq
  cases q <;> simp_all [Part.Same]

/-- Completing a command from a state with the same responses and the same place in the program. -/
theorem Completed.of_same {s u t : State} {x : Word} (h : Completed u t x)
    (hresponses : u.out.responses = s.out.responses) (hprog : u.fg.prog = s.fg.prog) (hfpc : u.fg.fpc = s.fg.fpc) :
    Completed s t x := by
  rwa [Completed, hresponses, hprog, hfpc] at h

/-- A command that started with the draw of the iteration count has completed. -/
theorem Completed.of_afterItersDraw {s t : State} {x : Word} (h : Completed s.afterItersDraw t x) : Completed s t x :=
  h.of_same (by simp) (by simp) (by simp)

/-- Settles O57: the first turn is the draw and then a turn with the count drawn, every later one a turn with the count
left. -/
theorem delayIteratesAsDrawn : Obligations.DelayIteratesAsDrawn := by
  intro ms poll s
  have hdraw := s.afterItersDraw_unchangedBut
  refine ⟨fun hidle hnone => ?_, fun n hidle hsome => ?_, fun n hwait => ?_⟩
  · have hexec := exec_delay_of_idle ms poll hidle
    rw [hnone] at hexec
    exact ⟨_, hexec, hdraw.completed (by decide) (by decide) 0, (hdraw.complete 0).mono (by decide), rfl⟩
  · have hexec := exec_delay_of_idle ms poll hidle
    rw [hsome] at hexec
    obtain ⟨heffect, hframe, hlast, hmore⟩ := s.afterItersDraw.delayStep_succ_spec poll n
    refine ⟨_, hexec, delayIterationEffect_of_afterItersDraw heffect, (hdraw.trans hframe).mono (by decide),
      hframe .env (by decide), fun hn => (hlast hn).of_afterItersDraw, fun hn => ?_⟩
    simpa using hmore hn
  · exact ⟨_, exec_delay_of_delaying ms poll hwait, s.delayStep_succ_spec poll n⟩

/-! ## All turns of a DELAY (R216, R276) -/

/-- After a turn with `n + 1` iterations to go, `n` more turns complete the command with one response. -/
theorem State.delayStep_succ_executes (ms : Half) (poll : Bool) (s : State) (n : Nat) :
    ∃ t, Executes (s.delayStep Config.params poll (n + 1)) (List.replicate n (.delay ms poll)) t ∧ Completed s t 0 := by
  induction n generalizing s with
  | zero =>
    obtain ⟨-, -, hlast, -⟩ := s.delayStep_succ_spec poll 0
    exact ⟨_, .done _, hlast rfl⟩
  | succ n ih =>
    obtain ⟨-, -, -, hmore⟩ := s.delayStep_succ_spec poll (n + 1)
    obtain ⟨hresponses, hfg⟩ := hmore n.succ_pos
    obtain ⟨t, hrest, hdone⟩ := ih (s.delayStep Config.params poll (n + 2))
    have hexec := exec_delay_of_delaying ms poll (congrArg Foreground.phase hfg)
    exact ⟨t, .next hexec hrest, hdone.of_same hresponses (by rw [hfg]) (by rw [hfg])⟩

/-- A DELAY run from its start for as many turns as iterations are drawn, and for one if none are, completes. -/
theorem executes_delay_completes (ms : Half) (poll : Bool) {s : State} (hidle : s.fg.phase = .idle) :
    ∃ t, Executes s (List.replicate (max 1 s.itersDraw) (.delay ms poll)) t ∧ Completed s t 0 := by
  have hexec := exec_delay_of_idle ms poll hidle
  cases hdrawn : s.itersDraw with
  | zero =>
    rw [hdrawn] at hexec
    exact ⟨_, .next hexec (.done _), s.afterItersDraw_unchangedBut.completed (by decide) (by decide) 0⟩
  | succ n =>
    rw [hdrawn] at hexec
    obtain ⟨t, hrest, hdone⟩ := s.afterItersDraw.delayStep_succ_executes ms poll n
    rw [Nat.max_eq_right (Nat.le_add_left 1 n), List.replicate_succ]
    exact ⟨t, .next hexec hrest, hdone.of_afterItersDraw⟩

/-- Settles O58: the run completes, and a completion leaves FG idle at the next command with one response more. -/
theorem delayAlwaysEnds : Obligations.DelayAlwaysEnds := by
  intro ms poll s hidle
  obtain ⟨t, hrun, hresponses, -, hfpc, hphase⟩ := executes_delay_completes ms poll hidle
  exact ⟨t, hrun, hfpc, hphase, hresponses⟩

end Sys2Proof.Machine
end

section
/-! PROOFS. Exceptions (spec/60_exceptions.md R230 to R246): nothing stops the machine, event services of different
kinds commute, and the turns of a delay are the loop on a millisecond clock that may wrap. -/

namespace Sys2Proof.Machine

/-! ## Nothing stops the machine (R230, R276) -/

theorem exec_answers (i : Instr) (s : State) : ∃ t, exec i s = .next t := by
  obtain ⟨t, ht, -⟩ := exec_keeps_prog i s
  exact ⟨t, ht⟩

/-- FG's turn idles, runs the command or answers ILLEGAL (R93, R276). -/
theorem stepFg_answers (s : State) : ∃ t, stepFg s = .next t := by
  cases hfetch : s.fetchCommand with
  | none => exact ⟨s, by rw [stepFg, hfetch]⟩
  | some w =>
    cases hdecode : decodeCommandWord w with
    | ok i => exact stepFg_of_decode_ok hfetch hdecode ▸ exec_answers i s
    | error e => exact ⟨_, stepFg_of_decode_error hfetch hdecode⟩

theorem stepTurn_answers (turn : Turn) (s : State) : ∃ t, stepTurn turn s = .next t := by
  cases turn with
  | fg => exact stepFg_answers s
  | event w =>
    cases hdecode : decodeEventWord w with
    | ok i => exact stepTurn_event_of_decode_ok hdecode s ▸ exec_answers i s
    | error e => exact ⟨s, stepTurn_event_of_decode_error hdecode s⟩
  | spuriousRx => exact stepTurn_spuriousRx s ▸ exec_answers _ s
  | reset => exact ⟨s.afterReset, rfl⟩

/-- Settles O7: every operation answers a next state, and a step is an operation or an answer of its own. -/
theorem nothingStopsTheMachine : Obligations.NothingStopsTheMachine := by
  refine ⟨exec_answers, fun s => ?_⟩
  cases hturns : s.env.turns with
  | nil =>
    rw [step_of_fgMovesIn (.inl ⟨hturns, rfl⟩)]
    exact stepFg_answers s
  | cons turn ts =>
    rw [step_of_turns_cons hturns]
    exact stepTurn_answers turn _

/-! ## Services of different kinds commute (R234) -/

/-- The receive service works on `IN`, the flush service on the frame store and `led_out`. -/
theorem rxBody_commute_flushBody {p : Params} {avail : Bool} {b : Byte} {pe fe oe : Bool} :
    Function.Commute (rxBody p avail b pe fe oe) flushBody := fun _ => rfl

/-- The transmit service neither reads nor writes `IN`. -/
theorem txBody_commute_rxBody {p : Params} {avail : Bool} {b : Byte} {pe fe oe : Bool} :
    Function.Commute (txBody p) (rxBody p avail b pe fe oe) := by
  intro s
  by_cases h : s.outCh.wr = s.outCh.rd
  · rw [txBody_of_empty h, txBody_of_empty (s := rxBody p avail b pe fe oe s) h]; rfl
  · rw [txBody_of_nonempty h, txBody_of_nonempty (s := rxBody p avail b pe fe oe s) h]; rfl

/-- The transmit service neither reads nor writes the frame store and `led_out`. -/
theorem txBody_commute_flushBody {p : Params} : Function.Commute (txBody p) flushBody := by
  intro s
  by_cases h : s.outCh.wr = s.outCh.rd
  · rw [txBody_of_empty h, txBody_of_empty (s := flushBody s) h]; rfl
  · rw [txBody_of_nonempty h, txBody_of_nonempty (s := flushBody s) h]; rfl

/-- Operations that always answer what commuting functions give may change places. -/
theorem exec_commute_of_bodies {e₁ e₂ : Instr} {f g : State → State} (h₁ : ∀ s, exec e₁ s = .next (f s))
    (h₂ : ∀ s, exec e₂ s = .next (g s)) (hcommute : Function.Commute f g) (s : State) :
    ∃ s₁ s₂ t, exec e₁ s = .next s₁ ∧ exec e₂ s₁ = .next t ∧ exec e₂ s = .next s₂ ∧ exec e₁ s₂ = .next t :=
  ⟨f s, g s, g (f s), h₁ s, h₂ (f s), h₂ s, (h₁ (g s)).trans (congrArg Host.Outcome.next (hcommute s))⟩

theorem exec_irqRx {avail : Bool} {b : Byte} {pe fe oe : Bool} (s : State) :
    exec (.irqRx avail b pe fe oe) s = .next (rxBody Config.params avail b pe fe oe s) := rfl

theorem exec_irqTx (s : State) : exec .irqTx s = .next (txBody Config.params s) := rfl

/-- Settles O29: the bodies of the three services commute in pairs, and two services of one kind have one row. -/
theorem eventServicesCommute : Obligations.EventServicesCommute := by
  intro s e₁ e₂ he₁ he₂ hrow
  cases e₁ with
  | irqFlush =>
    cases e₂ with
    | irqFlush => exact absurd rfl hrow
    | irqRx => exact exec_commute_of_bodies exec_irqFlush exec_irqRx rxBody_commute_flushBody.symm s
    | irqTx => exact exec_commute_of_bodies exec_irqFlush exec_irqTx txBody_commute_flushBody.symm s
    | _ => cases he₂
  | irqRx =>
    cases e₂ with
    | irqFlush => exact exec_commute_of_bodies exec_irqRx exec_irqFlush rxBody_commute_flushBody s
    | irqRx => exact absurd rfl hrow
    | irqTx => exact exec_commute_of_bodies exec_irqRx exec_irqTx txBody_commute_rxBody.symm s
    | _ => cases he₂
  | irqTx =>
    cases e₂ with
    | irqFlush => exact exec_commute_of_bodies exec_irqTx exec_irqFlush txBody_commute_flushBody s
    | irqRx => exact exec_commute_of_bodies exec_irqTx exec_irqRx txBody_commute_rxBody s
    | irqTx => exact absurd rfl hrow
    | _ => cases he₂
  | _ => cases he₁

/-! ## R216's loop on a clock that may wrap (R216, R246) -/

/-- One pass of R216's loop: a DEC_POLL whose result is ignored, or nothing. -/
def loopPass (poll : Bool) (s : State) : State := if poll then polled s else s

/-- On a clock whose last reading is the first to show `ms` elapsed, R216's loop makes one pass for every earlier
reading, and the wrap of the clock does not matter (R246). -/
theorem clockLoop_of_elapsed {p : Params} (poll : Bool) {t0 ms last : Nat} (ht0 : t0 < p.msWrap) (hms : ms ≤ last)
    (hlast : last < p.msWrap) (passes : List Nat) (hpasses : ∀ e ∈ passes, e < ms) (s : State) :
    clockLoop p poll t0 ms ((passes ++ [last]).map fun e => (t0 + e) % p.msWrap) s =
      ((loopPass poll)^[passes.length] s, passes.length) := by
  induction passes generalizing s with
  | nil => simp [clockLoop, delayWaits_wrapped ht0 hlast, hms]
  | cons e rest ih =>
    obtain ⟨he, hrest⟩ := List.forall_mem_cons.mp hpasses
    have hwaits : delayWaits p t0 ((t0 + e) % p.msWrap) ms = true := by
      simpa [delayWaits_wrapped ht0 (he.trans_le hms |>.trans hlast)] using he
    rw [List.cons_append, List.map_cons, clockLoop, if_pos hwaits]
    exact congrArg (fun r : State × Nat => (r.1, r.2 + 1)) (ih hrest (loopPass poll s))

/-! ## The turns of a DELAY beside the passes of the loop (R216) -/

/-- Two states agree on what a decode poll reads: `IN`, the decoder, the handler bits and `fg_out`. -/
structure SamePollParts (t u : State) : Prop where
  inCh : t.inCh = u.inCh
  dec : t.dec = u.dec
  hnd : t.hnd = u.hnd
  fgOut : t.out.fgOut = u.out.fgOut

theorem samePollParts_afterItersDraw (s : State) : SamePollParts s.afterItersDraw s := by
  constructor <;> simp

/-- An iteration of a DELAY and a pass of the loop, from states that agree, leave states that agree. -/
theorem SamePollParts.loopPass {poll : Bool} {s t u : State} (h : SamePollParts s u)
    (heffect : DelayIterationEffect poll s t) (hhnd : t.hnd = s.hnd) : SamePollParts t (loopPass poll u) := by
  obtain ⟨hin, hdec, hfgOut⟩ := delayIterationEffect_iff.mp heffect
  cases poll with
  | false => exact ⟨hin.trans h.inCh, hdec.trans h.dec, hhnd.trans h.hnd, hfgOut.trans h.fgOut⟩
  | true =>
    obtain ⟨hin', hdec', hfgOut'⟩ := State.decodeOne_congr h.inCh h.dec h.hnd h.fgOut Config.params
    obtain ⟨-, -, -, hhnd'⟩ := polled_parts u
    exact ⟨hin.trans hin', hdec.trans hdec', (hhnd.trans h.hnd).trans hhnd'.symm, hfgOut.trans hfgOut'⟩

/-- What is executed after a first operation is executed from the state that operation answers. -/
theorem Executes.tail {s t u : State} {i : Instr} {is : List Instr} (hrun : Executes s (i :: is) u)
    (hexec : exec i s = .next t) : Executes t is u := by
  cases hrun with
  | next h rest =>
    obtain rfl := Host.Outcome.next.inj (h.symm.trans hexec)
    exact rest

/-- After a turn with `n + 1` iterations to go, `n` more turns leave what `n + 1` passes of the loop leave, and write
only what a DELAY may write. -/
theorem State.delayStep_succ_follows_loop {ms : Half} {poll : Bool} {s t u : State} {n : Nat} (h : SamePollParts s u)
    (hrun : Executes (s.delayStep Config.params poll (n + 1)) (List.replicate n (.delay ms poll)) t) :
    SamePollParts t ((loopPass poll)^[n + 1] u) ∧ UnchangedBut [.inCh, .dec, .fgOut, .responses, .fg] s t := by
  induction n generalizing s u with
  | zero =>
    obtain ⟨heffect, hframe, -, -⟩ := s.delayStep_succ_spec poll 0
    cases hrun
    exact ⟨h.loopPass heffect (hframe .hnd (by decide)), hframe⟩
  | succ n ih =>
    obtain ⟨heffect, hframe, -, hmore⟩ := s.delayStep_succ_spec poll (n + 1)
    obtain ⟨-, hfg⟩ := hmore n.succ_pos
    have hrest := hrun.tail (exec_delay_of_delaying ms poll (congrArg Foreground.phase hfg))
    obtain ⟨hsame, hunchanged⟩ := ih (h.loopPass heffect (hframe .hnd (by decide))) hrest
    exact ⟨hsame, (hframe.trans hunchanged).mono (by decide)⟩

/-- All turns of a DELAY leave what as many passes of the loop leave as iterations were drawn. -/
theorem executes_delay_follows_loop {ms : Half} {poll : Bool} {s t : State} (hidle : s.fg.phase = .idle)
    (hrun : Executes s (List.replicate (max 1 s.itersDraw) (.delay ms poll)) t) :
    SamePollParts t ((loopPass poll)^[s.itersDraw] s) ∧
      UnchangedBut [.inCh, .dec, .fgOut, .responses, .fg, .env] s t := by
  have hexec := exec_delay_of_idle ms poll hidle
  have hdraw := s.afterItersDraw_unchangedBut
  have hsame := samePollParts_afterItersDraw s
  cases hdrawn : s.itersDraw with
  | zero =>
    rw [hdrawn] at hexec hrun
    cases hrun.tail hexec
    exact ⟨⟨hsame.inCh, hsame.dec, hsame.hnd, hsame.fgOut⟩, (hdraw.complete 0).mono (by decide)⟩
  | succ n =>
    rw [hdrawn] at hexec hrun
    rw [Nat.max_eq_right (Nat.le_add_left 1 n), List.replicate_succ] at hrun
    obtain ⟨hparts, hframe⟩ := State.delayStep_succ_follows_loop hsame (hrun.tail hexec)
    exact ⟨hparts, (hdraw.trans hframe).mono (by decide)⟩

/-- Settles O59: the loop makes the passes drawn, the turns leave what they leave, and the run completes. -/
theorem delayClockSurvivesOneWrap : Obligations.DelayClockSurvivesOneWrap := by
  intro ms poll s t0 last passes hidle ht0 hpasses hms hlast hdrawn
  obtain ⟨t, hrun, hresponses, -, hfpc, -⟩ := executes_delay_completes ms poll hidle
  obtain ⟨hsame, hframe⟩ := executes_delay_follows_loop hidle hrun
  rw [hdrawn] at hrun hsame
  exact ⟨t, _, hrun, clockLoop_of_elapsed poll ht0 hms hlast passes hpasses s, hsame.inCh, hsame.dec, hsame.fgOut,
    hframe, hfpc, hresponses⟩

end Sys2Proof.Machine
end

section
/-! PROOFS. Reset and hazards (spec/70_reset_and_hazards.md R260 to R276): the reset values, the reset input, and runs
that are over. -/

namespace Sys2Proof.Machine

/-! ## The reset values (R260) -/

theorem State.reset_chan (ch : Chan) : State.reset.chan ch = Channel.reset := by cases ch <;> rfl

theorem Channel.reset_byteAt (j : Nat) : Channel.reset.byteAt j = 0x00 := Memory.read_nil _ j

theorem Scanner.reset_keyAt (i : Nat) : Scanner.reset.keyAt i = Key.zero := Memory.read_nil _ i

theorem FrameStore.reset_ledAt (i : Nat) : FrameStore.reset.ledAt i = Colour.zero := Memory.read_nil _ i

/-- Settles O9: both channels are the reset channel, an array that lists nothing reads as its reset element at every
index, and the other pieces of state are written at their values in `State.reset`. -/
theorem resetLeavesTheListedValues : Obligations.ResetLeavesTheListedValues := by
  refine ⟨fun ch j => ?_, fun ch => ?_, fun ch sel => ?_, rfl, rfl, rfl, rfl, Scanner.reset_keyAt, rfl,
    FrameStore.reset_ledAt, rfl, rfl, rfl, rfl, rfl⟩
  · rw [State.reset_chan, Channel.reset_byteAt]
  · rw [State.reset_chan]
    exact ⟨rfl, rfl⟩
  · rw [State.reset_chan]
    exact Stats.zero_get sel

/-- Settles O11: reset meets the invariant at every legal choice of the parameters, and the machine's are one. -/
theorem resetMeetsTheInvariant : Obligations.ResetMeetsTheInvariant := State.reset_inv Config.params_valid

/-! ## The reset input (R261) -/

theorem step_of_reset_turn {s : State} {ts : List Turn} (h : s.env.turns = .reset :: ts) :
    step s = .next (s.setTurns ts).afterReset := step_of_turns_cons h

/-- Settles O10: the turn is used up, and of the state it is made in only the program and the inputs stay. -/
theorem resetInputErasesEverything : Obligations.ResetInputErasesEverything := fun _ _ hturns =>
  ⟨_, step_of_reset_turn hturns, rfl, rfl, rfl, rfl, rfl, rfl, rfl, rfl, rfl⟩

/-! ## Runs that are over (R118, R267, R276) -/

theorem State.fetchCommand_eq_none_iff (s : State) : s.fetchCommand = none ↔ s.fg.prog.length ≤ s.fg.fpc :=
  List.getElem?_eq_none_iff

theorem stepFg_of_fetch_none {s : State} (hfetch : s.fetchCommand = none) : stepFg s = .next s := by
  simp [stepFg, hfetch]

/-- While FG is held its turn passes: the command on the port is an RX_POP, which an empty `IN` holds (R118). -/
theorem stepFg_of_heldInPop {s : State} (h : s.HeldInPop) : stepFg s = .next s := by
  obtain ⟨⟨w, hfetch, hdecode⟩, hempty⟩ := h
  calc stepFg s
    _ = exec .rxPop s := stepFg_of_decode_ok hfetch hdecode
    _ = .next s := rxPopHoldsWhileInIsEmpty s ((Channel.has_eq_false_iff _).mp hempty)

/-- Settles O13: with no turn listed FG is next to move, and it is held in RX_POP or has no command to run. -/
theorem stuckAndCompleteRunsStayAsTheyAre : Obligations.StuckAndCompleteRunsStayAsTheyAre := by
  refine ⟨fun s ⟨hturns, hheld⟩ => ?_, fun s ⟨hturns, hdone⟩ => ?_⟩
  · rw [step_of_fgMovesIn (.inl ⟨hturns, rfl⟩), stepFg_of_heldInPop hheld]
  · rw [step_of_fgMovesIn (.inl ⟨hturns, rfl⟩), stepFg_of_fetch_none (s.fetchCommand_eq_none_iff.mpr hdone)]

end Sys2Proof.Machine
end
